-- ==== Sys2Proof/Word.lean ====
section
/-! DEFINITION. The words of the machine: bytes, 32-bit words and byte windows of a fixed length (R7, R8). -/

namespace Sys2Proof

/-- "A *byte* is an unsigned integer in 0..255" (R7). -/
abbrev Byte := BitVec 8

/-- "A *word* is an unsigned 32-bit integer" (R7). -/
abbrev Word := BitVec 32

/-- A `ByteString` of length exactly `n` (R8): the contents of one byte window, byte 0 first. -/
structure Bytes (n : Nat) where
  toList : List Byte
  length_eq : toList.length = n
deriving DecidableEq, Repr

/-- A block is a `ByteString` of length exactly 16 (R8). -/
abbrev Block := Bytes 16

/-- A key is a `ByteString` of length exactly 32 (R8). -/
abbrev Key := Bytes 32

/-- An expanded key: 240 bytes, 15 round keys of 16 bytes (R35). -/
abbrev ExpandedKey := Bytes 240

/-- The byte string of length `n` whose byte `i` is `f i`. -/
def Bytes.tab (n : Nat) (f : Nat → Byte) : Bytes n :=
  ⟨(List.range n).map f, by simp⟩

/-- `b[i]` (R8). The rules only use `i < n`; beyond the end this total function answers 0. -/
def Bytes.get {n : Nat} (b : Bytes n) (i : Nat) : Byte :=
  b.toList.getD i 0

/-- `rep(n, 0x00)`: the all-zero byte string (R8). -/
def Bytes.zero (n : Nat) : Bytes n :=
  .tab n fun _ => 0

/-- `x ⊕ y` on byte strings of equal length, byte by byte (R7). -/
def Bytes.xor {n : Nat} (x y : Bytes n) : Bytes n :=
  .tab n fun j => x.get j ^^^ y.get j

end Sys2Proof
end

