-- ==== Sys2Proof/Syntax.lean ====
section
/-! DEFINITION. The command set: one constructor for each of the 25 rows of the opcode map (R83). -/

namespace Sys2Proof

/-- A command of the engine, with its operands `a = cmd[15:8]` and `b = cmd[23:16]` where its format has them (R82). -/
inductive Instr where
  /-- `NOP` (R210). -/
  | nop
  /-- `GMUL a, b` (R110). -/
  | gmul (a b : Byte)
  /-- `SBOX a` (R111). -/
  | sbox (a : Byte)
  /-- `ISBOX a` (R112). -/
  | isbox (a : Byte)
  /-- `RCON a` (R113). -/
  | rcon (a : Byte)
  /-- `KEYEXP` (R123). -/
  | keyexp
  /-- `ENCBLK` (R148). -/
  | encblk
  /-- `DECBLK` (R149). -/
  | decblk
  /-- `SUBB` (R141). -/
  | subb
  /-- `ISUBB` (R142). -/
  | isubb
  /-- `SHROWS` (R143). -/
  | shrows
  /-- `ISHROWS` (R144). -/
  | ishrows
  /-- `MIXCOL` (R145). -/
  | mixcol
  /-- `IMIXCOL` (R146). -/
  | imixcol
  /-- `ARK a` (R147). -/
  | ark (a : Byte)
  /-- `KSLOAD` (R170). -/
  | ksload
  /-- `KSNEXT` (R171). -/
  | ksnext
  /-- `KSXOR` (R172). -/
  | ksxor
  /-- `ENC_CUR` (R175). -/
  | encCur
  /-- `DEC_CUR` (R176). -/
  | decCur
  /-- `ENC_OLD` (R177). -/
  | encOld
  /-- `DEC_OLD` (R178). -/
  | decOld
  /-- `XORC` (R201). -/
  | xorc
  /-- `ENCRYPT` (R211). -/
  | encrypt
  /-- `DECRYPT` (R212). -/
  | decrypt
deriving DecidableEq, Repr

end Sys2Proof
end

