-- ==== Sys2Proof/WellFormed.lean ====
section
/-! DEFINITION. Well-formedness. An `Instr` carries its operands as bytes, which is all the encoding admits (R82), so the
checks stand where an operand can still be wrong: on a command as it is written in assembly, a mnemonic with a list of
numbers (R90). -/

namespace Sys2Proof

/-- The three operand formats (R81). -/
inductive Format where
  | f0
  | f1
  | f2
deriving DecidableEq, Repr

/-- How many operands a format has (R81). -/
def Format.operandCount : Format → Nat
  | .f0 => 0
  | .f1 => 1
  | .f2 => 2

/-- The mnemonics of the opcode map (R83). -/
inductive Mnemonic where
  | nop | gmul | sbox | isbox | rcon
  | keyexp | encblk | decblk
  | subb | isubb | shrows | ishrows | mixcol | imixcol | ark
  | ksload | ksnext | ksxor
  | encCur | decCur | encOld | decOld | xorc
  | encrypt | decrypt
deriving DecidableEq, Repr

/-- The format column of the opcode map (R83). -/
def Mnemonic.format : Mnemonic → Format
  | .gmul => .f2
  | .sbox => .f1
  | .isbox => .f1
  | .rcon => .f1
  | .ark => .f1
  | .nop => .f0
  | .keyexp => .f0
  | .encblk => .f0
  | .decblk => .f0
  | .subb => .f0
  | .isubb => .f0
  | .shrows => .f0
  | .ishrows => .f0
  | .mixcol => .f0
  | .imixcol => .f0
  | .ksload => .f0
  | .ksnext => .f0
  | .ksxor => .f0
  | .encCur => .f0
  | .decCur => .f0
  | .encOld => .f0
  | .decOld => .f0
  | .xorc => .f0
  | .encrypt => .f0
  | .decrypt => .f0

/-- A command as a line of assembly: `MNEMONIC`, `MNEMONIC a` or `MNEMONIC a, b` (R90). -/
structure SourceCommand where
  mnemonic : Mnemonic
  operands : List Nat
deriving DecidableEq, Repr

/-- The line has as many operands as its mnemonic's format (R81, R90). -/
def SourceCommand.countOk (c : SourceCommand) : Bool :=
  c.operands.length == c.mnemonic.format.operandCount

/-- "An operand outside 0..255 for `a` or `b` does not assemble" (R90). -/
def SourceCommand.rangeOk (c : SourceCommand) : Bool :=
  c.operands.all fun n => decide (n < 256)

/-- A line that assembles (R90). -/
def SourceCommand.wellFormed (c : SourceCommand) : Bool :=
  c.countOk && c.rangeOk

/-- The mnemonic of a command. -/
def Instr.mnemonic : Instr → Mnemonic
  | .nop => .nop
  | .gmul _ _ => .gmul
  | .sbox _ => .sbox
  | .isbox _ => .isbox
  | .rcon _ => .rcon
  | .keyexp => .keyexp
  | .encblk => .encblk
  | .decblk => .decblk
  | .subb => .subb
  | .isubb => .isubb
  | .shrows => .shrows
  | .ishrows => .ishrows
  | .mixcol => .mixcol
  | .imixcol => .imixcol
  | .ark _ => .ark
  | .ksload => .ksload
  | .ksnext => .ksnext
  | .ksxor => .ksxor
  | .encCur => .encCur
  | .decCur => .decCur
  | .encOld => .encOld
  | .decOld => .decOld
  | .xorc => .xorc
  | .encrypt => .encrypt
  | .decrypt => .decrypt

/-- The operands of a command, in the order the assembly line gives them (R90). -/
def Instr.operands : Instr → List Nat
  | .gmul a b => [a.toNat, b.toNat]
  | .sbox a => [a.toNat]
  | .isbox a => [a.toNat]
  | .rcon a => [a.toNat]
  | .ark a => [a.toNat]
  | .nop => []
  | .keyexp => []
  | .encblk => []
  | .decblk => []
  | .subb => []
  | .isubb => []
  | .shrows => []
  | .ishrows => []
  | .mixcol => []
  | .imixcol => []
  | .ksload => []
  | .ksnext => []
  | .ksxor => []
  | .encCur => []
  | .decCur => []
  | .encOld => []
  | .decOld => []
  | .xorc => []
  | .encrypt => []
  | .decrypt => []

/-- The assembly line of a command (R90). -/
def Instr.source (i : Instr) : SourceCommand :=
  ⟨i.mnemonic, i.operands⟩

/-- A command is well formed when its assembly line is. -/
def Instr.wellFormed (i : Instr) : Bool :=
  i.source.wellFormed

end Sys2Proof
end

