-- ==== Sys2Proof/Decode.lean ====
section
/-! DEFINITION. The decoder of command words (R80 to R86), total on all 2^32 words and rejecting by name, and after it the
encoder and the opcode map as data. -/

namespace Sys2Proof

/-- Why a word is illegal (R85). The engine reports all of them as `ERR_ILLEGAL` (R84). -/
inductive DecodeError where
  /-- `OP` is not in the opcode map. -/
  | unassignedOpcode (op : Byte)
  /-- `RSV` is not 0. -/
  | reservedField (rsv : Byte)
  /-- `B` is not 0 in a format that has no `B`. -/
  | unusedOperandB (b : Byte)
  /-- `A` is not 0 in a format that has no `A`. -/
  | unusedOperandA (a : Byte)
deriving DecidableEq, Repr

/-- `OP`, bits 7:0 (R80). -/
def opField (cmd : Word) : Byte := cmd.extractLsb' 0 8

/-- `A`, bits 15:8 (R80). -/
def aField (cmd : Word) : Byte := cmd.extractLsb' 8 8

/-- `B`, bits 23:16 (R80). -/
def bField (cmd : Word) : Byte := cmd.extractLsb' 16 8

/-- `RSV`, bits 31:24 (R80). -/
def rsvField (cmd : Word) : Byte := cmd.extractLsb' 24 8

/-- The command an `OP` value names, with `A` and `B` as its operands where it has them; none for an unassigned one (R83). -/
def instrOfOpcode (op a b : Byte) : Option Instr :=
  match op.toNat with
  | 0x00 => some .nop
  | 0x01 => some (.gmul a b)
  | 0x02 => some (.sbox a)
  | 0x03 => some (.isbox a)
  | 0x04 => some (.rcon a)
  | 0x10 => some .keyexp
  | 0x11 => some .encblk
  | 0x12 => some .decblk
  | 0x18 => some .subb
  | 0x19 => some .isubb
  | 0x1A => some .shrows
  | 0x1B => some .ishrows
  | 0x1C => some .mixcol
  | 0x1D => some .imixcol
  | 0x1E => some (.ark a)
  | 0x20 => some .ksload
  | 0x21 => some .ksnext
  | 0x22 => some .ksxor
  | 0x30 => some .encCur
  | 0x31 => some .decCur
  | 0x32 => some .encOld
  | 0x33 => some .decOld
  | 0x34 => some .xorc
  | 0x38 => some .encrypt
  | 0x39 => some .decrypt
  | _ => none

/-- The format of a command (R83). -/
def Instr.format (i : Instr) : Format := i.mnemonic.format

/-- Decoding a command word, with the checks in the order of rule R84. -/
def decode (cmd : Word) : Except DecodeError Instr :=
  match instrOfOpcode (opField cmd) (aField cmd) (bField cmd) with
  | none => .error (.unassignedOpcode (opField cmd))
  | some i =>
    if rsvField cmd ≠ 0 then .error (.reservedField (rsvField cmd))
    else if i.format ≠ .f2 ∧ bField cmd ≠ 0 then .error (.unusedOperandB (bField cmd))
    else if i.format = .f0 ∧ aField cmd ≠ 0 then .error (.unusedOperandA (aField cmd))
    else .ok i

/-- The instruction the decoder reads from an instruction whose bits are `w`, bit 0 the least significant bit of the command
word. A command is one 32-bit word (R86), and bits at `nbits` and above are 0. -/
def decodeTableWord (nbits w : Nat) : Option Instr :=
  match decode (BitVec.ofNat 32 (w % 2 ^ nbits)) with
  | .ok i => some i
  | .error _ => none

/-- The `match` column of the opcode map: the word with every operand field 0 (R83). -/
def Mnemonic.matchWord : Mnemonic → Word
  | .nop => 0x00000000#32
  | .gmul => 0x00000001#32
  | .sbox => 0x00000002#32
  | .isbox => 0x00000003#32
  | .rcon => 0x00000004#32
  | .keyexp => 0x00000010#32
  | .encblk => 0x00000011#32
  | .decblk => 0x00000012#32
  | .subb => 0x00000018#32
  | .isubb => 0x00000019#32
  | .shrows => 0x0000001A#32
  | .ishrows => 0x0000001B#32
  | .mixcol => 0x0000001C#32
  | .imixcol => 0x0000001D#32
  | .ark => 0x0000001E#32
  | .ksload => 0x00000020#32
  | .ksnext => 0x00000021#32
  | .ksxor => 0x00000022#32
  | .encCur => 0x00000030#32
  | .decCur => 0x00000031#32
  | .encOld => 0x00000032#32
  | .decOld => 0x00000033#32
  | .xorc => 0x00000034#32
  | .encrypt => 0x00000038#32
  | .decrypt => 0x00000039#32

/-- The `mask` column of the opcode map, which depends on the format alone (R83). -/
def Format.mask : Format → Word
  | .f0 => 0xFFFFFFFF#32
  | .f1 => 0xFFFF00FF#32
  | .f2 => 0xFF0000FF#32

/-- A word with operands `a` and `b`: `match | zext_32(a) << 8 | zext_32(b) << 16` (R90). -/
def commandWord (m : Mnemonic) (a b : Byte) : Word :=
  m.matchWord ||| (a.setWidth 32 <<< 8) ||| (b.setWidth 32 <<< 16)

/-- The word of a command (R83, R90). -/
def encode (i : Instr) : Word :=
  match i with
  | .gmul a b => commandWord .gmul a b
  | .sbox a => commandWord .sbox a 0
  | .isbox a => commandWord .isbox a 0
  | .rcon a => commandWord .rcon a 0
  | .ark a => commandWord .ark a 0
  | .nop => commandWord .nop 0 0
  | .keyexp => commandWord .keyexp 0 0
  | .encblk => commandWord .encblk 0 0
  | .decblk => commandWord .decblk 0 0
  | .subb => commandWord .subb 0 0
  | .isubb => commandWord .isubb 0 0
  | .shrows => commandWord .shrows 0 0
  | .ishrows => commandWord .ishrows 0 0
  | .mixcol => commandWord .mixcol 0 0
  | .imixcol => commandWord .imixcol 0 0
  | .ksload => commandWord .ksload 0 0
  | .ksnext => commandWord .ksnext 0 0
  | .ksxor => commandWord .ksxor 0 0
  | .encCur => commandWord .encCur 0 0
  | .decCur => commandWord .decCur 0 0
  | .encOld => commandWord .encOld 0 0
  | .decOld => commandWord .decOld 0 0
  | .xorc => commandWord .xorc 0 0
  | .encrypt => commandWord .encrypt 0 0
  | .decrypt => commandWord .decrypt 0 0

end Sys2Proof
end

