-- ==== Sys2Proof/Config.lean ====
section
/-! DEFINITION. What an implementation fixes, and the free values: the parameters of rule R6, the bases of the
windows (R52), and the values the spec leaves to a draw (U1, U2, U3, U12). A free value has no body, so
whatever is proved holds for every value of it. -/

namespace Sys2Proof.Config

/-- `ID`: `DESIGN` 0xAE25 in bits 31:16 and `REV` 0x0001 in bits 15:0, "at all times" (R21). -/
def idWord : Word := 0xAE250001#32

/-- `PW_MAX`, fixed (R6, R36). -/
def pwMax : Nat := 256

/-- The size of the register window: offsets are 14 bits wide (R50). -/
def windowSize : Nat := 0x4000

/-- First offset of the password buffer `PW` (R52). -/
def pwBase : Nat := 0x0200

/-- First offset of the input buffer `IBUF` (R52). -/
def ibufBase : Nat := 0x1000

/-- First offset of the output buffer `OBUF` (R52). -/
def obufBase : Nat := 0x2000

/-- A legal value of the implementation parameter `BUF_SIZE`: "multiple of 16 with 32 ≤ `BUF_SIZE` ≤ 4096" (R6). -/
structure BufSize where
  bytes : Nat
  isMultiple : bytes % 16 = 0
  atLeast : 32 ≤ bytes
  atMost : bytes ≤ 4096
deriving DecidableEq, Repr

/-- "default 4096" (R6). -/
def BufSize.default : BufSize := ⟨4096, by decide, by decide, by decide⟩

/-- What the byte of `PW`, `IBUF` or `OBUF` at a window offset holds after the reset numbered `epoch` until it is
written: "a model takes each unwritten byte as a draw" (R36 to R38, U1). Free value: notes/assumptions/4.md. -/
opaque powerOnByte : (epoch offset : Nat) → Byte

/-- Byte `j` of the random source's answer to draw number `k` (R5, R239, U2). Free value: notes/assumptions/5.md. -/
opaque randomByte : (k j : Nat) → Byte

/-- The random source's answer to draw number `k`, when nothing outside has fixed it. -/
def randomDraw (k : Nat) : Block := .tab 16 (randomByte k)

/-- `AES_CAPABLE`: "an uninterpreted total predicate" on the envelope bytes (R6, R214, U3).
Free value: notes/assumptions/6.md. -/
opaque aesCapable : List Byte → Bool

/-- What the `k`-th bus read returns if it falls while reset is asserted: "unspecified data" (R260, U12).
Free value: notes/assumptions/8.md. -/
opaque resetReadData : (k : Nat) → Word

end Sys2Proof.Config
end

