-- ==== Sys2Proof/Machine/State.lean ====
section
/-! DEFINITION. The state of the engine (R20), the reasons a step can stop, and the state after reset (R261). -/

namespace Sys2Proof.Machine

/-- `CTRL.LEGACY_ROUTE` (R22): the route `DECRYPT` takes for format version 0. -/
inductive LegacyRoute where
  /-- 0 = `XOR`. -/
  | xor
  /-- 1 = `AES_OLD`. -/
  | aesOld
  /-- 2 = `SHAPE`. -/
  | shape
  /-- 3 = `UNSET`. -/
  | unset
deriving DecidableEq, Repr

/-- `CTRL` (R22): its two stored fields. Bits 31:3 are not stored: they read as zero and ignore writes. -/
structure Ctrl where
  autoIv : Bool
  legacyRoute : LegacyRoute
deriving DecidableEq, Repr

/-- `STATUS.PATH` (R24): the route the last command took. -/
inductive Path where
  /-- 0 = `NONE`. -/
  | none
  /-- 1 = `CURRENT`. -/
  | current
  /-- 2 = `LEGACY_AES`. -/
  | legacyAes
  /-- 3 = `LEGACY_XOR`. -/
  | legacyXor
deriving DecidableEq, Repr

/-- `STATUS.ERRCODE` (R230). The codes 0x0B to 0xFF are "never reported" (U8) and have no constructor. -/
inductive ErrCode where
  /-- 0x00 `OK`. -/
  | ok
  /-- 0x01 `ERR_ILLEGAL`. -/
  | illegal
  /-- 0x02 `ERR_NOKEY`. -/
  | noKey
  /-- 0x03 `ERR_NOKS`. -/
  | noKs
  /-- 0x04 `ERR_ROUND`. -/
  | round
  /-- 0x05 `ERR_LEN`. -/
  | len
  /-- 0x06 `ERR_ENVELOPE`. -/
  | envelope
  /-- 0x07 `ERR_PADDING`. -/
  | padding
  /-- 0x08 `ERR_PWLEN`. -/
  | pwlen
  /-- 0x09 `ERR_VERSION`. -/
  | version
  /-- 0x0A `ERR_ROUTE`. -/
  | route
deriving DecidableEq, Repr

/-- `STATUS` (R24): its fields. The reserved bits are not stored: they read 0. -/
structure Status where
  keyValid : Bool
  ksValid : Bool
  err : Bool
  path : Path
  errCode : ErrCode
deriving DecidableEq, Repr

/-- The 32-bit registers of the map (R20, R52). -/
inductive Reg where
  | id | ctrl | status | cmd | version | len | pwlen | outlen | result
deriving DecidableEq, Repr

/-- The byte windows of the map (R20, R52). -/
inductive Window where
  | key | iv | state | ksr | expkey | pw | ibuf | obuf
deriving DecidableEq, Repr

/-- Something the outside does to the engine. An access has a byte offset in the register window and a width in bytes. -/
inductive HostEvent where
  /-- `MemRead(off, width)` (R58). -/
  | read (off width : Nat)
  /-- `MemWrite(off, width, v)` (R59). -/
  | write (off width : Nat) (v : Word)
  /-- The platform sets the level of the reset input (R260). -/
  | resetLine (asserted : Bool)
deriving DecidableEq, Repr

/-- The written bytes of `PW`, `IBUF` and `OBUF`, as (window offset, byte) cells with strictly rising offsets. An offset that
is not listed holds no written byte: notes/assumptions/12.md. -/
abbrev Memory := List Host.Cell

/-- The state of the engine (R20), and the model's own fields, which are the outside world's side of the interface and the
parameter `BUF_SIZE`. `ID` is hard-wired (R21) and so is no field. -/
structure State where
  /-- R22. -/
  ctrl : Ctrl
  /-- R24. -/
  status : Status
  /-- R26. -/
  cmd : Word
  /-- R25. -/
  version : Word
  /-- R27. -/
  len : Word
  /-- R28. -/
  pwlen : Word
  /-- R29. -/
  outlen : Word
  /-- R30. -/
  result : Word
  /-- R31. -/
  key : Key
  /-- R32. -/
  iv : Block
  /-- R33. -/
  state : Block
  /-- R34. -/
  ksr : Block
  /-- R35. -/
  expkey : ExpandedKey
  /-- The written bytes of `PW` (R36), `IBUF` (R37) and `OBUF` (R38). -/
  ram : Memory
  /-- The parameter `BUF_SIZE` (R6), which no step changes. The model's own field. -/
  bufSize : Config.BufSize
  /-- How many resets have been released. The model's own field. -/
  epoch : Nat
  /-- Answers of the random source that the outside has fixed, next first. The model's own field. -/
  rngAnswers : List Block
  /-- How many draws were taken. The model's own field. -/
  draws : Nat
  /-- The reset input is asserted (R260). The model's own field. -/
  inReset : Bool
  /-- What the outside does next, in order (R61). The model's own field. -/
  pending : List HostEvent
  /-- The words the host has read, newest first (R58). The model's own field. -/
  readData : List Word
deriving DecidableEq, Repr

/-- Why the machine stops. Only a host access outside the interface stops it: "A model gives it no step: the host is stuck
there" (R55). Commands never stop it. -/
inductive Fault where
  /-- An access at an offset with `off mod 4 ≠ 0` (R55). Raised by serving a read or a write. Safe. -/
  | misaligned (off : Nat)
  /-- An access of another width than 32 bits (R55). Raised by serving a read or a write. Safe. -/
  | badWidth (width : Nat)
  /-- An access outside the 16 KiB window, which is "not the engine's" (R50). Raised by serving a read or a write. Safe. -/
  | outsideWindow (off : Nat)
deriving DecidableEq, Repr

/-- Why an instruction has no meaning. Every command of the opcode map has one. -/
inductive Refusal where
  /-- An instruction without a meaning in this model. Raised by no arm of `exec`. Safe. -/
  | notModelled (mnemonic : String)
deriving DecidableEq, Repr

/-- What executing a command or taking a step answers. -/
abbrev Outcome := Host.Outcome State Fault Refusal

/-- The machine right after its first reset is released (R261): "all 0x00" windows, `CTRL` 0x00000007, `VERSION` 0xFFFFFFFF, and
no byte of `PW`, `IBUF` and `OBUF` written, since their contents are unspecified. -/
def State.reset : State where
  ctrl := ⟨true, .unset⟩
  status := ⟨false, false, false, .none, .ok⟩
  cmd := 0x00000000#32
  version := 0xFFFFFFFF#32
  len := 0
  pwlen := 0
  outlen := 0
  result := 0
  key := .zero 32
  iv := .zero 16
  state := .zero 16
  ksr := .zero 16
  expkey := .zero 240
  ram := []
  bufSize := .default
  epoch := 0
  rngAnswers := []
  draws := 0
  inReset := false
  pending := []
  readData := []

end Sys2Proof.Machine
end

