-- ==== Sys2Proof/Machine/Operands.lean ====
section
/-! DEFINITION. Operand forms and byte order: how a byte becomes a word (R82, R30), how bytes pack into a bus word (R53), and
the one signed reading of the engine (R25). -/

namespace Sys2Proof.Machine

/-- `zext_32(v)` of a byte: "with zero bits at the top" (R7, R30). -/
def zext32 (v : Byte) : Word := v.setWidth 32

/-- `signed32(w)`: `w` if `w < 2^31`, else `w - 2^32` (R7). -/
def signed32 (w : Word) : Int :=
  if w.toNat < 2 ^ 31 then (w.toNat : Int) else (w.toNat : Int) - 2 ^ 32

/-- `v[8j+7:8j]`, the byte a write of word `v` puts at byte `j` of its place (R53). -/
def byteOf (v : Word) (j : Nat) : Byte := v.extractLsb' (8 * j) 8

/-- The word of four window bytes: `WIN[4k] | WIN[4k+1] << 8 | WIN[4k+2] << 16 | WIN[4k+3] << 24` (R53). -/
def wordOf (b0 b1 b2 b3 : Byte) : Word :=
  zext32 b0 ||| (zext32 b1 <<< 8) ||| (zext32 b2 <<< 16) ||| (zext32 b3 <<< 24)

/-- A window with the word `v` written at its byte `k` (R53). -/
def setWindowWord {n : Nat} (b : Bytes n) (k : Nat) (v : Word) : Bytes n :=
  .tab n fun i => if k ≤ i ∧ i < k + 4 then byteOf v (i - k) else b.get i

/-- The four bytes of a word, lowest offset first (R53). -/
def wordBytes (v : Word) : List Byte :=
  [byteOf v 0, byteOf v 1, byteOf v 2, byteOf v 3]

end Sys2Proof.Machine
end

