-- ==== Sys2Proof/Machine/Flags.lean ====
section
/-! DEFINITION. The bits of `CTRL` (R22) and `STATUS` (R24), and what the end of a command writes to `STATUS` (R232). -/

namespace Sys2Proof.Machine

/-- One bit as a word, at bit 0. -/
def boolWord (b : Bool) : Word := if b then 1#32 else 0#32

/-- The number a `LEGACY_ROUTE` value is stored as (R22). -/
def LegacyRoute.code : LegacyRoute → Word
  | .xor => 0#32
  | .aesOld => 1#32
  | .shape => 2#32
  | .unset => 3#32

/-- The `LEGACY_ROUTE` value of a 2-bit field; all four are legal (R22). -/
def LegacyRoute.ofField (f : BitVec 2) : LegacyRoute :=
  if f = 0#2 then .xor else if f = 1#2 then .aesOld else if f = 2#2 then .shape else .unset

/-- What a read of `CTRL` returns: `AUTO_IV` at bit 0, `LEGACY_ROUTE` at bits 2:1, zero above (R22). -/
def Ctrl.toWord (c : Ctrl) : Word :=
  boolWord c.autoIv ||| (c.legacyRoute.code <<< 1)

/-- What a write of `v` to `CTRL` stores: bits 31:3 are ignored (R22). -/
def Ctrl.ofWord (v : Word) : Ctrl :=
  ⟨v.getLsbD 0, LegacyRoute.ofField (v.extractLsb' 1 2)⟩

/-- The number a `PATH` value is shown as (R24). -/
def Path.code : Path → Word
  | .none => 0#32
  | .current => 1#32
  | .legacyAes => 2#32
  | .legacyXor => 3#32

/-- The value of an error code (R230). -/
def ErrCode.code : ErrCode → Word
  | .ok => 0x00#32
  | .illegal => 0x01#32
  | .noKey => 0x02#32
  | .noKs => 0x03#32
  | .round => 0x04#32
  | .len => 0x05#32
  | .envelope => 0x06#32
  | .padding => 0x07#32
  | .pwlen => 0x08#32
  | .version => 0x09#32
  | .route => 0x0A#32

/-- What a read of `STATUS` returns: `KEY_VALID` at bit 0, `KS_VALID` at bit 1, `ERR` at bit 2, `PATH` at bits 5:4, `ERRCODE` at
bits 15:8, zero elsewhere (R24). -/
def Status.toWord (t : Status) : Word :=
  boolWord t.keyValid ||| (boolWord t.ksValid <<< 1) ||| (boolWord t.err <<< 2) ||| (t.path.code <<< 4) |||
    (t.errCode.code <<< 8)

/-- `STATUS` after a success: "`ERR <- 0`, `ERRCODE <- 0x00`, `PATH <- path`" (R232). -/
def Status.succeed (t : Status) (path : Path) : Status :=
  { t with err := false, errCode := .ok, path := path }

/-- `STATUS` after a failure: "`ERR <- 1`, `ERRCODE <- code`, `PATH <- route`" (R232). -/
def Status.fail (t : Status) (code : ErrCode) (route : Path) : Status :=
  { t with err := true, errCode := code, path := route }

end Sys2Proof.Machine
end

