-- ==== Sys2Proof/Machine/Memory.lean ====
section
/-! DEFINITION. The memory of written buffer bytes: one list of cells with strictly rising offsets. -/

namespace Sys2Proof.Machine

/-- The canonical form: offsets strictly rising. An unlisted offset holds no byte at all, so no entry can equal what it
reads as. -/
abbrev Memory.wf (m : Memory) : Prop :=
  m.Pairwise fun c d => c.1 < d.1

/-- The byte written at an offset, if one was. -/
def Memory.get? : Memory → Nat → Option Byte
  | [], _ => none
  | (a, b) :: m, x => if x = a then some b else Memory.get? m x

/-- Writing one byte. -/
def Memory.set : Memory → Nat → Byte → Memory
  | [], x, v => [(x, v)]
  | (a, b) :: m, x, v =>
    if x < a then (x, v) :: (a, b) :: m
    else if x = a then (x, v) :: m
    else (a, b) :: Memory.set m x v

/-- Writing a byte string from offset `a` upwards. -/
def Memory.setBytes (m : Memory) (a : Nat) : List Byte → Memory
  | [] => m
  | b :: bs => Memory.setBytes (Memory.set m a b) (a + 1) bs

end Sys2Proof.Machine
end

