-- ==== Sys2Proof/Machine/Ops.lean ====
section
/-! DEFINITION. The shared operations: reading and writing the buffers and registers, how a command ends (R10, R232, R234), and
reset (R261). The engine has no trap and no trap return (R236, R237): a failure is `raiseError`, and there is nothing to
return from. -/

namespace Sys2Proof.Machine

/-! ### Buffer bytes -/

/-- The byte of `PW`, `IBUF` or `OBUF` at a window offset: the byte last written since reset, or the draw (R36 to R38, U1). -/
def State.byteAt (s : State) (off : Nat) : Byte :=
  match Memory.get? s.ram off with
  | some b => b
  | none => Config.powerOnByte s.epoch off

/-- The bytes at offsets `off` to `off + n - 1`. -/
def State.bytesAt (s : State) (off n : Nat) : List Byte :=
  (List.range n).map fun i => s.byteAt (off + i)

/-- `IBUF[0..n)`. -/
def State.ibufBytes (s : State) (n : Nat) : List Byte :=
  s.bytesAt Config.ibufBase n

/-- `PW[0..n)`. -/
def State.pwBytes (s : State) (n : Nat) : List Byte :=
  s.bytesAt Config.pwBase n

/-- `OBUF[0..n)`. -/
def State.obufBytes (s : State) (n : Nat) : List Byte :=
  s.bytesAt Config.obufBase n

/-- `OBUF[0..len(bs)) <- bs`: "A command writes only the bytes its rule names" (R38). -/
def State.writeObuf (s : State) (bs : List Byte) : State :=
  { s with ram := Memory.setBytes s.ram Config.obufBase bs }

/-! ### How a command ends -/

/-- `finish(path)` (R10, R232). -/
def State.finish (s : State) (path : Path) : State :=
  { s with status := s.status.succeed path }

/-- `raise Error(code)` with the command-local `route` (R10, R232): the failure report. It "saves no state, changes no mode, and
transfers control nowhere" (R236). -/
def State.raiseError (s : State) (code : ErrCode) (route : Path) : State :=
  { s with status := s.status.fail code route }

/-- How a sub-procedure of a buffer command ends (R231): done, or with the failure of `failbuf`. -/
inductive Ending where
  | done (s : State)
  | failed (code : ErrCode) (s : State)
deriving DecidableEq, Repr

/-- `failbuf(code)`: `OUTLEN <- 0`, then the failure (R10, R234). -/
def State.failBuf (s : State) (code : ErrCode) : Ending :=
  .failed code { s with outlen := 0 }

/-- The end of a command that runs a sub-procedure with the command-local `route` and ends in `finish(route)` (R231, R232). -/
def Ending.conclude (e : Ending) (route : Path) : State :=
  match e with
  | .done s => s.finish route
  | .failed code s => s.raiseError code route

/-! ### The random source -/

/-- What the next `Draw16()` answers: the answer the outside has fixed, or a free value (R239, U2). -/
def State.nextDraw (s : State) : Block :=
  match s.rngAnswers with
  | [] => Config.randomDraw s.draws
  | b :: _ => b

/-- `IV <- Draw16()` (R166). The answer is used up: no draw is answered twice. -/
def State.drawIv (s : State) : State :=
  { s with iv := s.nextDraw, rngAnswers := s.rngAnswers.tail, draws := s.draws + 1 }

/-- The IV source of an encrypt command (R166). -/
def State.chooseIv (s : State) : State :=
  if s.ctrl.autoIv then s.drawIv else s

/-! ### Registers -/

/-- What a host read of a register returns (R21 to R30, R54). -/
def State.readReg (s : State) (r : Reg) : Word :=
  match r with
  | .id => Config.idWord
  | .ctrl => s.ctrl.toWord
  | .status => s.status.toWord
  | .cmd => s.cmd
  | .version => s.version
  | .len => s.len
  | .pwlen => s.pwlen
  | .outlen => s.outlen
  | .result => s.result

/-- What a host write of a register stores; a write to a read-only one is ignored (R57). For `CMD` this is the store alone:
the command it starts is run by `runCommand`. -/
def State.writeReg (s : State) (r : Reg) (v : Word) : State :=
  match r with
  | .id => s
  | .ctrl => { s with ctrl := Ctrl.ofWord v }
  | .status => s
  | .cmd => { s with cmd := v }
  | .version => { s with version := v }
  | .len => { s with len := v }
  | .pwlen => { s with pwlen := v }
  | .outlen => s
  | .result => s

/-- Byte `k` of a window (R31 to R38). -/
def State.windowByte (s : State) (w : Window) (k : Nat) : Byte :=
  match w with
  | .key => s.key.get k
  | .iv => s.iv.get k
  | .state => s.state.get k
  | .ksr => s.ksr.get k
  | .expkey => s.expkey.get k
  | .pw => s.byteAt (Config.pwBase + k)
  | .ibuf => s.byteAt (Config.ibufBase + k)
  | .obuf => s.byteAt (Config.obufBase + k)

/-- The word at byte `k` of a window (R53). -/
def State.readWindow (s : State) (w : Window) (k : Nat) : Word :=
  wordOf (s.windowByte w k) (s.windowByte w (k + 1)) (s.windowByte w (k + 2)) (s.windowByte w (k + 3))

/-- A host write of word `v` at byte `k` of a window (R53). A `KEY` write also clears `KEY_VALID` (R39, R59); a write to a
read-only window is ignored (R57). -/
def State.writeWindow (s : State) (w : Window) (k : Nat) (v : Word) : State :=
  match w with
  | .key => { s with key := setWindowWord s.key k v, status := { s.status with keyValid := false } }
  | .iv => { s with iv := setWindowWord s.iv k v }
  | .state => { s with state := setWindowWord s.state k v }
  | .ksr => s
  | .expkey => s
  | .pw => { s with ram := Memory.setBytes s.ram (Config.pwBase + k) (wordBytes v) }
  | .ibuf => { s with ram := Memory.setBytes s.ram (Config.ibufBase + k) (wordBytes v) }
  | .obuf => s

/-! ### Reset -/

/-- The state when reset is released (R261): the reset values, with new draws for the unspecified bytes. What belongs to the
outside (`BUF_SIZE`, the random source, the events to come, the words already read) is kept. -/
def State.released (s : State) : State :=
  { State.reset with
    bufSize := s.bufSize
    epoch := s.epoch + 1
    rngAnswers := s.rngAnswers
    draws := s.draws
    pending := s.pending
    readData := s.readData }

end Sys2Proof.Machine
end

