-- ==== Sys2Proof/Machine/Field.lean ====
section
/-! DEFINITION. GF(2^8) multiplication, the constant tables, and the commands GMUL, SBOX, ISBOX and RCON
(spec/40_field_and_tables.md). -/

namespace Sys2Proof.Machine

/-! ### Field multiplication -/

/-- One shift of the loop: "left-shift `a` with reduction whenever the shifted-out high bit was set" (R100). -/
def xtime (a : Byte) : Byte :=
  if a.getLsbD 7 then (a <<< 1) ^^^ 0x1B#8 else a <<< 1

/-- `n` iterations of the loop of rule R100, with accumulator `p`. -/
def gmulLoop : (n : Nat) → (a b p : Byte) → Byte
  | 0, _, _, p => p
  | n + 1, a, b, p => gmulLoop n (xtime a) (b >>> 1) (if b.getLsbD 0 then p ^^^ a else p)

/-- `gmul(a, b)`, the product in GF(2^8) (R100). -/
def gmul (a b : Byte) : Byte := gmulLoop 8 a b 0

/-! ### Constant tables

A table is written as the spec prints it: one number for each row of 16 entries, column 0 first. -/

/-- The entry in the row of the high hex digit of `x` and the column of the low digit (R103). -/
def tableEntry (rows : List Nat) (x : Byte) : Byte :=
  BitVec.ofNat 8 (rows.getD (x.toNat / 16) 0 >>> (8 * (15 - x.toNat % 16)))

/-- The table of rule R103. -/
def sboxRows : List Nat :=
 [
   0x637c777bf26b6fc53001672bfed7ab76,
   0xca82c97dfa5947f0add4a2af9ca472c0,
   0xb7fd9326363ff7cc34a5e5f171d83115,
   0x04c723c31896059a071280e2eb27b275,
   0x09832c1a1b6e5aa0523bd6b329e32f84,
   0x53d100ed20fcb15b6acbbe394a4c58cf,
   0xd0efaafb434d338545f9027f503c9fa8,
   0x51a3408f929d38f5bcb6da2110fff3d2,
   0xcd0c13ec5f974417c4a77e3d645d1973,
   0x60814fdc222a908846eeb814de5e0bdb,
   0xe0323a0a4906245cc2d3ac629195e479,
   0xe7c8376d8dd54ea96c56f4ea657aae08,
   0xba78252e1ca6b4c6e8dd741f4bbd8b8a,
   0x703eb5664803f60e613557b986c11d9e,
   0xe1f8981169d98e949b1e87e9ce5528df,
   0x8ca1890dbfe6426841992d0fb054bb16]

/-- The table of rule R104. -/
def invSboxRows : List Nat :=
 [
   0x52096ad53036a538bf40a39e81f3d7fb,
   0x7ce339829b2fff87348e4344c4dee9cb,
   0x547b9432a6c2233dee4c950b42fac34e,
   0x082ea16628d924b2765ba2496d8bd125,
   0x72f8f66486689816d4a45ccc5d65b692,
   0x6c704850fdedb9da5e154657a78d9d84,
   0x90d8ab008cbcd30af7e45805b8b34506,
   0xd02c1e8fca3f0f02c1afbd0301138a6b,
   0x3a9111414f67dcea97f2cfcef0b4e673,
   0x96ac7422e7ad3585e2f937e81c75df6e,
   0x47f11a711d29c5896fb7620eaa18be1b,
   0xfc563e4bc6d279209adbc0fe78cd5af4,
   0x1fdda8338807c731b11210592780ec5f,
   0x60517fa919b54a0d2de57a9f93c99cef,
   0xa0e03b4dae2af5b0c8ebbb3c83539961,
   0x172b047eba77d626e169146355210c7d]

/-- The table of rule R105. -/
def rconRows : List Nat :=
 [
   0x8d01020408102040801b366cd8ab4d9a,
   0x2f5ebc63c697356ad4b37dfaefc59139,
   0x72e4d3bd61c29f254a943366cc831d3a,
   0x74e8cb8d01020408102040801b366cd8,
   0xab4d9a2f5ebc63c697356ad4b37dfaef,
   0xc5913972e4d3bd61c29f254a943366cc,
   0x831d3a74e8cb8d01020408102040801b,
   0x366cd8ab4d9a2f5ebc63c697356ad4b3,
   0x7dfaefc5913972e4d3bd61c29f254a94,
   0x3366cc831d3a74e8cb8d010204081020,
   0x40801b366cd8ab4d9a2f5ebc63c69735,
   0x6ad4b37dfaefc5913972e4d3bd61c29f,
   0x254a943366cc831d3a74e8cb8d010204,
   0x08102040801b366cd8ab4d9a2f5ebc63,
   0xc697356ad4b37dfaefc5913972e4d3bd,
   0x61c29f254a943366cc831d3a74e8cb8d]

/-- `Sbox[x]` (R103). -/
def sbox (x : Byte) : Byte := tableEntry sboxRows x

/-- `InvSbox[x]` (R104). -/
def invSbox (x : Byte) : Byte := tableEntry invSboxRows x

/-- `Rcon[i]` (R105). -/
def rcon (i : Byte) : Byte := tableEntry rconRows i

/-- A 4×4 matrix over GF(2^8), row by row. -/
abbrev Matrix4 := List (List Byte)

/-- `MDS` (R106). -/
def mds : Matrix4 :=
  [[0x02#8, 0x03#8, 0x01#8, 0x01#8],
   [0x01#8, 0x02#8, 0x03#8, 0x01#8],
   [0x01#8, 0x01#8, 0x02#8, 0x03#8],
   [0x03#8, 0x01#8, 0x01#8, 0x02#8]]

/-- `InvMDS` (R106). -/
def invMds : Matrix4 :=
  [[0x0E#8, 0x0B#8, 0x0D#8, 0x09#8],
   [0x09#8, 0x0E#8, 0x0B#8, 0x0D#8],
   [0x0D#8, 0x09#8, 0x0E#8, 0x0B#8],
   [0x0B#8, 0x0D#8, 0x09#8, 0x0E#8]]

/-- `M[i][j]`: "The row index is the output byte and the column index the input byte" (R106). -/
def matrixEntry (m : Matrix4) (i j : Nat) : Byte := (m.getD i []).getD j 0

/-! ### Commands -/

/-- `RESULT <- zext_32(v); finish(0)`, the end of the four table commands (R110 to R113). -/
def State.finishResult (s : State) (v : Byte) : State :=
  { s with result := zext32 v }.finish .none

/-- `GMUL a, b` (R110). -/
def execGmul (a b : Byte) (s : State) : Outcome := .next (s.finishResult (gmul a b))

/-- `SBOX a` (R111). -/
def execSbox (a : Byte) (s : State) : Outcome := .next (s.finishResult (sbox a))

/-- `ISBOX a` (R112). -/
def execIsbox (a : Byte) (s : State) : Outcome := .next (s.finishResult (invSbox a))

/-- `RCON a` (R113). -/
def execRcon (a : Byte) (s : State) : Outcome := .next (s.finishResult (rcon a))

end Sys2Proof.Machine
end

