-- ==== Sys2Proof/Machine/KeySchedule.lean ====
section
/-! DEFINITION. AES-256 key expansion and the command KEYEXP (spec/41_key_schedule.md). -/

namespace Sys2Proof.Machine

/-- `Core(t, i)`: rotate left by one byte, substitute each byte, XOR the first with `Rcon[i]` (R121). -/
def keyCore (t : Bytes 4) (i : Nat) : Bytes 4 :=
  .tab 4 fun m =>
    let u := sbox (t.get ((m + 1) % 4))
    if m = 0 then u ^^^ rcon (BitVec.ofNat 8 i) else u

/-- The extra S-box step of the key schedule (R120). -/
def subWord (t : Bytes 4) : Bytes 4 :=
  .tab 4 fun m => sbox (t.get m)

/-- The word `t` that is XORed in at position `cur`, from the previous word of `w` and the round counter `it` (R120). -/
def scheduleWord (w : List Byte) (cur it : Nat) : Bytes 4 :=
  let t := Bytes.tab 4 fun m => w.getD (cur - 4 + m) 0
  if cur % 32 = 0 then keyCore t it
  else if cur % 32 = 16 then subWord t
  else t

/-- `n` iterations of the loop of rule R120: `w` holds the bytes written so far, so `cur` is its length. -/
def expandLoop : (n it : Nat) → (w : List Byte) → List Byte
  | 0, _, w => w
  | n + 1, it, w =>
    let t := scheduleWord w w.length it
    let it' := if w.length % 32 = 0 then it + 1 else it
    expandLoop n it' (w ++ (List.range 4).map fun m => w.getD (w.length - 32 + m) 0 ^^^ t.get m)

/-- `ExpandKey(key)` (R120): 52 iterations from `w[0..32) <- key` and `it <- 1` (R124). -/
def expandKey (key : Key) : ExpandedKey :=
  .tab 240 fun i => (expandLoop 52 1 key.toList).getD i 0

/-- `RK(w, r)`: round key `r` is `w[16r .. 16r+16)` (R122). -/
def roundKey (w : ExpandedKey) (r : Nat) : Block :=
  .tab 16 fun j => w.get (16 * r + j)

/-- `EXPKEY <- ExpandKey(KEY); STATUS.KEY_VALID <- 1` (R123, R174). -/
def State.expandOnEntry (s : State) : State :=
  { s with expkey := expandKey s.key, status := { s.status with keyValid := true } }

/-- `KEYEXP` (R123). -/
def execKeyexp (s : State) : Outcome := .next (s.expandOnEntry.finish .none)

end Sys2Proof.Machine
end

