-- ==== Sys2Proof/Machine/BlockEngine.lean ====
section
/-! DEFINITION. The AES-256 block engine and its commands (spec/42_block_engine.md). Matrix entry (row `r`, column `c`) of a
block is byte `r + 4c` (R130). -/

namespace Sys2Proof.Machine

/-! ### Round functions -/

/-- `SubBytes(s)` (R131). -/
def subBytes (s : Block) : Block := .tab 16 fun j => sbox (s.get j)

/-- `InvSubBytes(s)` (R132). -/
def invSubBytes (s : Block) : Block := .tab 16 fun j => invSbox (s.get j)

/-- `ShiftRows(s)`: `s'[r + 4c] <- s[r + 4((c + r) mod 4)]` (R133). -/
def shiftRows (s : Block) : Block :=
  .tab 16 fun j =>
    let r := j % 4
    let c := j / 4
    s.get (r + 4 * ((c + r) % 4))

/-- `InvShiftRows(s)`: `s'[r + 4c] <- s[r + 4((c - r) mod 4)]` (R134). -/
def invShiftRows (s : Block) : Block :=
  .tab 16 fun j =>
    let r := j % 4
    let c := j / 4
    s.get (r + 4 * ((c + 4 - r) % 4))

/-- Each column replaced by its product with `m` (R135): `s'[4c + i]` is the XOR over `j` of `gmul(m[i][j], s[4c + j])`. -/
def mixWith (m : Matrix4) (s : Block) : Block :=
  .tab 16 fun k =>
    let i := k % 4
    let c := k / 4
    gmul (matrixEntry m i 0) (s.get (4 * c)) ^^^ gmul (matrixEntry m i 1) (s.get (4 * c + 1)) ^^^
      gmul (matrixEntry m i 2) (s.get (4 * c + 2)) ^^^ gmul (matrixEntry m i 3) (s.get (4 * c + 3))

/-- `MixColumns(s)` (R135). -/
def mixColumns (s : Block) : Block := mixWith mds s

/-- `InvMixColumns(s)` (R136). -/
def invMixColumns (s : Block) : Block := mixWith invMds s

/-- `AddRoundKey(s, w, r)` (R137). -/
def addRoundKey (s : Block) (w : ExpandedKey) (r : Nat) : Block := s.xor (roundKey w r)

/-! ### Forward and inverse cipher -/

/-- One full round with round key `r` (R138). -/
def fullRound (w : ExpandedKey) (r : Nat) (s : Block) : Block :=
  addRoundKey (mixColumns (shiftRows (subBytes s))) w r

/-- The full rounds `1` to `n`, in this order (R138). -/
def fullRounds (w : ExpandedKey) : (n : Nat) → Block → Block
  | 0, s => s
  | n + 1, s => fullRound w (n + 1) (fullRounds w n s)

/-- `Cipher(s, w)` (R138): the initial AddRoundKey, 13 full rounds, and a final round that "omits MixColumns". -/
def cipher (s : Block) (w : ExpandedKey) : Block :=
  addRoundKey (shiftRows (subBytes (fullRounds w 13 (addRoundKey s w 0)))) w 14

/-- The mirrored round `r`: "AddRoundKey(r), then InvMixColumns, then InvShiftRows, then InvSubBytes" (R139). -/
def invRound (w : ExpandedKey) (r : Nat) (s : Block) : Block :=
  invSubBytes (invShiftRows (invMixColumns (addRoundKey s w r)))

/-- The mirrored rounds `n` down to `1`, in this order (R139). -/
def invRounds (w : ExpandedKey) : (n : Nat) → Block → Block
  | 0, s => s
  | n + 1, s => invRounds w n (invRound w (n + 1) s)

/-- `InvCipher(s, w)` (R139). -/
def invCipher (s : Block) (w : ExpandedKey) : Block :=
  addRoundKey (invRounds w 13 (invSubBytes (invShiftRows (addRoundKey s w 14)))) w 0

/-! ### Commands -/

/-- `STATE <- b; finish(0)`, the end of the commands that transform `STATE` (R141 to R149, R172). -/
def State.finishBlock (s : State) (b : Block) : State :=
  { s with state := b }.finish .none

/-- `SUBB` (R141). -/
def execSubb (s : State) : Outcome := .next (s.finishBlock (subBytes s.state))

/-- `ISUBB` (R142). -/
def execIsubb (s : State) : Outcome := .next (s.finishBlock (invSubBytes s.state))

/-- `SHROWS` (R143). -/
def execShrows (s : State) : Outcome := .next (s.finishBlock (shiftRows s.state))

/-- `ISHROWS` (R144). -/
def execIshrows (s : State) : Outcome := .next (s.finishBlock (invShiftRows s.state))

/-- `MIXCOL` (R145). -/
def execMixcol (s : State) : Outcome := .next (s.finishBlock (mixColumns s.state))

/-- `IMIXCOL` (R146). -/
def execImixcol (s : State) : Outcome := .next (s.finishBlock (invMixColumns s.state))

/-- `ARK a` (R147): `ERR_ROUND` is checked before `ERR_NOKEY`. -/
def execArk (a : Byte) (s : State) : Outcome :=
  if 14 < a.toNat then .next (s.raiseError .round .none)
  else if s.status.keyValid = false then .next (s.raiseError .noKey .none)
  else .next (s.finishBlock (addRoundKey s.state s.expkey a.toNat))

/-- `ENCBLK` (R148). -/
def execEncblk (s : State) : Outcome :=
  if s.status.keyValid = false then .next (s.raiseError .noKey .none)
  else .next (s.finishBlock (cipher s.state s.expkey))

/-- `DECBLK` (R149). -/
def execDecblk (s : State) : Outcome :=
  if s.status.keyValid = false then .next (s.raiseError .noKey .none)
  else .next (s.finishBlock (invCipher s.state s.expkey))

end Sys2Proof.Machine
end

