-- ==== Sys2Proof/Machine/Keystream.lean ====
section
/-! DEFINITION. Padding, the keystream generator, the stream wrappers and their commands (spec/43_keystream.md). -/

namespace Sys2Proof.Machine

/-! ### Padding -/

/-- `PadCur(p)`: `N` bytes each holding `N`, with `N = 16 - (len(p) mod 16)` (R160). -/
def padCur (p : List Byte) : List Byte :=
  let n := 16 - p.length % 16
  p ++ List.replicate n (BitVec.ofNat 8 n)

/-- `PadOld(p)`: the full chunks, then the final, possibly empty chunk padded with `16 - c` (R162). -/
def padOld (p : List Byte) : List Byte :=
  let k := p.length / 16
  let c := p.length % 16
  p.take (16 * k) ++ ((p.drop (16 * k)).take c ++ List.replicate (16 - c) (BitVec.ofNat 8 (16 - c)))

/-- `UnpadLen(q)` (R161): the unpadded length, none for FAIL. Only the last byte is read (U6). -/
def unpadLen (q : List Byte) : Option Nat :=
  let n := (q.getD (q.length - 1) 0).toNat
  if n < 1 ∨ 16 < n then none
  else if q.length < n then none
  else some (q.length - n)

/-! ### Keystream -/

/-- `keystream_i`: "`keystream_0 = AES_encrypt_block(IV, key)`" and "`keystream_{i+1} = AES_encrypt_block(keystream_i, key)`"
(R163). -/
def keystreamBlock (iv : Block) (w : ExpandedKey) : (i : Nat) → Block
  | 0 => cipher iv w
  | i + 1 => cipher (keystreamBlock iv w i) w

/-- `Keystream(iv, w, n)` (R163). -/
def keystream (iv : Block) (w : ExpandedKey) (n : Nat) : List Block :=
  (List.range n).map (keystreamBlock iv w)

/-- The loop the two wrappers share (R175, R176): `n` times `fb <- Cipher(fb, w)` and the next 16 bytes of `d` XOR `fb`. It
answers the output bytes and the last `fb`. -/
def streamLoop (w : ExpandedKey) : (n : Nat) → (fb : Block) → (d : List Byte) → List Byte × Block
  | 0, fb, _ => ([], fb)
  | n + 1, fb, d =>
    let fb' := cipher fb w
    let rest := streamLoop w n fb' (d.drop 16)
    (List.zipWith (· ^^^ ·) (d.take 16) fb'.toList ++ rest.1, rest.2)

/-! ### Keystream primitives -/

/-- `KSR <- b; STATUS.KS_VALID <- 1` (R40). -/
def State.setKeystream (s : State) (b : Block) : State :=
  { s with ksr := b, status := { s.status with ksValid := true } }

/-- `KSLOAD` (R170): it "draws no IV, even with `AUTO_IV = 1`". -/
def execKsload (s : State) : Outcome := .next ((s.setKeystream s.iv).finish .none)

/-- `KSNEXT` (R171): `ERR_NOKEY` is checked before `ERR_NOKS`. -/
def execKsnext (s : State) : Outcome :=
  if s.status.keyValid = false then .next (s.raiseError .noKey .none)
  else if s.status.ksValid = false then .next (s.raiseError .noKs .none)
  else .next ({ s with ksr := cipher s.ksr s.expkey }.finish .none)

/-- `KSXOR` (R172). -/
def execKsxor (s : State) : Outcome :=
  if s.status.ksValid = false then .next (s.raiseError .noKs .none)
  else .next (s.finishBlock (s.state.xor s.ksr))

/-! ### Stream wrappers -/

/-- `StreamEnc(padfn)` after its pre-check (R175): the IV is `IV` and the key is expanded; `p` is the padded plaintext. -/
def State.encryptStream (s : State) (p : List Byte) : State :=
  let n := p.length / 16
  let out := streamLoop s.expkey n s.iv p
  { (s.writeObuf (s.iv.toList ++ out.1)).setKeystream out.2 with outlen := BitVec.ofNat 32 (16 + 16 * n) }

/-- `StreamEnc(padfn)` (R175). -/
def streamEnc (padfn : List Byte → List Byte) (s : State) : Ending :=
  let n := s.len.toNat
  if s.bufSize.bytes < n then s.failBuf .len
  else
    let t := s.chooseIv.expandOnEntry
    .done (t.encryptStream (padfn (t.ibufBytes n)))

/-- The envelope's IV: `E[0..16)` (R164). -/
def envelopeIv (e : List Byte) : Block := .tab 16 fun j => e.getD j 0

/-- `StreamDec()` after its pre-checks, up to the late check (R176): the key is expanded; `e` is the envelope. It answers the
state and the padded plaintext now in `OBUF[0..16n)`. -/
def State.decryptStream (s : State) (e : List Byte) : State × List Byte :=
  let n := (e.length - 16) / 16
  let out := streamLoop s.expkey n (envelopeIv e) (e.drop 16)
  ((s.writeObuf out.1).setKeystream out.2, out.1)

/-- `StreamDec()` (R176). -/
def streamDec (s : State) : Ending :=
  let n := s.len.toNat
  if s.bufSize.bytes < n then s.failBuf .len
  else if n < 32 ∨ n % 16 ≠ 0 then s.failBuf .envelope
  else
    let t := s.expandOnEntry
    let d := t.decryptStream (t.ibufBytes n)
    match unpadLen d.2 with
    | none => d.1.failBuf .padding
    | some m => .done { d.1 with outlen := BitVec.ofNat 32 m }

/-- `ENC_CUR` (R175). -/
def execEncCur (s : State) : Outcome := .next ((streamEnc padCur s).conclude .none)

/-- `DEC_CUR` (R176). -/
def execDecCur (s : State) : Outcome := .next ((streamDec s).conclude .none)

/-- `ENC_OLD` (R177). -/
def execEncOld (s : State) : Outcome := .next ((streamEnc padOld s).conclude .none)

/-- `DEC_OLD` (R178). -/
def execDecOld (s : State) : Outcome := .next ((streamDec s).conclude .none)

end Sys2Proof.Machine
end

