-- ==== Sys2Proof/Machine/LegacyXor.lean ====
section
/-! DEFINITION. The legacy XOR cipher and the command XORC (spec/44_legacy_xor.md). -/

namespace Sys2Proof.Machine

/-- `XorCipher(k, s)`: byte `i` of the result is `s[i] ⊕ k[i mod len(k)]` (R200). -/
def xorCipher (k s : List Byte) : List Byte :=
  (List.range s.length).map fun i => s.getD i 0 ^^^ k.getD (i % k.length) 0

/-- `XorRun()` (R201). -/
def xorRun (s : State) : Ending :=
  let n := s.len.toNat
  let p := s.pwlen.toNat
  if s.bufSize.bytes < n then s.failBuf .len
  else if p = 0 ∨ Config.pwMax < p then s.failBuf .pwlen
  else .done { s.writeObuf (xorCipher (s.pwBytes p) (s.ibufBytes n)) with outlen := BitVec.ofNat 32 n }

/-- `XORC` (R201). -/
def execXorc (s : State) : Outcome := .next ((xorRun s).conclude .none)

end Sys2Proof.Machine
end

