-- ==== Sys2Proof/Machine/Dispatcher.lean ====
section
/-! DEFINITION. The format-version dispatcher and NOP (spec/45_dispatch.md). -/

namespace Sys2Proof.Machine

/-- `NOP` (R210): `finish(0)` and nothing else. -/
def execNop (s : State) : Outcome := .next (s.finish .none)

/-- `ENCRYPT` (R211): the current scheme, whatever `VERSION` and `LEGACY_ROUTE` hold; `PATH` is 1 on failure too. -/
def execEncrypt (s : State) : Outcome := .next ((streamEnc padCur s).conclude .current)

/-- The two routes of format version 0 (R213). -/
inductive Route where
  | xor
  | aesOld
deriving DecidableEq, Repr

/-- `Route0(f, E)`, none for FAIL (R213, R214). -/
def route0 (f : LegacyRoute) (e : List Byte) : Option Route :=
  match f with
  | .xor => some .xor
  | .aesOld => some .aesOld
  | .shape => if Config.aesCapable e then some .aesOld else some .xor
  | .unset => none

/-- `DECRYPT` for format version 0 (R212). -/
def decryptLegacy (s : State) : State :=
  match route0 s.ctrl.legacyRoute (s.ibufBytes s.len.toNat) with
  | none => (s.failBuf .route).conclude .none
  | some .aesOld => (streamDec s).conclude .legacyAes
  | some .xor => (xorRun s).conclude .legacyXor

/-- `DECRYPT` (R212): `ERR_LEN`, then `ERR_VERSION`, then by version. -/
def execDecrypt (s : State) : Outcome :=
  if s.bufSize.bytes < s.len.toNat then .next ((s.failBuf .len).conclude .none)
  else if signed32 s.version < 0 then .next ((s.failBuf .version).conclude .none)
  else if 1 ≤ signed32 s.version then .next ((streamDec s).conclude .current)
  else .next (decryptLegacy s)

end Sys2Proof.Machine
end

