-- ==== Sys2Proof/Machine/Dispatch.lean ====
section
/-! DEFINITION. One arm per command: a command's meaning runs on the state in which `CMD` already holds the word (R231). -/

namespace Sys2Proof.Machine

def exec (i : Instr) (s : State) : Host.Outcome State Fault Refusal :=
  match i with
  | .nop => Sys2Proof.Machine.execNop s
  | .gmul a b => Sys2Proof.Machine.execGmul a b s
  | .sbox a => Sys2Proof.Machine.execSbox a s
  | .isbox a => Sys2Proof.Machine.execIsbox a s
  | .rcon a => Sys2Proof.Machine.execRcon a s
  | .keyexp => Sys2Proof.Machine.execKeyexp s
  | .encblk => Sys2Proof.Machine.execEncblk s
  | .decblk => Sys2Proof.Machine.execDecblk s
  | .subb => Sys2Proof.Machine.execSubb s
  | .isubb => Sys2Proof.Machine.execIsubb s
  | .shrows => Sys2Proof.Machine.execShrows s
  | .ishrows => Sys2Proof.Machine.execIshrows s
  | .mixcol => Sys2Proof.Machine.execMixcol s
  | .imixcol => Sys2Proof.Machine.execImixcol s
  | .ark a => Sys2Proof.Machine.execArk a s
  | .ksload => Sys2Proof.Machine.execKsload s
  | .ksnext => Sys2Proof.Machine.execKsnext s
  | .ksxor => Sys2Proof.Machine.execKsxor s
  | .encCur => Sys2Proof.Machine.execEncCur s
  | .decCur => Sys2Proof.Machine.execDecCur s
  | .encOld => Sys2Proof.Machine.execEncOld s
  | .decOld => Sys2Proof.Machine.execDecOld s
  | .xorc => Sys2Proof.Machine.execXorc s
  | .encrypt => Sys2Proof.Machine.execEncrypt s
  | .decrypt => Sys2Proof.Machine.execDecrypt s

end Sys2Proof.Machine
end

