-- ==== Sys2Proof/Machine/Bus.lean ====
section
/-! DEFINITION. The host interface: the address map (R52), host reads and writes (R55 to R59), running a command word (R231),
the reset input (R260), and serving one event of the outside. -/

namespace Sys2Proof.Machine

/-- What a row of the address map stands for: a register, or a window of bytes. -/
inductive Target where
  | reg (r : Reg)
  | window (w : Window)
deriving DecidableEq, Repr

/-- A row of the address map: the bytes `base` to `base + size - 1` are `target` (R52). -/
structure MapRow where
  base : Nat
  size : Nat
  target : Target
deriving DecidableEq, Repr

/-- The address map for a buffer size. Reserved offsets, and the decoded but unused buffer bytes, have no row (R52, R56). -/
def addressMap (b : Config.BufSize) : List MapRow :=
  [⟨0x0000, 4, .reg .id⟩,
   ⟨0x0004, 4, .reg .ctrl⟩,
   ⟨0x0008, 4, .reg .status⟩,
   ⟨0x000C, 4, .reg .cmd⟩,
   ⟨0x0010, 4, .reg .version⟩,
   ⟨0x0014, 4, .reg .len⟩,
   ⟨0x0018, 4, .reg .pwlen⟩,
   ⟨0x001C, 4, .reg .outlen⟩,
   ⟨0x0020, 4, .reg .result⟩,
   ⟨0x0040, 32, .window .key⟩,
   ⟨0x0060, 16, .window .iv⟩,
   ⟨0x0070, 16, .window .state⟩,
   ⟨0x0080, 16, .window .ksr⟩,
   ⟨0x0100, 240, .window .expkey⟩,
   ⟨Config.pwBase, Config.pwMax, .window .pw⟩,
   ⟨Config.ibufBase, b.bytes, .window .ibuf⟩,
   ⟨Config.obufBase, b.bytes + 32, .window .obuf⟩]

/-- The first row that holds an offset, with the offset's distance from the row's base. -/
def lookup : List MapRow → Nat → Option (Target × Nat)
  | [], _ => none
  | r :: rs, off =>
    if r.base ≤ off ∧ off < r.base + r.size then some (r.target, off - r.base) else lookup rs off

/-- What the map puts at an offset; none for a reserved or unused one (R52, R56). -/
def State.locate (s : State) (off : Nat) : Option (Target × Nat) :=
  lookup (addressMap s.bufSize) off

/-- `MemRead(off, 4)` at an aligned offset of the window: reserved offsets read as 0 (R56, R58). -/
def State.readWord (s : State) (off : Nat) : Word :=
  match s.locate off with
  | none => 0#32
  | some (.reg r, _) => s.readReg r
  | some (.window w, k) => s.readWindow w k

/-- Running the word that was written to `CMD` (R231): `CMD <- v`, decode, and the command's pseudocode. An illegal word ends
with `ERR_ILLEGAL` and changes nothing but `CMD` and `STATUS` (R84). -/
def runCommand (v : Word) (s : State) : Outcome :=
  let t := s.writeReg .cmd v
  match decode v with
  | .ok i => exec i t
  | .error _ => .next (t.raiseError .illegal .none)

/-- `MemWrite(off, 4, v)` at an aligned offset of the window (R59): reserved offsets ignore it (R56). -/
def writeWord (off : Nat) (v : Word) (s : State) : Outcome :=
  match s.locate off with
  | none => .next s
  | some (.reg .cmd, _) => runCommand v s
  | some (.reg r, _) => .next (s.writeReg r v)
  | some (.window w, k) => .next (s.writeWindow w k v)

/-- Why an access is outside the interface, if it is (R50, R55). -/
def accessFault (off width : Nat) : Option Fault :=
  if Config.windowSize ≤ off then some (.outsideWindow off)
  else if width ≠ 4 then some (.badWidth width)
  else if off % 4 ≠ 0 then some (.misaligned off)
  else none

/-- The word a host read returns; while reset is asserted it is unspecified (R260, U12). -/
def State.busRead (s : State) (off : Nat) : Word :=
  if s.inReset then Config.resetReadData s.readData.length else s.readWord off

/-- Serving one event of the outside (R58, R59, R260): while reset is asserted host accesses have no effect on the engine and no
command runs; when it is released every piece of state takes its reset value. -/
def serve (e : HostEvent) (s : State) : Outcome :=
  match e with
  | .resetLine true => .next { s with inReset := true }
  | .resetLine false => .next (if s.inReset then s.released else s)
  | .read off width =>
    match accessFault off width with
    | some f => .fault f
    | none => .next { s with readData := s.busRead off :: s.readData }
  | .write off width v =>
    match accessFault off width with
    | some f => .fault f
    | none => if s.inReset then .next s else writeWord off v s

/-- One step: the outside's next event is taken off the list and served. With none pending the engine "holds all state and does
nothing" (R242). -/
def takeEvent (s : State) : Outcome :=
  match s.pending with
  | [] => .next s
  | e :: rest => serve e { s with pending := rest }

/-- The host's write of a command word comes next, and reset is not asserted. -/
def State.withCommand (s : State) (v : Word) : State :=
  { s with inReset := false, pending := .write 0x000C 4 v :: s.pending }

end Sys2Proof.Machine
end

