-- ==== Sys2Proof/Machine/Step.lean ====
section
/-! DEFINITION. One step of the machine, and how the host's interface places an instruction for it. -/

namespace Sys2Proof.Machine

/-- One step serves the next event of the outside. -/
def step (s : State) : Host.Outcome State Fault Refusal := takeEvent s

/-- The instruction of `nbits` bits `w` is what the very next step runs: the engine fetches nothing (R23, R65), so that is the
host's write of its word to `CMD`. See notes/assumptions/2.md. -/
def State.withFetchWord (s : State) (nbits w : Nat) : State :=
  s.withCommand (BitVec.ofNat 32 (w % 2 ^ nbits))

end Sys2Proof.Machine
end

