-- ==== Sys2Proof/Machine/Assembler.lean ====
section
/-! DEFINITION. The assembly syntax of host programs and its pseudo-instructions (R90, R91), expanded to the events of the
host. -/

namespace Sys2Proof.Machine

/-- The first offset of a window (R52). -/
def Window.offset : Window → Nat
  | .key => 0x0040
  | .iv => 0x0060
  | .state => 0x0070
  | .ksr => 0x0080
  | .expkey => 0x0100
  | .pw => Config.pwBase
  | .ibuf => Config.ibufBase
  | .obuf => Config.obufBase

/-- The offset of a register (R52). -/
def Reg.offset : Reg → Nat
  | .id => 0x0000
  | .ctrl => 0x0004
  | .status => 0x0008
  | .cmd => 0x000C
  | .version => 0x0010
  | .len => 0x0014
  | .pwlen => 0x0018
  | .outlen => 0x001C
  | .result => 0x0020

/-- How a line names an offset: a number, or a register or window of the map with "`+n`" (R90). -/
inductive OffsetTerm where
  | number (n : Nat)
  | reg (r : Reg) (n : Nat)
  | window (w : Window) (n : Nat)
deriving DecidableEq, Repr

/-- The offset a term stands for: a name "stands for its first offset", and "`WIN+n` means that offset plus `n`" (R90). -/
def OffsetTerm.value : OffsetTerm → Nat
  | .number n => n
  | .reg r n => r.offset + n
  | .window w n => w.offset + n

/-- A line of a host program (R90, R91). -/
inductive SourceLine where
  /-- `MNEMONIC`, `MNEMONIC a`, `MNEMONIC a, b`. -/
  | command (c : SourceCommand)
  /-- `W32 off, v`. -/
  | w32 (off : OffsetTerm) (v : Word)
  /-- `R32 off`. -/
  | r32 (off : OffsetTerm)
  /-- `; ...`. -/
  | comment (text : String)
  /-- `LOADW WIN, bytes`. -/
  | loadw (w : Window) (bytes : List Byte)
  /-- `SETLEN n`. -/
  | setlen (n : Word)
  /-- `SETPWLEN n`. -/
  | setpwlen (n : Word)
  /-- `SETVER v`. -/
  | setver (v : Word)
  /-- `SETCTRL v`. -/
  | setctrl (v : Word)
  /-- `READW WIN, n`. -/
  | readw (w : Window) (n : Nat)
deriving DecidableEq, Repr

/-- A host write of one word. -/
def hostWrite (off : Nat) (v : Word) : HostEvent := .write off 4 v

/-- The word of a command line (R90): `match | zext_32(a) << 8 | zext_32(b) << 16`; none if the line does not assemble. -/
def assembleCommand (c : SourceCommand) : Option Word :=
  if c.wellFormed then
    some (commandWord c.mnemonic (BitVec.ofNat 8 (c.operands.getD 0 0)) (BitVec.ofNat 8 (c.operands.getD 1 0)))
  else none

/-- `word_k`, which packs `bytes[4k..4k+4)` little-endian; a length that is no multiple of 4 is padded with zero bytes (R91). -/
def packedWord (bytes : List Byte) (k : Nat) : Word :=
  wordOf (bytes.getD (4 * k) 0) (bytes.getD (4 * k + 1) 0) (bytes.getD (4 * k + 2) 0) (bytes.getD (4 * k + 3) 0)

/-- The bus operations a line expands to (R90, R91); none if it does not assemble. -/
def expandLine (l : SourceLine) : Option (List HostEvent) :=
  match l with
  | .command c => (assembleCommand c).map fun v => [hostWrite Reg.cmd.offset v]
  | .w32 off v => some [hostWrite off.value v]
  | .r32 off => some [.read off.value 4]
  | .comment _ => some []
  | .loadw w bytes =>
    some ((List.range ((bytes.length + 3) / 4)).map fun k => hostWrite (w.offset + 4 * k) (packedWord bytes k))
  | .setlen n => some [hostWrite Reg.len.offset n]
  | .setpwlen n => some [hostWrite Reg.pwlen.offset n]
  | .setver v => some [hostWrite Reg.version.offset v]
  | .setctrl v => some [hostWrite Reg.ctrl.offset v]
  | .readw w n => some ((List.range ((n + 3) / 4)).map fun k => .read (w.offset + 4 * k) 4)

/-- The bus operations of a host program, in order (R13, R90); none if some line does not assemble. -/
def expandProgram : List SourceLine → Option (List HostEvent)
  | [] => some []
  | l :: ls =>
    match expandLine l, expandProgram ls with
    | some es, some rest => some (es ++ rest)
    | _, _ => none

end Sys2Proof.Machine
end

