-- ==== Sys2Proof/Safety.lean ====
section
/-! DEFINITION. What a safe run is, and the invariants of the engine that claims use. -/

namespace Sys2Proof.Machine

/-- An event of the outside that is inside the interface (R50, R55). -/
def HostEvent.Legal : HostEvent → Prop
  | .read off width => off < Config.windowSize ∧ width = 4 ∧ off % 4 = 0
  | .write off width _ => off < Config.windowSize ∧ width = 4 ∧ off % 4 = 0
  | .resetLine _ => True

/-- A safe state: every event to come is inside the interface, so that no step faults. -/
def State.Safe (s : State) : Prop :=
  ∀ e ∈ s.pending, e.Legal

/-- An offset of a byte of `PW`, `IBUF` or `OBUF` (R52). -/
def bufferOffset (b : Config.BufSize) (off : Nat) : Prop :=
  (Config.pwBase ≤ off ∧ off < Config.pwBase + Config.pwMax) ∨
  (Config.ibufBase ≤ off ∧ off < Config.ibufBase + b.bytes) ∨
  (Config.obufBase ≤ off ∧ off < Config.obufBase + b.bytes + 32)

/-- The memory is in canonical form and lists buffer bytes only. -/
structure State.RamOk (s : State) : Prop where
  wf : Memory.wf s.ram
  inside : ∀ c ∈ s.ram, bufferOffset s.bufSize c.1

/-- "`EXPKEY` holds `ExpandKey(KEY)` for the current `KEY` contents" whenever `KEY_VALID` is 1 (R24, R39). -/
def State.KeyValidOk (s : State) : Prop :=
  s.status.keyValid = true → s.expkey = expandKey s.key

/-- `ERR` is 1 exactly when `ERRCODE` reports a failure (R232). -/
def State.ErrorReportOk (s : State) : Prop :=
  s.status.err = true ↔ s.status.errCode ≠ .ok

/-- "`RESULT[31:8]` is always 0" (R30). -/
def State.ResultOk (s : State) : Prop :=
  s.result.toNat < 256

/-- `OUTLEN` never exceeds the size of `OBUF` (R29, R38). -/
def State.OutlenOk (s : State) : Prop :=
  s.outlen.toNat ≤ s.bufSize.bytes + 32

/-! ### Groups of commands -/

/-- The buffer commands (R173). -/
def bufferCommands : List Mnemonic :=
  [.encCur, .decCur, .encOld, .decOld, .xorc, .encrypt, .decrypt]

/-- The commands that write `STATE` (R33). -/
def stateCommands : List Mnemonic :=
  [.encblk, .decblk, .subb, .isubb, .shrows, .ishrows, .mixcol, .imixcol, .ark, .ksxor]

/-- The commands that run `StreamEnc`, with the `PATH` they report (R175, R177, R211). -/
def RunsStreamEnc (i : Instr) (p : Path) : Prop :=
  (i = .encCur ∧ p = .none) ∨ (i = .encOld ∧ p = .none) ∨ (i = .encrypt ∧ p = .current)

/-- The commands that run `StreamDec` in a state, with the `PATH` they report (R176, R178, R212, R213). -/
def RunsStreamDec (i : Instr) (s : State) (p : Path) : Prop :=
  (i = .decCur ∧ p = .none) ∨ (i = .decOld ∧ p = .none) ∨
  (i = .decrypt ∧ 1 ≤ signed32 s.version ∧ p = .current) ∨
  (i = .decrypt ∧ signed32 s.version = 0 ∧ p = .legacyAes ∧
    (s.ctrl.legacyRoute = .aesOld ∨
      (s.ctrl.legacyRoute = .shape ∧ Config.aesCapable (s.ibufBytes s.len.toNat) = true)))

/-- The commands that run `XorRun` in a state, with the `PATH` they report (R201, R212, R213). -/
def RunsXorRun (i : Instr) (s : State) (p : Path) : Prop :=
  (i = .xorc ∧ p = .none) ∨
  (i = .decrypt ∧ signed32 s.version = 0 ∧ p = .legacyXor ∧
    (s.ctrl.legacyRoute = .xor ∨
      (s.ctrl.legacyRoute = .shape ∧ Config.aesCapable (s.ibufBytes s.len.toNat) = false)))

/-- Commands one after another, as the engine runs them between two host accesses each. -/
def execAll : List Instr → State → Outcome
  | [], s => .next s
  | i :: is, s =>
    match exec i s with
    | .next t => execAll is t
    | .fault f => .fault f
    | .refused r => .refused r

/-- The step commands of the forward cipher, in order (R138): the initial `ARK 0`, 13 full rounds, and a final round without
`MIXCOL`. -/
def cipherSteps : List Instr :=
  [.ark 0] ++
  (List.range 13).flatMap (fun r => [.subb, .shrows, .mixcol, .ark (BitVec.ofNat 8 (r + 1))]) ++
  [.subb, .shrows, .ark 14]

/-- The step commands of the inverse cipher, in order (R139): `ARK 14` and the inverse steps of the last round, the mirrored
rounds 13 down to 1, and the final `ARK 0`. -/
def invCipherSteps : List Instr :=
  [.ark 14, .ishrows, .isubb] ++
  (List.range 13).flatMap (fun r => [.ark (BitVec.ofNat 8 (13 - r)), .imixcol, .ishrows, .isubb]) ++
  [.ark 0]

end Sys2Proof.Machine
end

