-- ==== Sys2Proof/Certificates/Slice0/Obligations.lean ====
section
/-! DEFINITION. The statements about the model, each with the rule of spec/ it comes from. A statement about `step` speaks of
the outside's accesses as the events of `pending`, one a step, which is the model's choice (notes/assumptions/1.md). -/

open Sys2Proof Sys2Proof.Machine

/-! ### Reset and the host interface -/

/-- R261: every register and window with a stated reset value has it right after reset, as the host reads it. -/
def Obligations.ResetValuesAreTheSpecs : Prop :=
  State.reset.readWord 0x0000 = 0xAE250001#32 ∧
  State.reset.readWord 0x0004 = 0x00000007#32 ∧
  State.reset.ctrl = ⟨true, .unset⟩ ∧
  State.reset.readWord 0x0008 = 0x00000000#32 ∧
  State.reset.status = ⟨false, false, false, .none, .ok⟩ ∧
  State.reset.readWord 0x000C = 0x00000000#32 ∧
  State.reset.readWord 0x0010 = 0xFFFFFFFF#32 ∧
  State.reset.readWord 0x0014 = 0#32 ∧
  State.reset.readWord 0x0018 = 0#32 ∧
  State.reset.readWord 0x001C = 0#32 ∧
  State.reset.readWord 0x0020 = 0#32 ∧
  (∀ j, j < 32 → State.reset.key.get j = 0x00#8) ∧
  (∀ j, j < 16 → State.reset.iv.get j = 0x00#8) ∧
  (∀ j, j < 16 → State.reset.state.get j = 0x00#8) ∧
  (∀ j, j < 16 → State.reset.ksr.get j = 0x00#8) ∧
  (∀ j, j < 240 → State.reset.expkey.get j = 0x00#8)

/-- R260: while the reset input is asserted a host access changes nothing in the engine, and when it is released every
register and window with a stated reset value has it. The model's choices: that the unspecified bytes are new draws
(notes/assumptions/4.md), the form of the reset input and what an access returns meanwhile (notes/assumptions/8.md), and
that the release keeps `BUF_SIZE`, the events to come and the words read (notes/assumptions/16.md) and the answers and the
count of the random source (notes/assumptions/17.md). -/
def Obligations.ResetInputHoldsAndReleases : Prop :=
  ∀ (s : State) (rest : List HostEvent),
    (s.pending = .resetLine true :: rest → step s = .next { s with pending := rest, inReset := true }) ∧
    (∀ off v, s.pending = .write off 4 v :: rest → off < 0x4000 → off % 4 = 0 → s.inReset = true →
      step s = .next { s with pending := rest }) ∧
    (∀ off, s.pending = .read off 4 :: rest → off < 0x4000 → off % 4 = 0 → s.inReset = true →
      ∃ d, step s = .next { s with pending := rest, readData := d :: s.readData }) ∧
    (s.pending = .resetLine false :: rest → s.inReset = true →
      ∃ t, step s = .next t ∧
        t = { State.reset with
          bufSize := s.bufSize
          epoch := s.epoch + 1
          rngAnswers := s.rngAnswers
          draws := s.draws
          pending := rest
          readData := s.readData } ∧
        ∀ off, t.byteAt off = Config.powerOnByte (s.epoch + 1) off)

/-- R231, R65: a host write of a word to `CMD` that decodes to a command runs that command on the state in which `CMD` holds the
word, and the event is used up; the host's interface places a word so that this is the very next step
(notes/assumptions/2.md). -/
def Obligations.StepRunsDecodedCommand : Prop :=
  (∀ (s : State) (v : Word) (rest : List HostEvent) (i : Instr),
    s.pending = .write 0x000C 4 v :: rest → s.inReset = false → decode v = .ok i → i.wellFormed = true →
      step s = exec i { s with pending := rest, cmd := v }) ∧
  ∀ (s : State) (nbits w : Nat) (i : Instr), nbits ≤ 32 → decodeTableWord nbits w = some i →
    step (s.withFetchWord nbits w) = exec i { s with inReset := false, cmd := BitVec.ofNat 32 (w % 2 ^ nbits) }

/-- R62, R231: a step serves exactly one event of the outside, whatever command it runs, and a legal host write is served by
storing the word. With no event to serve the engine holds all state (R242); that this is a step at all is the model's choice
(notes/assumptions/1.md). -/
def Obligations.StepServesExactlyOneEvent : Prop :=
  (∀ s : State, s.pending = [] → step s = .next s) ∧
  (∀ (s : State) (off : Nat) (v : Word) (rest : List HostEvent),
    s.pending = .write off 4 v :: rest → off < 0x4000 → off % 4 = 0 → s.inReset = false →
      step s = writeWord off v { s with pending := rest }) ∧
  ∀ (s t : State) (e : HostEvent) (rest : List HostEvent),
    s.pending = e :: rest → step s = .next t → t.pending = rest

/-- R55, R50: an access of another width, at a misaligned offset or outside the window has no step, and nothing else stops the
engine: a host whose accesses are all inside the interface is never stuck. The model's choices: that having no step is a named
fault (notes/assumptions/7.md), and that such an access stops also while reset is asserted, where R260 says only that accesses
have no effect (notes/assumptions/8.md). -/
def Obligations.OnlyIllegalAccessesStop : Prop :=
  (∀ (s : State) (off width : Nat) (v : Word) (rest : List HostEvent),
    (s.pending = .read off width :: rest ∨ s.pending = .write off width v :: rest) →
    (width ≠ 4 ∨ off % 4 ≠ 0 ∨ 0x4000 ≤ off) →
      ∃ f, step s = .fault f) ∧
  ∀ s : State, s.Safe → ∃ t, step s = .next t ∧ t.Safe

/-- R84: a word that no row of the opcode map matches changes `CMD` and `STATUS` and nothing else. -/
def Obligations.IllegalWordChangesOnlyCmdAndStatus : Prop :=
  ∀ (s : State) (v : Word) (rest : List HostEvent),
    s.pending = .write 0x000C 4 v :: rest → s.inReset = false →
    (∀ m : Mnemonic, v &&& m.format.mask ≠ m.matchWord) →
      step s = .next { s with
        pending := rest
        cmd := v
        status := { s.status with err := true, errCode := .illegal, path := .none } }

/-- R58: a read returns the word the map puts at the offset and has no side effect. That the word is recorded in `readData` is
the model's choice (notes/assumptions/10.md). -/
def Obligations.ReadHasNoSideEffect : Prop :=
  ∀ (s : State) (off : Nat) (rest : List HostEvent),
    s.pending = .read off 4 :: rest → off < 0x4000 → off % 4 = 0 → s.inReset = false →
      step s = .next { s with pending := rest, readData := s.readWord off :: s.readData } ∧
      ∀ t, step s = .next t → ∀ off', t.readWord off' = s.readWord off'

/-- R52, R54, R21, R22, R24, R230: the registers stand at their offsets, `ID` reads the same in every state, and `CTRL` and
`STATUS` show their fields at their bits, each route, path and error code with the number its table gives it. -/
def Obligations.RegistersReadAtTheirOffsets : Prop :=
  ∀ s : State,
    s.readWord 0x0000 = 0xAE250001#32 ∧
    (s.readWord 0x0004).getLsbD 0 = s.ctrl.autoIv ∧
    ((s.readWord 0x0004).extractLsb' 1 2 = 0#2 ↔ s.ctrl.legacyRoute = .xor) ∧
    ((s.readWord 0x0004).extractLsb' 1 2 = 1#2 ↔ s.ctrl.legacyRoute = .aesOld) ∧
    ((s.readWord 0x0004).extractLsb' 1 2 = 2#2 ↔ s.ctrl.legacyRoute = .shape) ∧
    ((s.readWord 0x0004).extractLsb' 1 2 = 3#2 ↔ s.ctrl.legacyRoute = .unset) ∧
    (s.readWord 0x0004).extractLsb' 3 29 = 0#29 ∧
    s.readWord 0x000C = s.cmd ∧
    s.readWord 0x0010 = s.version ∧
    s.readWord 0x0014 = s.len ∧
    s.readWord 0x0018 = s.pwlen ∧
    s.readWord 0x001C = s.outlen ∧
    s.readWord 0x0020 = s.result ∧
    (s.readWord 0x0008).getLsbD 0 = s.status.keyValid ∧
    (s.readWord 0x0008).getLsbD 1 = s.status.ksValid ∧
    (s.readWord 0x0008).getLsbD 2 = s.status.err ∧
    (s.readWord 0x0008).getLsbD 3 = false ∧
    ((s.readWord 0x0008).extractLsb' 4 2 = 0#2 ↔ s.status.path = .none) ∧
    ((s.readWord 0x0008).extractLsb' 4 2 = 1#2 ↔ s.status.path = .current) ∧
    ((s.readWord 0x0008).extractLsb' 4 2 = 2#2 ↔ s.status.path = .legacyAes) ∧
    ((s.readWord 0x0008).extractLsb' 4 2 = 3#2 ↔ s.status.path = .legacyXor) ∧
    (s.readWord 0x0008).extractLsb' 6 2 = 0#2 ∧
    ((s.readWord 0x0008).extractLsb' 8 8 = 0x00#8 ↔ s.status.errCode = .ok) ∧
    ((s.readWord 0x0008).extractLsb' 8 8 = 0x01#8 ↔ s.status.errCode = .illegal) ∧
    ((s.readWord 0x0008).extractLsb' 8 8 = 0x02#8 ↔ s.status.errCode = .noKey) ∧
    ((s.readWord 0x0008).extractLsb' 8 8 = 0x03#8 ↔ s.status.errCode = .noKs) ∧
    ((s.readWord 0x0008).extractLsb' 8 8 = 0x04#8 ↔ s.status.errCode = .round) ∧
    ((s.readWord 0x0008).extractLsb' 8 8 = 0x05#8 ↔ s.status.errCode = .len) ∧
    ((s.readWord 0x0008).extractLsb' 8 8 = 0x06#8 ↔ s.status.errCode = .envelope) ∧
    ((s.readWord 0x0008).extractLsb' 8 8 = 0x07#8 ↔ s.status.errCode = .padding) ∧
    ((s.readWord 0x0008).extractLsb' 8 8 = 0x08#8 ↔ s.status.errCode = .pwlen) ∧
    ((s.readWord 0x0008).extractLsb' 8 8 = 0x09#8 ↔ s.status.errCode = .version) ∧
    ((s.readWord 0x0008).extractLsb' 8 8 = 0x0A#8 ↔ s.status.errCode = .route) ∧
    (s.readWord 0x0008).extractLsb' 16 16 = 0#16

/-- R22: a write of `CTRL` stores bits 2:0 and ignores the rest, and the two fields mean what the table says. -/
def Obligations.CtrlStoresItsThreeBits : Prop :=
  ∀ (s : State) (v : Word),
    ∃ t, writeWord 0x0004 v s = .next t ∧ t = { s with ctrl := t.ctrl } ∧
      t.readWord 0x0004 = v &&& 0x00000007#32 ∧
      t.ctrl.autoIv = v.getLsbD 0 ∧
      (t.ctrl.legacyRoute = .xor ↔ v.extractLsb' 1 2 = 0#2) ∧
      (t.ctrl.legacyRoute = .aesOld ↔ v.extractLsb' 1 2 = 1#2) ∧
      (t.ctrl.legacyRoute = .shape ↔ v.extractLsb' 1 2 = 2#2) ∧
      (t.ctrl.legacyRoute = .unset ↔ v.extractLsb' 1 2 = 3#2)

/-- R53, R52: byte `j` of the word at byte `k` of a window is byte `k + j` of the window, for every window. -/
def Obligations.WindowsReadLittleEndian : Prop :=
  ∀ (s : State) (k j : Nat), k % 4 = 0 → j < 4 →
    (k < 32 → byteOf (s.readWord (0x0040 + k)) j = s.key.get (k + j)) ∧
    (k < 16 → byteOf (s.readWord (0x0060 + k)) j = s.iv.get (k + j)) ∧
    (k < 16 → byteOf (s.readWord (0x0070 + k)) j = s.state.get (k + j)) ∧
    (k < 16 → byteOf (s.readWord (0x0080 + k)) j = s.ksr.get (k + j)) ∧
    (k < 240 → byteOf (s.readWord (0x0100 + k)) j = s.expkey.get (k + j)) ∧
    (k < 256 → byteOf (s.readWord (0x0200 + k)) j = s.byteAt (0x0200 + k + j)) ∧
    (k < s.bufSize.bytes → byteOf (s.readWord (0x1000 + k)) j = s.byteAt (0x1000 + k + j)) ∧
    (k < s.bufSize.bytes + 32 → byteOf (s.readWord (0x2000 + k)) j = s.byteAt (0x2000 + k + j))

/-- R56: reserved offsets, and the decoded but unused bytes of the buffers, read as 0 and ignore writes, with no error and no
side effect. That the word read is recorded in `readData` is the model's choice (notes/assumptions/10.md). -/
def Obligations.ReservedOffsetsReadZeroIgnoreWrites : Prop :=
  ∀ (s : State) (off : Nat) (v : Word),
    ((0x0024 ≤ off ∧ off ≤ 0x003F) ∨ (0x0090 ≤ off ∧ off ≤ 0x00FF) ∨ (0x01F0 ≤ off ∧ off ≤ 0x01FF) ∨
      (0x0300 ≤ off ∧ off ≤ 0x0FFF) ∨ (0x1000 + s.bufSize.bytes ≤ off ∧ off ≤ 0x1FFF) ∨
      (0x2000 + s.bufSize.bytes + 32 ≤ off ∧ off ≤ 0x301F) ∨ (0x3020 ≤ off ∧ off ≤ 0x3FFF)) →
      s.readWord off = 0#32 ∧ writeWord off v s = .next s ∧
      ∀ rest, s.pending = .read off 4 :: rest → off % 4 = 0 → s.inReset = false →
        step s = .next { s with pending := rest, readData := 0#32 :: s.readData }

/-- R57: a write to a read-only register or window is ignored and raises no error. -/
def Obligations.ReadOnlyOffsetsIgnoreWrites : Prop :=
  ∀ (s : State) (off : Nat) (v : Word),
    (off = 0x0000 ∨ off = 0x0008 ∨ off = 0x001C ∨ off = 0x0020 ∨ (0x0080 ≤ off ∧ off ≤ 0x008F) ∨
      (0x0100 ≤ off ∧ off ≤ 0x01EF) ∨ (0x2000 ≤ off ∧ off < 0x2000 + s.bufSize.bytes + 32)) →
      writeWord off v s = .next s

/-- R59, R39: a write to a word of `KEY` stores its four bytes and clears `KEY_VALID`, and changes nothing else: `EXPKEY` keeps
the old expansion. -/
def Obligations.KeyWriteClearsKeyValid : Prop :=
  ∀ (s : State) (k : Nat) (v : Word), k % 4 = 0 → k < 32 →
    ∃ t, writeWord (0x0040 + k) v s = .next t ∧
      t = { s with key := t.key, status := { s.status with keyValid := false } } ∧
      (∀ j, j < 4 → t.key.get (k + j) = v.extractLsb' (8 * j) 8) ∧
      ∀ j, j < 32 → ¬ (k ≤ j ∧ j < k + 4) → t.key.get j = s.key.get j

/-- R59: a write to another writable register or window stores the word there and does nothing else. -/
def Obligations.OtherWritesOnlyStore : Prop :=
  ∀ (s : State) (v : Word),
    writeWord 0x0010 v s = .next { s with version := v } ∧
    writeWord 0x0014 v s = .next { s with len := v } ∧
    writeWord 0x0018 v s = .next { s with pwlen := v } ∧
    (∀ k, k % 4 = 0 → k < 16 → ∃ t, writeWord (0x0060 + k) v s = .next t ∧ t = { s with iv := t.iv } ∧
      ∀ j, j < 16 → t.iv.get j = if k ≤ j ∧ j < k + 4 then byteOf v (j - k) else s.iv.get j) ∧
    (∀ k, k % 4 = 0 → k < 16 → ∃ t, writeWord (0x0070 + k) v s = .next t ∧ t = { s with state := t.state } ∧
      ∀ j, j < 16 → t.state.get j = if k ≤ j ∧ j < k + 4 then byteOf v (j - k) else s.state.get j) ∧
    (∀ off, off % 4 = 0 →
      ((0x0200 ≤ off ∧ off < 0x0300) ∨ (0x1000 ≤ off ∧ off < 0x1000 + s.bufSize.bytes)) →
      ∃ t, writeWord off v s = .next t ∧ t = { s with ram := t.ram } ∧
        ∀ a, t.byteAt a = if off ≤ a ∧ a < off + 4 then byteOf v (a - off) else s.byteAt a)

/-- R61: what the host writes to a writable place other than `CTRL` and `CMD`, it reads back there. -/
def Obligations.ReadAfterWriteReturnsTheWord : Prop :=
  ∀ (s : State) (off : Nat) (v : Word), off % 4 = 0 →
    ((0x0010 ≤ off ∧ off < 0x001C) ∨ (0x0040 ≤ off ∧ off < 0x0080) ∨ (0x0200 ≤ off ∧ off < 0x0300) ∨
      (0x1000 ≤ off ∧ off < 0x1000 + s.bufSize.bytes)) →
      ∃ t, writeWord off v s = .next t ∧ t.readWord off = v

/-! ### Invariants -/

/-- R261, R24, R29, R30, R232: the state after reset meets every invariant the steps keep. That a memory is in canonical form
when its offsets rise strictly, the first half of `RamOk`, is the model's choice (notes/assumptions/12.md). -/
def Obligations.ResetMeetsTheInvariants : Prop :=
  State.reset.RamOk ∧ State.reset.KeyValidOk ∧ State.reset.ErrorReportOk ∧ State.reset.ResultOk ∧ State.reset.OutlenOk

/-- Every step keeps the memory in canonical form and listing bytes of `PW`, `IBUF` and `OBUF` only, so that no command and no
host write stores outside its window (R38, R51). The canonical form, strictly rising offsets, is the model's choice
(notes/assumptions/12.md); the rules give the half about the buffer bytes. -/
def Obligations.StepKeepsMemoryCanonical : Prop :=
  ∀ s t : State, s.RamOk → step s = .next t → t.RamOk

/-- R24, R39: in every state a step reaches from one where it holds, `KEY_VALID` = 1 means that `EXPKEY` holds `ExpandKey(KEY)`
for the current `KEY`, so that a stale expanded key is never used. -/
def Obligations.StepKeepsKeyValidMeansExpanded : Prop :=
  ∀ s t : State, s.KeyValidOk → step s = .next t → t.KeyValidOk

/-- R232, R30, R29: every step keeps `ERR` agreeing with `ERRCODE`, `RESULT` a byte, and `OUTLEN` within `OBUF`. -/
def Obligations.StepKeepsReportsInRange : Prop :=
  ∀ s t : State, s.ErrorReportOk → s.ResultOk → s.OutlenOk → step s = .next t →
    t.ErrorReportOk ∧ t.ResultOk ∧ t.OutlenOk

/-- R39, R40: the only events that clear `KEY_VALID` are a `KEY` write and the release of reset, and only that release clears
`KS_VALID`; the only event that sets either is a `CMD` write, after which `EXPKEY` is the expansion of `KEY`. The rules say
"by reset"; that the flags fall at the release (R260), not at the assertion, and that a release without an assertion clears
nothing, is the model's choice (notes/assumptions/8.md). -/
def Obligations.ValidityFlagsChangeOnlyAsSaid : Prop :=
  ∀ (s t : State) (e : HostEvent) (rest : List HostEvent), s.pending = e :: rest → step s = .next t →
    (s.status.keyValid = true → t.status.keyValid = false →
      (e = .resetLine false ∧ s.inReset = true) ∨ ∃ off v, e = .write off 4 v ∧ 0x0040 ≤ off ∧ off < 0x0060) ∧
    (s.status.ksValid = true → t.status.ksValid = false → e = .resetLine false ∧ s.inReset = true) ∧
    (s.status.keyValid = false → t.status.keyValid = true →
      (∃ v, e = .write 0x000C 4 v) ∧ t.expkey = expandKey t.key) ∧
    (s.status.ksValid = false → t.status.ksValid = true → ∃ v, e = .write 0x000C 4 v)

/-! ### Encoding -/

/-- R80 to R84: decoding the word of a well-formed command gives the command back, with every operand byte. -/
def Obligations.DecodeOfEncodeIsTheCommand : Prop :=
  ∀ i : Instr, i.wellFormed = true → decode (encode i) = .ok i

/-- R86: a word that decodes to a command is the word of that command, so every legal word has one meaning. -/
def Obligations.EncodeOfDecodeIsTheWord : Prop :=
  ∀ (v : Word) (i : Instr), decode v = .ok i → encode i = v ∧ i.wellFormed = true

/-- R83: "A word is command `M` when `(w AND mask_M) = match_M`", for every word and every row. -/
def Obligations.DecodeFollowsTheMasks : Prop :=
  ∀ (v : Word) (m : Mnemonic), (∃ i, decode v = .ok i ∧ i.mnemonic = m) ↔ v &&& m.format.mask = m.matchWord

/-- A word written out for every row of the opcode map (R83), some from the vectors of spec/95_test_vectors.md, decodes to its
command, and illegal ones to none. The names of the decoder's errors are the model's choice (notes/assumptions/19.md). -/
def Obligations.KnownWordsDecode : Prop :=
  decode 0x00000000#32 = .ok .nop ∧
  decode 0x00835701#32 = .ok (.gmul 0x57#8 0x83#8) ∧
  decode 0x00005302#32 = .ok (.sbox 0x53#8) ∧
  decode 0x0000ED03#32 = .ok (.isbox 0xED#8) ∧
  decode 0x00000104#32 = .ok (.rcon 0x01#8) ∧
  decode 0x00000010#32 = .ok .keyexp ∧
  decode 0x00000011#32 = .ok .encblk ∧
  decode 0x00000012#32 = .ok .decblk ∧
  decode 0x00000018#32 = .ok .subb ∧
  decode 0x00000019#32 = .ok .isubb ∧
  decode 0x0000001A#32 = .ok .shrows ∧
  decode 0x0000001B#32 = .ok .ishrows ∧
  decode 0x0000001C#32 = .ok .mixcol ∧
  decode 0x0000001D#32 = .ok .imixcol ∧
  decode 0x00000F1E#32 = .ok (.ark 0x0F#8) ∧
  decode 0x00000020#32 = .ok .ksload ∧
  decode 0x00000021#32 = .ok .ksnext ∧
  decode 0x00000022#32 = .ok .ksxor ∧
  decode 0x00000030#32 = .ok .encCur ∧
  decode 0x00000031#32 = .ok .decCur ∧
  decode 0x00000032#32 = .ok .encOld ∧
  decode 0x00000033#32 = .ok .decOld ∧
  decode 0x00000034#32 = .ok .xorc ∧
  decode 0x00000038#32 = .ok .encrypt ∧
  decode 0x00000039#32 = .ok .decrypt ∧
  decode 0x01835701#32 = .error (.reservedField 0x01#8) ∧
  decode 0x00015302#32 = .error (.unusedOperandB 0x01#8) ∧
  decode 0x00000100#32 = .error (.unusedOperandA 0x01#8) ∧
  decode 0x00000005#32 = .error (.unassignedOpcode 0x05#8)

/-- R90: a command line assembles exactly when it is well formed, and then to the word of the command it
names. That a line which does not assemble expands to `none` is the model's choice (notes/assumptions/19.md). -/
def Obligations.CommandLinesAssembleToTheirWords : Prop :=
  (∀ i : Instr, expandLine (.command i.source) = some [.write 0x000C 4 (encode i)]) ∧
  (∀ c : SourceCommand, c.wellFormed = true → ∃ i : Instr, i.source = c) ∧
  (∀ c : SourceCommand, c.wellFormed = false → expandLine (.command c) = none)

/-- R91: "Expanding the pseudo-instructions never writes `CMD`, so none of them starts a command", and every access they expand
to is an aligned access of one word. -/
def Obligations.PseudoInstructionsStartNoCommand : Prop :=
  ∀ (l : SourceLine) (es : List HostEvent),
    (∀ c, l ≠ .command c) → (∀ off v, l ≠ .w32 off v) → (∀ off, l ≠ .r32 off) →
    expandLine l = some es →
      ∀ e ∈ es, (∀ width v, e ≠ .write 0x000C width v) ∧ ∃ off, off % 4 = 0 ∧ (e = .read off 4 ∨ ∃ v, e = .write off 4 v)

/-! ### Field and tables -/

/-- R101: the laws of `gmul`. -/
def Obligations.GmulFieldLaws : Prop :=
  (∀ a : Byte, gmul a 0 = 0 ∧ gmul 0 a = 0) ∧
  (∀ a : Byte, gmul a 1 = a ∧ gmul 1 a = a) ∧
  (∀ a b : Byte, gmul a b = gmul b a) ∧
  (∀ a b c : Byte, gmul a (gmul b c) = gmul (gmul a b) c) ∧
  (∀ a b c : Byte, gmul a (b ^^^ c) = gmul a b ^^^ gmul a c) ∧
  (∀ a : Byte, gmul a 2 = (a <<< 1) ^^^ (if a.getLsbD 7 then 0x1B#8 else 0x00#8)) ∧
  (∀ a : Byte, a ≠ 0 → ∃ x, gmul a x = 1 ∧ ∀ y, gmul a y = 1 → y = x)

/-- R104, R107: the two S-boxes undo each other, and `Sbox` is the affine map of the field inverse, with no fixed point. -/
def Obligations.SboxTablesAreTheAffineInverse : Prop :=
  (∀ x : Byte, invSbox (sbox x) = x ∧ sbox (invSbox x) = x) ∧
  (∀ x y : Byte, (x = 0 ∧ y = 0 ∨ gmul x y = 1) →
    sbox x = y ^^^ y.rotateLeft 1 ^^^ y.rotateLeft 2 ^^^ y.rotateLeft 3 ^^^ y.rotateLeft 4 ^^^ 0x63#8) ∧
  (∀ x : Byte, sbox x ≠ x ∧ sbox x ≠ x ^^^ 0xFF#8)

/-- R105: `Rcon[0]` = 0x8d, `Rcon[i]` = 2^(i-1) from `i` = 1 on, and the period is 51. -/
def Obligations.RconIsThePowersOfTwo : Prop :=
  rcon 0x00#8 = 0x8D#8 ∧ rcon 0x01#8 = 0x01#8 ∧ rcon 51#8 = 0x8D#8 ∧
  (∀ i, 1 ≤ i → i < 255 → rcon (BitVec.ofNat 8 (i + 1)) = gmul 2 (rcon (BitVec.ofNat 8 i))) ∧
  (∀ i, 52 ≤ i → i < 256 → rcon (BitVec.ofNat 8 i) = rcon (BitVec.ofNat 8 (i - 51)))

/-- R110 to R113: the table commands complete in every state and write `RESULT` and the error report, nothing else. -/
def Obligations.TableCommandsWriteOnlyResult : Prop :=
  ∀ (a b : Byte) (s : State),
    exec (.gmul a b) s = .next { s with
      result := (gmul a b).setWidth 32, status := { s.status with err := false, errCode := .ok, path := .none } } ∧
    exec (.sbox a) s = .next { s with
      result := (sbox a).setWidth 32, status := { s.status with err := false, errCode := .ok, path := .none } } ∧
    exec (.isbox a) s = .next { s with
      result := (invSbox a).setWidth 32, status := { s.status with err := false, errCode := .ok, path := .none } } ∧
    exec (.rcon a) s = .next { s with
      result := (rcon a).setWidth 32, status := { s.status with err := false, errCode := .ok, path := .none } }

/-! ### Key schedule -/

/-- R120, R121, R122: the first 32 bytes of the expanded key are the key, and each later word is the word 32 positions back XOR
the previous word, which goes through the core every 32 bytes (with round counter `cur / 32`, R124) and through the S-box
half-way between. Round keys 0 and 1 are the two halves of the key. -/
def Obligations.ExpandedKeyRecurrence : Prop :=
  ∀ key : Key,
    (∀ j, j < 16 → (roundKey (expandKey key) 0).get j = key.get j) ∧
    (∀ j, j < 16 → (roundKey (expandKey key) 1).get j = key.get (16 + j)) ∧
    (∀ j, j < 32 → (expandKey key).get j = key.get j) ∧
    ∀ cur m, 32 ≤ cur → cur < 240 → cur % 4 = 0 → m < 4 →
      (expandKey key).get (cur + m) = (expandKey key).get (cur - 32 + m) ^^^
        (if cur % 32 = 0 then
          if m = 0 then sbox ((expandKey key).get (cur - 3)) ^^^ rcon (BitVec.ofNat 8 (cur / 32))
          else sbox ((expandKey key).get (cur - 4 + (m + 1) % 4))
        else if cur % 32 = 16 then sbox ((expandKey key).get (cur - 4 + m))
        else (expandKey key).get (cur - 4 + m))

/-- R123: `KEYEXP` completes for every key, writes `EXPKEY`, sets `KEY_VALID`, clears the error report, and changes nothing
else. -/
def Obligations.KeyexpExpandsTheKey : Prop :=
  ∀ s : State, exec .keyexp s = .next { s with
    expkey := expandKey s.key
    status := { s.status with keyValid := true, err := false, errCode := .ok, path := .none } }

/-! ### Block engine -/

/-- R131, R132, R137: these steps work lane by lane, and `AddRoundKey` "is its own inverse". -/
def Obligations.LanewiseRoundSteps : Prop :=
  ∀ (b : Block) (w : ExpandedKey) (r j : Nat), j < 16 →
    (subBytes b).get j = sbox (b.get j) ∧
    (invSubBytes b).get j = invSbox (b.get j) ∧
    (addRoundKey b w r).get j = b.get j ^^^ w.get (16 * r + j) ∧
    addRoundKey (addRoundKey b w r) w r = b

/-- R133, R134: the two row shifts as permutations of the block's bytes, and that the second undoes the first. -/
def Obligations.RowShiftsArePermutations : Prop :=
  ∀ b : Block,
    (shiftRows b).toList = [b.get 0, b.get 5, b.get 10, b.get 15, b.get 4, b.get 9, b.get 14, b.get 3,
      b.get 8, b.get 13, b.get 2, b.get 7, b.get 12, b.get 1, b.get 6, b.get 11] ∧
    (invShiftRows b).toList = [b.get 0, b.get 13, b.get 10, b.get 7, b.get 4, b.get 1, b.get 14, b.get 11,
      b.get 8, b.get 5, b.get 2, b.get 15, b.get 12, b.get 9, b.get 6, b.get 3] ∧
    invShiftRows (shiftRows b) = b

/-- R135, R136: the column mixes written out for one column, and that the second undoes the first. -/
def Obligations.ColumnMixesByCoefficient : Prop :=
  (∀ (b : Block) (c : Nat), c < 4 →
    (mixColumns b).get (4 * c) = gmul 2 (b.get (4 * c)) ^^^ gmul 3 (b.get (4 * c + 1)) ^^^ b.get (4 * c + 2) ^^^
      b.get (4 * c + 3) ∧
    (mixColumns b).get (4 * c + 1) = b.get (4 * c) ^^^ gmul 2 (b.get (4 * c + 1)) ^^^ gmul 3 (b.get (4 * c + 2)) ^^^
      b.get (4 * c + 3) ∧
    (mixColumns b).get (4 * c + 2) = b.get (4 * c) ^^^ b.get (4 * c + 1) ^^^ gmul 2 (b.get (4 * c + 2)) ^^^
      gmul 3 (b.get (4 * c + 3)) ∧
    (mixColumns b).get (4 * c + 3) = gmul 3 (b.get (4 * c)) ^^^ b.get (4 * c + 1) ^^^ b.get (4 * c + 2) ^^^
      gmul 2 (b.get (4 * c + 3)) ∧
    (invMixColumns b).get (4 * c) = gmul 14 (b.get (4 * c)) ^^^ gmul 11 (b.get (4 * c + 1)) ^^^
      gmul 13 (b.get (4 * c + 2)) ^^^ gmul 9 (b.get (4 * c + 3)) ∧
    (invMixColumns b).get (4 * c + 1) = gmul 9 (b.get (4 * c)) ^^^ gmul 14 (b.get (4 * c + 1)) ^^^
      gmul 11 (b.get (4 * c + 2)) ^^^ gmul 13 (b.get (4 * c + 3)) ∧
    (invMixColumns b).get (4 * c + 2) = gmul 13 (b.get (4 * c)) ^^^ gmul 9 (b.get (4 * c + 1)) ^^^
      gmul 14 (b.get (4 * c + 2)) ^^^ gmul 11 (b.get (4 * c + 3)) ∧
    (invMixColumns b).get (4 * c + 3) = gmul 11 (b.get (4 * c)) ^^^ gmul 13 (b.get (4 * c + 1)) ^^^
      gmul 9 (b.get (4 * c + 2)) ^^^ gmul 14 (b.get (4 * c + 3))) ∧
  ∀ b : Block, invMixColumns (mixColumns b) = b

/-- R140: "Decrypt(Encrypt(b,k),k) == b for all 16-byte b and 32-byte k — this is the central correctness property". -/
def Obligations.InverseCipherUndoesCipher : Prop :=
  ∀ (b : Block) (k : Key), invCipher (cipher b (expandKey k)) (expandKey k) = b

/-- R141 to R146: the six round-step commands complete in every state, need no key, and change `STATE` and the error report
only. -/
def Obligations.RoundStepCommandsTransformState : Prop :=
  ∀ s : State,
    exec .subb s = .next { s with
      state := subBytes s.state, status := { s.status with err := false, errCode := .ok, path := .none } } ∧
    exec .isubb s = .next { s with
      state := invSubBytes s.state, status := { s.status with err := false, errCode := .ok, path := .none } } ∧
    exec .shrows s = .next { s with
      state := shiftRows s.state, status := { s.status with err := false, errCode := .ok, path := .none } } ∧
    exec .ishrows s = .next { s with
      state := invShiftRows s.state, status := { s.status with err := false, errCode := .ok, path := .none } } ∧
    exec .mixcol s = .next { s with
      state := mixColumns s.state, status := { s.status with err := false, errCode := .ok, path := .none } } ∧
    exec .imixcol s = .next { s with
      state := invMixColumns s.state, status := { s.status with err := false, errCode := .ok, path := .none } }

/-- R147: `ARK` completes for a round 0 to 14 with a valid key; a round above 14 is reported before a missing key; a failing
`ARK` leaves `STATE` unchanged. -/
def Obligations.ArkAddsTheRoundKey : Prop :=
  ∀ (a : Byte) (s : State),
    (a.toNat ≤ 14 → s.status.keyValid = true → exec (.ark a) s = .next { s with
      state := addRoundKey s.state s.expkey a.toNat
      status := { s.status with err := false, errCode := .ok, path := .none } }) ∧
    (14 < a.toNat → exec (.ark a) s = .next { s with
      status := { s.status with err := true, errCode := .round, path := .none } }) ∧
    (a.toNat ≤ 14 → s.status.keyValid = false → exec (.ark a) s = .next { s with
      status := { s.status with err := true, errCode := .noKey, path := .none } })

/-- R148, R149, R138, R139: with a valid key `ENCBLK` and `DECBLK` complete for every block, and leave the state that the step
commands of their 14 rounds leave, run one after another; without one they report `ERR_NOKEY` and leave `STATE` unchanged. -/
def Obligations.BlockCommandsCipherState : Prop :=
  ∀ s : State,
    (s.status.keyValid = true →
      exec .encblk s = .next { s with
        state := cipher s.state s.expkey, status := { s.status with err := false, errCode := .ok, path := .none } } ∧
      exec .decblk s = .next { s with
        state := invCipher s.state s.expkey, status := { s.status with err := false, errCode := .ok, path := .none } } ∧
      exec .encblk s = execAll cipherSteps s ∧ exec .decblk s = execAll invCipherSteps s) ∧
    (s.status.keyValid = false → ∀ i : Instr, i = .encblk ∨ i = .decblk →
      exec i s = .next { s with status := { s.status with err := true, errCode := .noKey, path := .none } })

/-- R149: "`ENCBLK` then `DECBLK` restores `STATE`", run as commands from any state with a valid key. -/
def Obligations.EncblkThenDecblkRestoresState : Prop :=
  ∀ s : State, s.status.keyValid = true →
    execAll [.encblk, .decblk] s = .next { s with
      status := { s.status with err := false, errCode := .ok, path := .none } }

/-! ### Padding and keystream -/

/-- R160, R161: the pad bytes, the padded length, that "`unpad(pad(b)) == b`", and that unpadding reads only the last byte, which
must be in 1..16. -/
def Obligations.UnpaddingUndoesPadding : Prop :=
  (∀ p : List Byte,
    (padCur p).drop p.length = List.replicate (16 - p.length % 16) (BitVec.ofNat 8 (16 - p.length % 16)) ∧
    (padCur p).length % 16 = 0 ∧ p.length < (padCur p).length ∧ (padCur p).take p.length = p ∧
    unpadLen (padCur p) = some p.length) ∧
  ∀ (q : List Byte) (n : Byte), 16 ≤ q.length → q.length % 16 = 0 → q.getLast? = some n →
    (1 ≤ n.toNat ∧ n.toNat ≤ 16 → unpadLen q = some (q.length - n.toNat)) ∧
    (n.toNat < 1 ∨ 16 < n.toNat → unpadLen q = none)

/-- R170 to R172: the keystream primitives, each with its errors in order; a failure changes the report only. -/
def Obligations.KeystreamPrimitives : Prop :=
  ∀ s : State,
    exec .ksload s = .next { s with
      ksr := s.iv
      status := { s.status with ksValid := true, err := false, errCode := .ok, path := .none } } ∧
    (s.status.keyValid = true → s.status.ksValid = true → exec .ksnext s = .next { s with
      ksr := cipher s.ksr s.expkey, status := { s.status with err := false, errCode := .ok, path := .none } }) ∧
    (s.status.keyValid = false → exec .ksnext s = .next { s with
      status := { s.status with err := true, errCode := .noKey, path := .none } }) ∧
    (s.status.keyValid = true → s.status.ksValid = false → exec .ksnext s = .next { s with
      status := { s.status with err := true, errCode := .noKs, path := .none } }) ∧
    (s.status.ksValid = true → exec .ksxor s = .next { s with
      state := .tab 16 fun j => s.state.get j ^^^ s.ksr.get j
      status := { s.status with err := false, errCode := .ok, path := .none } }) ∧
    (s.status.ksValid = false → exec .ksxor s = .next { s with
      status := { s.status with err := true, errCode := .noKs, path := .none } })

/-- R171: "after `KSLOAD`, the `i`-th `KSNEXT` (counting from 1) leaves `KSR` = `keystream_{i-1}`". -/
def Obligations.KsnextWalksTheKeystream : Prop :=
  ∀ (s : State) (n : Nat), s.status.keyValid = true →
    execAll (.ksload :: List.replicate (n + 1) .ksnext) s = .next { s with
      ksr := keystreamBlock s.iv s.expkey n
      status := { s.status with ksValid := true, err := false, errCode := .ok, path := .none } }

/-! ### Stream wrappers -/

/-- R175, R177, R211, R166, R160: an encrypt command with `LEN` ≤ `BUF_SIZE` completes; it takes the drawn or the written IV and
writes it, then the input and its padding XOR the keystream, to `OBUF`. Where the drawn IV comes from (`nextDraw`) is the
model's choice (notes/assumptions/5.md). -/
def Obligations.EncryptWritesTheEnvelope : Prop :=
  ∀ (i : Instr) (p : Path) (s : State), RunsStreamEnc i p → s.len.toNat ≤ s.bufSize.bytes →
    ∃ (t : State) (iv : Block) (w : ExpandedKey),
      exec i s = .next t ∧
      iv = (if s.ctrl.autoIv then s.nextDraw else s.iv) ∧ w = expandKey s.key ∧
      t.iv = iv ∧ t.expkey = w ∧ t.ksr = keystreamBlock iv w (s.len.toNat / 16) ∧
      t.status = ⟨true, true, false, p, .ok⟩ ∧
      t.outlen.toNat = 16 + 16 * (s.len.toNat / 16 + 1) ∧
      (∀ j, j < 16 → t.byteAt (0x2000 + j) = iv.get j) ∧
      (∀ k, k < s.len.toNat →
        t.byteAt (0x2010 + k) = s.byteAt (0x1000 + k) ^^^ (keystreamBlock iv w (k / 16)).get (k % 16)) ∧
      (∀ k, s.len.toNat ≤ k → k < 16 * (s.len.toNat / 16 + 1) →
        t.byteAt (0x2010 + k) =
          BitVec.ofNat 8 (16 - s.len.toNat % 16) ^^^ (keystreamBlock iv w (k / 16)).get (k % 16))

/-- R175, R166, R173: what an encrypt command leaves unchanged: every register and window but those R175 names, every byte of
memory outside the envelope, and the random source when `AUTO_IV` = 0; with `AUTO_IV` = 1 exactly one draw is used up. That the
source is a list of answers and a count is the model's choice (notes/assumptions/5.md). -/
def Obligations.EncryptFrame : Prop :=
  ∀ (i : Instr) (p : Path) (s t : State), RunsStreamEnc i p → s.len.toNat ≤ s.bufSize.bytes → exec i s = .next t →
    t = { s with
      status := t.status, outlen := t.outlen, iv := t.iv, ksr := t.ksr, expkey := t.expkey, ram := t.ram
      rngAnswers := t.rngAnswers, draws := t.draws } ∧
    (s.ctrl.autoIv = false → t.iv = s.iv ∧ t.rngAnswers = s.rngAnswers ∧ t.draws = s.draws) ∧
    (s.ctrl.autoIv = true → t.rngAnswers = s.rngAnswers.tail ∧ t.draws = s.draws + 1) ∧
    ∀ a, ¬ (0x2000 ≤ a ∧ a < 0x2000 + t.outlen.toNat) → t.byteAt a = s.byteAt a

/-- R176, R178, R212, R161: a decrypt command on an AES path with a well-formed envelope length completes; it writes the padded
plaintext to `OBUF`, and its last byte decides between `OUTLEN` and `ERR_PADDING`. -/
def Obligations.DecryptWritesThePaddedPlaintext : Prop :=
  ∀ (i : Instr) (p : Path) (s : State), RunsStreamDec i s p →
    s.len.toNat ≤ s.bufSize.bytes → 32 ≤ s.len.toNat → s.len.toNat % 16 = 0 →
    ∃ (t : State) (iv : Block) (w : ExpandedKey) (n : Byte),
      exec i s = .next t ∧
      iv = .tab 16 (fun j => s.byteAt (0x1000 + j)) ∧ w = expandKey s.key ∧
      (∀ k, k < s.len.toNat - 16 →
        t.byteAt (0x2000 + k) = s.byteAt (0x1010 + k) ^^^ (keystreamBlock iv w (k / 16)).get (k % 16)) ∧
      n = t.byteAt (0x2000 + (s.len.toNat - 17)) ∧
      t.expkey = w ∧ t.ksr = keystreamBlock iv w (s.len.toNat / 16 - 2) ∧
      (1 ≤ n.toNat ∧ n.toNat ≤ 16 →
        t.status = ⟨true, true, false, p, .ok⟩ ∧ t.outlen.toNat = s.len.toNat - 16 - n.toNat) ∧
      (n.toNat = 0 ∨ 16 < n.toNat →
        t.status = ⟨true, true, true, p, .padding⟩ ∧ t.outlen = 0)

/-- R176, R173: what a decrypt command on an AES path leaves unchanged: `IV`, `STATE` and the random source among the registers,
and every byte of memory outside the padded plaintext. -/
def Obligations.DecryptFrame : Prop :=
  ∀ (i : Instr) (p : Path) (s t : State), RunsStreamDec i s p →
    s.len.toNat ≤ s.bufSize.bytes → 32 ≤ s.len.toNat → s.len.toNat % 16 = 0 → exec i s = .next t →
    t = { s with status := t.status, outlen := t.outlen, ksr := t.ksr, expkey := t.expkey, ram := t.ram } ∧
    ∀ a, ¬ (0x2000 ≤ a ∧ a < 0x2000 + (s.len.toNat - 16)) → t.byteAt a = s.byteAt a

/-- R167: for equal inputs the legacy commands do exactly what the current ones do on this engine. -/
def Obligations.LegacyCommandsEqualCurrent : Prop :=
  ∀ s : State, exec .encOld s = exec .encCur s ∧ exec .decOld s = exec .decCur s

/-- R179: `ENC_CUR` on `L ≤ BUF_SIZE - 32` bytes, then `DEC_CUR` in any state of the engine whose `IBUF` and `LEN` are the
envelope and whose `KEY` is the same, gives the input back, and so do `ENC_OLD` and `DEC_OLD`. -/
def Obligations.StreamRoundTrip : Prop :=
  ∀ (enc dec : Instr) (s t u : State),
    (enc = .encCur ∧ dec = .decCur) ∨ (enc = .encOld ∧ dec = .decOld) →
    s.len.toNat ≤ s.bufSize.bytes - 32 → exec enc s = .next t →
    u.bufSize = s.bufSize → u.key = s.key → u.len = t.outlen →
    (∀ k, k < t.outlen.toNat → u.byteAt (0x1000 + k) = t.byteAt (0x2000 + k)) →
    ∃ v, exec dec u = .next v ∧ v.status.err = false ∧ v.outlen = s.len ∧
      ∀ k, k < s.len.toNat → v.byteAt (0x2000 + k) = s.byteAt (0x1000 + k)

/-- R176, R32, D37: decrypt commands neither read nor write `IV`. -/
def Obligations.DecryptNeverReadsIv : Prop :=
  ∀ (i : Instr) (s t : State) (x : Block), (i = .decCur ∨ i = .decOld ∨ i = .decrypt) → exec i s = .next t →
    t.iv = s.iv ∧ exec i { s with iv := x } = .next { t with iv := x }

/-! ### Legacy XOR and the dispatcher -/

/-- R200, R202: the XOR cipher byte by byte, that it undoes itself, and that it commutes with prefixes. -/
def Obligations.XorCipherIsAnInvolution : Prop :=
  ∀ k t : List Byte, 1 ≤ k.length →
    (xorCipher k t).length = t.length ∧
    (∀ i, i < t.length → (xorCipher k t).getD i 0 = t.getD i 0 ^^^ k.getD (i % k.length) 0) ∧
    xorCipher k (xorCipher k t) = t ∧
    ∀ m, m ≤ t.length → (xorCipher k t).take m = xorCipher k (t.take m)

/-- R201, R212: `XORC`, and `DECRYPT` on the XOR path, complete for a length within the buffer and a password of 1 to 256
bytes; they write `OBUF[0..LEN)` and `OUTLEN` and touch no key, IV or block register. -/
def Obligations.XorRunXorsThePassword : Prop :=
  ∀ (i : Instr) (p : Path) (s : State), RunsXorRun i s p →
    s.len.toNat ≤ s.bufSize.bytes → 1 ≤ s.pwlen.toNat → s.pwlen.toNat ≤ 256 →
    ∃ t, exec i s = .next t ∧
      t = { s with
        ram := t.ram, outlen := s.len, status := { s.status with err := false, errCode := .ok, path := p } } ∧
      (∀ k, k < s.len.toNat →
        t.byteAt (0x2000 + k) = s.byteAt (0x1000 + k) ^^^ s.byteAt (0x0200 + k % s.pwlen.toNat)) ∧
      ∀ a, ¬ (0x2000 ≤ a ∧ a < 0x2000 + s.len.toNat) → t.byteAt a = s.byteAt a

/-- R175, R176, R201, R164, R233: the pre-checks of the buffer commands, in order: `ERR_LEN`, then `ERR_ENVELOPE` on an AES
decrypt path and `ERR_PWLEN` on the XOR path. Each changes `OUTLEN <- 0` and the report only, so that no IV is drawn and no key
expanded. -/
def Obligations.BufferPrecheckErrors : Prop :=
  ∀ (i : Instr) (s : State) (p : Path),
    (s.bufSize.bytes < s.len.toNat →
      (RunsStreamEnc i p ∨ (p = .none ∧ i ∈ [.decCur, .decOld, .xorc, .decrypt])) →
      exec i s = .next { s with
        outlen := 0, status := { s.status with err := true, errCode := .len, path := p } }) ∧
    (s.len.toNat ≤ s.bufSize.bytes → RunsStreamDec i s p → (s.len.toNat < 32 ∨ s.len.toNat % 16 ≠ 0) →
      exec i s = .next { s with
        outlen := 0, status := { s.status with err := true, errCode := .envelope, path := p } }) ∧
    (s.len.toNat ≤ s.bufSize.bytes → RunsXorRun i s p → (s.pwlen.toNat = 0 ∨ 256 < s.pwlen.toNat) →
      exec i s = .next { s with
        outlen := 0, status := { s.status with err := true, errCode := .pwlen, path := p } })

/-- R210: `NOP` clears the error report and changes nothing else. -/
def Obligations.NopClearsTheErrorReport : Prop :=
  ∀ s : State, exec .nop s = .next { s with
    status := { s.status with err := false, errCode := .ok, path := .none } }

/-- R212, R214, R25, R7: `DECRYPT` refuses to guess: a negative version is `ERR_VERSION`, and version 0 with the route unset is
`ERR_ROUTE`, both before anything is decrypted. The signed reading of `VERSION` is negative from 0x80000000 on, 0 at 0 alone and
at least 1 elsewhere. -/
def Obligations.DecryptRefusesToGuess : Prop :=
  (∀ w : Word, (signed32 w < 0 ↔ 0x80000000 ≤ w.toNat) ∧ (signed32 w = 0 ↔ w = 0) ∧
    (1 ≤ signed32 w ↔ 1 ≤ w.toNat ∧ w.toNat < 0x80000000)) ∧
  ∀ s : State, s.len.toNat ≤ s.bufSize.bytes →
    (0x80000000 ≤ s.version.toNat → exec .decrypt s = .next { s with
      outlen := 0, status := { s.status with err := true, errCode := .version, path := .none } }) ∧
    (s.version = 0 → s.ctrl.legacyRoute = .unset → exec .decrypt s = .next { s with
      outlen := 0, status := { s.status with err := true, errCode := .route, path := .none } })

/-- R216: `PATH` after each command, and after a word that fails decode. -/
def Obligations.PathAfterEachCommand : Prop :=
  (∀ (i : Instr) (s t : State), exec i s = .next t →
    (i = .encrypt → t.status.path = .current) ∧
    (i ≠ .encrypt → i ≠ .decrypt → t.status.path = .none) ∧
    (i = .decrypt →
      (s.bufSize.bytes < s.len.toNat ∨ signed32 s.version < 0 ∨
        (signed32 s.version = 0 ∧ s.ctrl.legacyRoute = .unset) → t.status.path = .none) ∧
      ∀ p, s.len.toNat ≤ s.bufSize.bytes → RunsStreamDec i s p ∨ RunsXorRun i s p → t.status.path = p)) ∧
  ∀ (s t : State) (v : Word) (e : DecodeError), decode v = .error e → writeWord 0x000C v s = .next t →
    t.status.path = .none

/-! ### Whole-machine rules -/

/-- R62, R31, R36, R37, R215: every command completes in every state, and none writes what the host alone writes: `CTRL`,
`VERSION`, `LEN`, `PWLEN`, `KEY`, `PW`, `IBUF`, or the word in `CMD`. That the parameter, the epoch, the reset level, the
events and the words read are fields of State is the model's choice (notes/assumptions/3.md, 4.md, 8.md, 1.md, 10.md). -/
def Obligations.CommandsCompleteAndKeepHostInputs : Prop :=
  ∀ (i : Instr) (s : State),
    ∃ t, exec i s = .next t ∧
      t.ctrl = s.ctrl ∧ t.version = s.version ∧ t.len = s.len ∧ t.pwlen = s.pwlen ∧ t.key = s.key ∧ t.cmd = s.cmd ∧
      t.bufSize = s.bufSize ∧ t.epoch = s.epoch ∧ t.inReset = s.inReset ∧ t.pending = s.pending ∧
      t.readData = s.readData ∧
      ∀ a, a < 0x2000 → t.byteAt a = s.byteAt a

/-- R29, R30, R33, R34, R35, R38, R239: who may write `RESULT`, `OUTLEN`, `OBUF`, `STATE`, `KSR`, `EXPKEY` and `IV`, and who
consults the random source, whose form is the model's choice (notes/assumptions/5.md). -/
def Obligations.OnlyTheNamedCommandsWrite : Prop :=
  ∀ (i : Instr) (s t : State), exec i s = .next t →
    (i.mnemonic ∉ [.gmul, .sbox, .isbox, .rcon] → t.result = s.result) ∧
    (i.mnemonic ∉ bufferCommands → t.outlen = s.outlen ∧ ∀ a, t.byteAt a = s.byteAt a) ∧
    (i.mnemonic ∉ stateCommands → t.state = s.state) ∧
    (i.mnemonic ∉ [.ksload, .ksnext, .encCur, .decCur, .encOld, .decOld, .encrypt, .decrypt] → t.ksr = s.ksr) ∧
    (i.mnemonic ∉ [.keyexp, .encCur, .decCur, .encOld, .decOld, .encrypt, .decrypt] → t.expkey = s.expkey) ∧
    (i.mnemonic ∉ [.encCur, .encOld, .encrypt] ∨ s.ctrl.autoIv = false →
      t.iv = s.iv ∧ t.draws = s.draws ∧ t.rngAnswers = s.rngAnswers)

/-- R234: the failure is precise. A command that fails after decode changes the report; a buffer command also `OUTLEN <- 0`; only
the late failure `ERR_PADDING` keeps the effects before the check, which are the expanded key, the last keystream block, both
validity flags and the padded plaintext; a failing word does not touch `OUTLEN`. -/
def Obligations.FailuresArePrecise : Prop :=
  (∀ (i : Instr) (s t : State), exec i s = .next t → t.status.err = true →
    (i.mnemonic ∉ bufferCommands → t = { s with status := t.status }) ∧
    (i.mnemonic ∈ bufferCommands → t.status.errCode ≠ .padding → t = { s with status := t.status, outlen := 0 }) ∧
    (t.status.errCode ≠ .padding →
      t.status.keyValid = s.status.keyValid ∧ t.status.ksValid = s.status.ksValid) ∧
    (t.status.errCode = .padding →
      t = { s with status := t.status, outlen := 0, ksr := t.ksr, expkey := expandKey s.key, ram := t.ram } ∧
      t.status.keyValid = true ∧ t.status.ksValid = true ∧
      (∃ iv : Block, iv = .tab 16 (fun j => s.byteAt (0x1000 + j)) ∧
        t.ksr = keystreamBlock iv (expandKey s.key) (s.len.toNat / 16 - 2) ∧
        ∀ k, k < s.len.toNat - 16 →
          t.byteAt (0x2000 + k) =
            s.byteAt (0x1010 + k) ^^^ (keystreamBlock iv (expandKey s.key) (k / 16)).get (k % 16)) ∧
      ∀ a, ¬ (0x2000 ≤ a ∧ a < 0x2000 + (s.len.toNat - 16)) → t.byteAt a = s.byteAt a)) ∧
  ∀ (s t : State) (v : Word) (e : DecodeError), decode v = .error e → writeWord 0x000C v s = .next t →
    t = { s with cmd := v, status := t.status } ∧ t.status.err = true

/-- R215, R260, R261: only `DECRYPT` reads `VERSION`, and only a host write to it, or reset, changes it. That reset changes it at
the release, not at the assertion, is the model's choice (notes/assumptions/8.md). -/
def Obligations.VersionIsTheHosts : Prop :=
  (∀ (i : Instr) (s t : State) (x : Word), i ≠ .decrypt → exec i s = .next t →
    exec i { s with version := x } = .next { t with version := x }) ∧
  ∀ (s t : State) (e : HostEvent) (rest : List HostEvent), s.pending = e :: rest → step s = .next t →
    t.version ≠ s.version → (∃ v, e = .write 0x0010 4 v) ∨ (e = .resetLine false ∧ s.inReset = true)
end

