-- ==== Sys2Proof/Laws/Memory.lean ====
section
/-! SUPPORT. Laws of the memory of buffer bytes: read after write, writes elsewhere, and that every operation keeps the
canonical form. -/

namespace Sys2Proof.Machine

theorem Memory.get?_set (m : Memory) (x y : Nat) (v : Byte) :
    Memory.get? (Memory.set m x v) y = if y = x then some v else Memory.get? m y := by
  induction m with
  | nil => simp [Memory.set, Memory.get?]
  | cons c m ih =>
    rcases c with ⟨a, b⟩
    simp only [Memory.set]
    split
    · simp [Memory.get?]
    · split
      · subst_vars
        simp only [Memory.get?]
        split <;> rfl
      · simp only [Memory.get?, ih]
        split <;> split <;> first | rfl | omega

theorem Memory.mem_set {m : Memory} {x : Nat} {v : Byte} {c : Host.Cell} (h : c ∈ Memory.set m x v) :
    c = (x, v) ∨ c ∈ m := by
  induction m with
  | nil => simpa [Memory.set] using h
  | cons d m ih =>
    rcases d with ⟨a, b⟩
    simp only [Memory.set] at h
    split at h
    · simpa using h
    · split at h
      · rcases List.mem_cons.1 h with h | h <;> simp [h]
      · rcases List.mem_cons.1 h with h | h
        · simp [h]
        · rcases ih h with h | h <;> simp [h]

theorem Memory.wf_set {m : Memory} (h : Memory.wf m) (x : Nat) (v : Byte) : Memory.wf (Memory.set m x v) := by
  induction m with
  | nil => simp [Memory.wf, Memory.set]
  | cons d m ih =>
    rcases d with ⟨a, b⟩
    obtain ⟨h1, h2⟩ := List.pairwise_cons.1 h
    simp only [Memory.set]
    split
    · refine List.pairwise_cons.2 ⟨?_, h⟩
      intro c hc
      rcases List.mem_cons.1 hc with hc | hc
      · subst hc; assumption
      · have := h1 c hc; simp only at this ⊢; omega
    · split
      · subst_vars
        exact List.pairwise_cons.2 ⟨h1, h2⟩
      · refine List.pairwise_cons.2 ⟨?_, ih h2⟩
        intro c hc
        rcases Memory.mem_set hc with hc | hc
        · subst hc; simp only; omega
        · exact h1 c hc

theorem Memory.get?_setBytes (m : Memory) (a y : Nat) (bs : List Byte) :
    Memory.get? (Memory.setBytes m a bs) y =
      if a ≤ y ∧ y < a + bs.length then some (bs.getD (y - a) 0) else Memory.get? m y := by
  induction bs generalizing m a with
  | nil => simp [Memory.setBytes, show ¬ (a ≤ y ∧ y < a) by omega]
  | cons b bs ih =>
    simp only [Memory.setBytes, ih, Memory.get?_set, List.length_cons]
    by_cases h : y = a
    · subst h
      simp
    · by_cases h2 : a + 1 ≤ y ∧ y < a + 1 + bs.length
      · rw [if_pos h2, if_pos (by omega)]
        obtain ⟨k, hk⟩ : ∃ k, y - a = k + 1 := ⟨y - a - 1, by omega⟩
        rw [hk, show y - (a + 1) = k by omega]
        simp
      · rw [if_neg h2, if_neg h, if_neg (by omega)]

theorem Memory.mem_setBytes {m : Memory} {a : Nat} {bs : List Byte} {c : Host.Cell}
    (h : c ∈ Memory.setBytes m a bs) : c ∈ m ∨ (a ≤ c.1 ∧ c.1 < a + bs.length) := by
  induction bs generalizing m a with
  | nil => exact .inl h
  | cons b bs ih =>
    rcases ih h with h | h
    · rcases Memory.mem_set h with h | h
      · subst h; right; simp
      · exact .inl h
    · right; simp only [List.length_cons]; omega

theorem Memory.wf_setBytes {m : Memory} (h : Memory.wf m) (a : Nat) (bs : List Byte) :
    Memory.wf (Memory.setBytes m a bs) := by
  induction bs generalizing m a with
  | nil => exact h
  | cons b bs ih => exact ih (Memory.wf_set h a b) (a + 1)

/-! ### Buffer bytes of a state -/

theorem State.byteAt_of_ram_epoch {s t : State} (hr : t.ram = s.ram) (he : t.epoch = s.epoch) (a : Nat) :
    t.byteAt a = s.byteAt a := by
  simp [State.byteAt, hr, he]

/-- A byte after a byte string was written to the memory. -/
theorem State.byteAt_setBytes (s t : State) (a : Nat) (bs : List Byte) (hr : t.ram = Memory.setBytes s.ram a bs)
    (he : t.epoch = s.epoch) (y : Nat) :
    t.byteAt y = if a ≤ y ∧ y < a + bs.length then bs.getD (y - a) 0 else s.byteAt y := by
  simp only [State.byteAt, hr, he, Memory.get?_setBytes]
  by_cases h : a ≤ y ∧ y < a + bs.length <;> simp [h]

@[simp] theorem State.length_bytesAt (s : State) (a n : Nat) : (s.bytesAt a n).length = n := by
  simp [State.bytesAt]

theorem State.getD_bytesAt (s : State) {a n i : Nat} (h : i < n) : (s.bytesAt a n).getD i 0 = s.byteAt (a + i) := by
  simp [State.bytesAt, List.getD_eq_getElem?_getD, h]

theorem State.bytesAt_congr {s t : State} {a b n : Nat} (h : ∀ i, i < n → t.byteAt (b + i) = s.byteAt (a + i)) :
    t.bytesAt b n = s.bytesAt a n := by
  simp only [State.bytesAt]
  exact List.map_congr_left fun i hi => h i (List.mem_range.1 hi)

@[simp] theorem State.length_ibufBytes (s : State) (n : Nat) : (s.ibufBytes n).length = n := by
  simp [State.ibufBytes]

@[simp] theorem State.length_pwBytes (s : State) (n : Nat) : (s.pwBytes n).length = n := by
  simp [State.pwBytes]

@[simp] theorem State.length_obufBytes (s : State) (n : Nat) : (s.obufBytes n).length = n := by
  simp [State.obufBytes]

end Sys2Proof.Machine
end

