-- ==== Sys2Proof/Laws/Bytes.lean ====
section
/-! SUPPORT. Lemmas about fixed-length byte strings. -/

namespace Sys2Proof

@[simp] theorem Bytes.toList_tab (n : Nat) (f : Nat → Byte) : (Bytes.tab n f).toList = (List.range n).map f := rfl

theorem Bytes.get_tab_of_lt {n i : Nat} (f : Nat → Byte) (h : i < n) : (Bytes.tab n f).get i = f i := by
  simp [Bytes.get, List.getD_eq_getElem?_getD, h]

theorem Bytes.get_of_le {n i : Nat} (b : Bytes n) (h : n ≤ i) : b.get i = 0 := by
  have := b.length_eq
  simp [Bytes.get, List.getD_eq_getElem?_getD, List.getElem?_eq_none (by omega : b.toList.length ≤ i)]

theorem Bytes.get_eq_getElem {n i : Nat} (b : Bytes n) (h : i < b.toList.length) : b.get i = b.toList[i] := by
  simp [Bytes.get, List.getD_eq_getElem?_getD, h]

theorem Bytes.ext_get {n : Nat} {x y : Bytes n} (h : ∀ i, i < n → x.get i = y.get i) : x = y := by
  rcases x with ⟨lx, hx⟩
  rcases y with ⟨ly, hy⟩
  have : lx = ly := by
    apply List.ext_getElem (by omega)
    intro i h1 h2
    have := h i (by omega)
    simpa [Bytes.get, List.getD_eq_getElem?_getD, h1, h2] using this
  subst this
  rfl

theorem Bytes.tab_get {n : Nat} (b : Bytes n) : Bytes.tab n b.get = b :=
  Bytes.ext_get fun _ h => Bytes.get_tab_of_lt _ h

@[simp] theorem Bytes.get_zero (n i : Nat) : (Bytes.zero n).get i = 0 := by
  by_cases h : i < n
  · exact Bytes.get_tab_of_lt _ h
  · exact Bytes.get_of_le _ (by omega)

@[simp] theorem Bytes.get_xor {n : Nat} (x y : Bytes n) (i : Nat) : (x.xor y).get i = x.get i ^^^ y.get i := by
  by_cases h : i < n
  · exact Bytes.get_tab_of_lt _ h
  · simp [Bytes.get_of_le _ (by omega : n ≤ i)]

theorem Bytes.xor_xor_cancel {n : Nat} (x y : Bytes n) : (x.xor y).xor y = x :=
  Bytes.ext_get fun i _ => by simp

@[simp] theorem Bytes.length_toList {n : Nat} (b : Bytes n) : b.toList.length = n := b.length_eq

end Sys2Proof
end

