-- ==== Sys2Proof/Laws/Operands.lean ====
section
/-! SUPPORT. Laws of byte order: packing a word into bytes and back (R53). -/

namespace Sys2Proof.Machine

theorem wordOf_byteOf (v : Word) : wordOf (byteOf v 0) (byteOf v 1) (byteOf v 2) (byteOf v 3) = v := by
  apply BitVec.eq_of_getLsbD_eq
  intro i hi
  simp only [wordOf, zext32, byteOf, BitVec.getLsbD_or, BitVec.getLsbD_shiftLeft, BitVec.getLsbD_setWidth,
    BitVec.getLsbD_extractLsb']
  rcases (by omega : i < 8 ∨ (8 ≤ i ∧ i < 16) ∨ (16 ≤ i ∧ i < 24) ∨ (24 ≤ i ∧ i < 32)) with h | h | h | h
  · simp [hi, show i < 8 by omega, show i < 16 by omega, show i < 24 by omega]
  · simp [hi, show ¬ i < 8 by omega, show i < 16 by omega, show i < 24 by omega,
      show i - 8 < 8 by omega, show i - 8 < 32 by omega, show 8 + (i - 8) = i by omega]
  · simp [hi, show ¬ i < 8 by omega, show ¬ i < 16 by omega, show i < 24 by omega, show ¬ i - 8 < 8 by omega,
      show i - 16 < 8 by omega, show i - 16 < 32 by omega, show 16 + (i - 16) = i by omega]
  · simp [hi, show ¬ i < 8 by omega, show ¬ i < 16 by omega, show ¬ i < 24 by omega, show ¬ i - 8 < 8 by omega,
      show ¬ i - 16 < 8 by omega, show i - 24 < 8 by omega, show i - 24 < 32 by omega, show 24 + (i - 24) = i by omega]

theorem byteOf_wordOf (b : Nat → Byte) {j : Nat} (hj : j < 4) :
    byteOf (wordOf (b 0) (b 1) (b 2) (b 3)) j = b j := by
  apply BitVec.eq_of_getLsbD_eq
  intro i hi
  simp only [wordOf, zext32, byteOf, BitVec.getLsbD_or, BitVec.getLsbD_shiftLeft, BitVec.getLsbD_setWidth,
    BitVec.getLsbD_extractLsb']
  rcases (by omega : j = 0 ∨ j = 1 ∨ j = 2 ∨ j = 3) with h | h | h | h <;> subst h
  · simp [hi, show i < 32 by omega, show i < 16 by omega, show i < 24 by omega]
  · simp [hi, show 8 + i < 32 by omega, show ¬ 8 + i < 8 by omega, show 8 + i < 16 by omega, show 8 + i < 24 by omega,
      show i < 32 by omega]
  · simp [hi, show 16 + i < 32 by omega, show ¬ 16 + i < 16 by omega, show 16 + i < 24 by omega,
      show ¬ 16 + i < 8 by omega, show i < 32 by omega, (BitVec.getLsbD_of_ge _ _ (by omega) : (b 0).getLsbD (16 + i) = false),
      (BitVec.getLsbD_of_ge _ _ (by omega) : (b 1).getLsbD (16 + i - 8) = false)]
  · simp [hi, show 24 + i < 32 by omega, show ¬ 24 + i < 24 by omega, show ¬ 24 + i < 16 by omega,
      show ¬ 24 + i < 8 by omega, show i < 32 by omega, (BitVec.getLsbD_of_ge _ _ (by omega) : (b 0).getLsbD (24 + i) = false),
      (BitVec.getLsbD_of_ge _ _ (by omega) : (b 1).getLsbD (24 + i - 8) = false),
      (BitVec.getLsbD_of_ge _ _ (by omega) : (b 2).getLsbD (24 + i - 16) = false)]

theorem zext32_lt (v : Byte) : (zext32 v).toNat < 256 := by
  have := v.isLt
  simp [zext32]
  omega

@[simp] theorem length_wordBytes (v : Word) : (wordBytes v).length = 4 := rfl

theorem getD_wordBytes (v : Word) {j : Nat} (hj : j < 4) : (wordBytes v).getD j 0 = byteOf v j := by
  rcases (by omega : j = 0 ∨ j = 1 ∨ j = 2 ∨ j = 3) with h | h | h | h <;> subst h <;> rfl

theorem get_setWindowWord {n : Nat} (b : Bytes n) (k : Nat) (v : Word) {i : Nat} (h : i < n) :
    (setWindowWord b k v).get i = if k ≤ i ∧ i < k + 4 then byteOf v (i - k) else b.get i :=
  Bytes.get_tab_of_lt _ h

end Sys2Proof.Machine
end

