-- ==== Sys2Proof/Laws/State.lean ====
section
/-! SUPPORT. One lemma per field per named update of the state. -/

namespace Sys2Proof.Machine

/-! ### `finish` -/

@[simp] theorem State.finish_ctrl (s : State) (p : Path) : (s.finish p).ctrl = s.ctrl := rfl
@[simp] theorem State.finish_status (s : State) (p : Path) : (s.finish p).status = s.status.succeed p := rfl
@[simp] theorem State.finish_cmd (s : State) (p : Path) : (s.finish p).cmd = s.cmd := rfl
@[simp] theorem State.finish_version (s : State) (p : Path) : (s.finish p).version = s.version := rfl
@[simp] theorem State.finish_len (s : State) (p : Path) : (s.finish p).len = s.len := rfl
@[simp] theorem State.finish_pwlen (s : State) (p : Path) : (s.finish p).pwlen = s.pwlen := rfl
@[simp] theorem State.finish_outlen (s : State) (p : Path) : (s.finish p).outlen = s.outlen := rfl
@[simp] theorem State.finish_result (s : State) (p : Path) : (s.finish p).result = s.result := rfl
@[simp] theorem State.finish_key (s : State) (p : Path) : (s.finish p).key = s.key := rfl
@[simp] theorem State.finish_iv (s : State) (p : Path) : (s.finish p).iv = s.iv := rfl
@[simp] theorem State.finish_state (s : State) (p : Path) : (s.finish p).state = s.state := rfl
@[simp] theorem State.finish_ksr (s : State) (p : Path) : (s.finish p).ksr = s.ksr := rfl
@[simp] theorem State.finish_expkey (s : State) (p : Path) : (s.finish p).expkey = s.expkey := rfl
@[simp] theorem State.finish_ram (s : State) (p : Path) : (s.finish p).ram = s.ram := rfl
@[simp] theorem State.finish_bufSize (s : State) (p : Path) : (s.finish p).bufSize = s.bufSize := rfl
@[simp] theorem State.finish_epoch (s : State) (p : Path) : (s.finish p).epoch = s.epoch := rfl
@[simp] theorem State.finish_rngAnswers (s : State) (p : Path) : (s.finish p).rngAnswers = s.rngAnswers := rfl
@[simp] theorem State.finish_draws (s : State) (p : Path) : (s.finish p).draws = s.draws := rfl
@[simp] theorem State.finish_inReset (s : State) (p : Path) : (s.finish p).inReset = s.inReset := rfl
@[simp] theorem State.finish_pending (s : State) (p : Path) : (s.finish p).pending = s.pending := rfl
@[simp] theorem State.finish_readData (s : State) (p : Path) : (s.finish p).readData = s.readData := rfl

/-! ### `raiseError` -/

@[simp] theorem State.raiseError_ctrl (s : State) (c : ErrCode) (p : Path) : (s.raiseError c p).ctrl = s.ctrl := rfl
@[simp] theorem State.raiseError_status (s : State) (c : ErrCode) (p : Path) : (s.raiseError c p).status = s.status.fail c p := rfl
@[simp] theorem State.raiseError_cmd (s : State) (c : ErrCode) (p : Path) : (s.raiseError c p).cmd = s.cmd := rfl
@[simp] theorem State.raiseError_version (s : State) (c : ErrCode) (p : Path) : (s.raiseError c p).version = s.version := rfl
@[simp] theorem State.raiseError_len (s : State) (c : ErrCode) (p : Path) : (s.raiseError c p).len = s.len := rfl
@[simp] theorem State.raiseError_pwlen (s : State) (c : ErrCode) (p : Path) : (s.raiseError c p).pwlen = s.pwlen := rfl
@[simp] theorem State.raiseError_outlen (s : State) (c : ErrCode) (p : Path) : (s.raiseError c p).outlen = s.outlen := rfl
@[simp] theorem State.raiseError_result (s : State) (c : ErrCode) (p : Path) : (s.raiseError c p).result = s.result := rfl
@[simp] theorem State.raiseError_key (s : State) (c : ErrCode) (p : Path) : (s.raiseError c p).key = s.key := rfl
@[simp] theorem State.raiseError_iv (s : State) (c : ErrCode) (p : Path) : (s.raiseError c p).iv = s.iv := rfl
@[simp] theorem State.raiseError_state (s : State) (c : ErrCode) (p : Path) : (s.raiseError c p).state = s.state := rfl
@[simp] theorem State.raiseError_ksr (s : State) (c : ErrCode) (p : Path) : (s.raiseError c p).ksr = s.ksr := rfl
@[simp] theorem State.raiseError_expkey (s : State) (c : ErrCode) (p : Path) : (s.raiseError c p).expkey = s.expkey := rfl
@[simp] theorem State.raiseError_ram (s : State) (c : ErrCode) (p : Path) : (s.raiseError c p).ram = s.ram := rfl
@[simp] theorem State.raiseError_bufSize (s : State) (c : ErrCode) (p : Path) : (s.raiseError c p).bufSize = s.bufSize := rfl
@[simp] theorem State.raiseError_epoch (s : State) (c : ErrCode) (p : Path) : (s.raiseError c p).epoch = s.epoch := rfl
@[simp] theorem State.raiseError_rngAnswers (s : State) (c : ErrCode) (p : Path) : (s.raiseError c p).rngAnswers = s.rngAnswers := rfl
@[simp] theorem State.raiseError_draws (s : State) (c : ErrCode) (p : Path) : (s.raiseError c p).draws = s.draws := rfl
@[simp] theorem State.raiseError_inReset (s : State) (c : ErrCode) (p : Path) : (s.raiseError c p).inReset = s.inReset := rfl
@[simp] theorem State.raiseError_pending (s : State) (c : ErrCode) (p : Path) : (s.raiseError c p).pending = s.pending := rfl
@[simp] theorem State.raiseError_readData (s : State) (c : ErrCode) (p : Path) : (s.raiseError c p).readData = s.readData := rfl

/-! ### `writeObuf` -/

@[simp] theorem State.writeObuf_ctrl (s : State) (bs : List Byte) : (s.writeObuf bs).ctrl = s.ctrl := rfl
@[simp] theorem State.writeObuf_status (s : State) (bs : List Byte) : (s.writeObuf bs).status = s.status := rfl
@[simp] theorem State.writeObuf_cmd (s : State) (bs : List Byte) : (s.writeObuf bs).cmd = s.cmd := rfl
@[simp] theorem State.writeObuf_version (s : State) (bs : List Byte) : (s.writeObuf bs).version = s.version := rfl
@[simp] theorem State.writeObuf_len (s : State) (bs : List Byte) : (s.writeObuf bs).len = s.len := rfl
@[simp] theorem State.writeObuf_pwlen (s : State) (bs : List Byte) : (s.writeObuf bs).pwlen = s.pwlen := rfl
@[simp] theorem State.writeObuf_outlen (s : State) (bs : List Byte) : (s.writeObuf bs).outlen = s.outlen := rfl
@[simp] theorem State.writeObuf_result (s : State) (bs : List Byte) : (s.writeObuf bs).result = s.result := rfl
@[simp] theorem State.writeObuf_key (s : State) (bs : List Byte) : (s.writeObuf bs).key = s.key := rfl
@[simp] theorem State.writeObuf_iv (s : State) (bs : List Byte) : (s.writeObuf bs).iv = s.iv := rfl
@[simp] theorem State.writeObuf_state (s : State) (bs : List Byte) : (s.writeObuf bs).state = s.state := rfl
@[simp] theorem State.writeObuf_ksr (s : State) (bs : List Byte) : (s.writeObuf bs).ksr = s.ksr := rfl
@[simp] theorem State.writeObuf_expkey (s : State) (bs : List Byte) : (s.writeObuf bs).expkey = s.expkey := rfl
@[simp] theorem State.writeObuf_ram (s : State) (bs : List Byte) : (s.writeObuf bs).ram = Memory.setBytes s.ram Config.obufBase bs := rfl
@[simp] theorem State.writeObuf_bufSize (s : State) (bs : List Byte) : (s.writeObuf bs).bufSize = s.bufSize := rfl
@[simp] theorem State.writeObuf_epoch (s : State) (bs : List Byte) : (s.writeObuf bs).epoch = s.epoch := rfl
@[simp] theorem State.writeObuf_rngAnswers (s : State) (bs : List Byte) : (s.writeObuf bs).rngAnswers = s.rngAnswers := rfl
@[simp] theorem State.writeObuf_draws (s : State) (bs : List Byte) : (s.writeObuf bs).draws = s.draws := rfl
@[simp] theorem State.writeObuf_inReset (s : State) (bs : List Byte) : (s.writeObuf bs).inReset = s.inReset := rfl
@[simp] theorem State.writeObuf_pending (s : State) (bs : List Byte) : (s.writeObuf bs).pending = s.pending := rfl
@[simp] theorem State.writeObuf_readData (s : State) (bs : List Byte) : (s.writeObuf bs).readData = s.readData := rfl

/-! ### `drawIv` -/

@[simp] theorem State.drawIv_ctrl (s : State) : (s.drawIv).ctrl = s.ctrl := rfl
@[simp] theorem State.drawIv_status (s : State) : (s.drawIv).status = s.status := rfl
@[simp] theorem State.drawIv_cmd (s : State) : (s.drawIv).cmd = s.cmd := rfl
@[simp] theorem State.drawIv_version (s : State) : (s.drawIv).version = s.version := rfl
@[simp] theorem State.drawIv_len (s : State) : (s.drawIv).len = s.len := rfl
@[simp] theorem State.drawIv_pwlen (s : State) : (s.drawIv).pwlen = s.pwlen := rfl
@[simp] theorem State.drawIv_outlen (s : State) : (s.drawIv).outlen = s.outlen := rfl
@[simp] theorem State.drawIv_result (s : State) : (s.drawIv).result = s.result := rfl
@[simp] theorem State.drawIv_key (s : State) : (s.drawIv).key = s.key := rfl
@[simp] theorem State.drawIv_iv (s : State) : (s.drawIv).iv = s.nextDraw := rfl
@[simp] theorem State.drawIv_state (s : State) : (s.drawIv).state = s.state := rfl
@[simp] theorem State.drawIv_ksr (s : State) : (s.drawIv).ksr = s.ksr := rfl
@[simp] theorem State.drawIv_expkey (s : State) : (s.drawIv).expkey = s.expkey := rfl
@[simp] theorem State.drawIv_ram (s : State) : (s.drawIv).ram = s.ram := rfl
@[simp] theorem State.drawIv_bufSize (s : State) : (s.drawIv).bufSize = s.bufSize := rfl
@[simp] theorem State.drawIv_epoch (s : State) : (s.drawIv).epoch = s.epoch := rfl
@[simp] theorem State.drawIv_rngAnswers (s : State) : (s.drawIv).rngAnswers = s.rngAnswers.tail := rfl
@[simp] theorem State.drawIv_draws (s : State) : (s.drawIv).draws = s.draws + 1 := rfl
@[simp] theorem State.drawIv_inReset (s : State) : (s.drawIv).inReset = s.inReset := rfl
@[simp] theorem State.drawIv_pending (s : State) : (s.drawIv).pending = s.pending := rfl
@[simp] theorem State.drawIv_readData (s : State) : (s.drawIv).readData = s.readData := rfl

/-! ### `expandOnEntry` -/

@[simp] theorem State.expandOnEntry_ctrl (s : State) : (s.expandOnEntry).ctrl = s.ctrl := rfl
@[simp] theorem State.expandOnEntry_status (s : State) : (s.expandOnEntry).status = { s.status with keyValid := true } := rfl
@[simp] theorem State.expandOnEntry_cmd (s : State) : (s.expandOnEntry).cmd = s.cmd := rfl
@[simp] theorem State.expandOnEntry_version (s : State) : (s.expandOnEntry).version = s.version := rfl
@[simp] theorem State.expandOnEntry_len (s : State) : (s.expandOnEntry).len = s.len := rfl
@[simp] theorem State.expandOnEntry_pwlen (s : State) : (s.expandOnEntry).pwlen = s.pwlen := rfl
@[simp] theorem State.expandOnEntry_outlen (s : State) : (s.expandOnEntry).outlen = s.outlen := rfl
@[simp] theorem State.expandOnEntry_result (s : State) : (s.expandOnEntry).result = s.result := rfl
@[simp] theorem State.expandOnEntry_key (s : State) : (s.expandOnEntry).key = s.key := rfl
@[simp] theorem State.expandOnEntry_iv (s : State) : (s.expandOnEntry).iv = s.iv := rfl
@[simp] theorem State.expandOnEntry_state (s : State) : (s.expandOnEntry).state = s.state := rfl
@[simp] theorem State.expandOnEntry_ksr (s : State) : (s.expandOnEntry).ksr = s.ksr := rfl
@[simp] theorem State.expandOnEntry_expkey (s : State) : (s.expandOnEntry).expkey = expandKey s.key := rfl
@[simp] theorem State.expandOnEntry_ram (s : State) : (s.expandOnEntry).ram = s.ram := rfl
@[simp] theorem State.expandOnEntry_bufSize (s : State) : (s.expandOnEntry).bufSize = s.bufSize := rfl
@[simp] theorem State.expandOnEntry_epoch (s : State) : (s.expandOnEntry).epoch = s.epoch := rfl
@[simp] theorem State.expandOnEntry_rngAnswers (s : State) : (s.expandOnEntry).rngAnswers = s.rngAnswers := rfl
@[simp] theorem State.expandOnEntry_draws (s : State) : (s.expandOnEntry).draws = s.draws := rfl
@[simp] theorem State.expandOnEntry_inReset (s : State) : (s.expandOnEntry).inReset = s.inReset := rfl
@[simp] theorem State.expandOnEntry_pending (s : State) : (s.expandOnEntry).pending = s.pending := rfl
@[simp] theorem State.expandOnEntry_readData (s : State) : (s.expandOnEntry).readData = s.readData := rfl

/-! ### `setKeystream` -/

@[simp] theorem State.setKeystream_ctrl (s : State) (b : Block) : (s.setKeystream b).ctrl = s.ctrl := rfl
@[simp] theorem State.setKeystream_status (s : State) (b : Block) : (s.setKeystream b).status = { s.status with ksValid := true } := rfl
@[simp] theorem State.setKeystream_cmd (s : State) (b : Block) : (s.setKeystream b).cmd = s.cmd := rfl
@[simp] theorem State.setKeystream_version (s : State) (b : Block) : (s.setKeystream b).version = s.version := rfl
@[simp] theorem State.setKeystream_len (s : State) (b : Block) : (s.setKeystream b).len = s.len := rfl
@[simp] theorem State.setKeystream_pwlen (s : State) (b : Block) : (s.setKeystream b).pwlen = s.pwlen := rfl
@[simp] theorem State.setKeystream_outlen (s : State) (b : Block) : (s.setKeystream b).outlen = s.outlen := rfl
@[simp] theorem State.setKeystream_result (s : State) (b : Block) : (s.setKeystream b).result = s.result := rfl
@[simp] theorem State.setKeystream_key (s : State) (b : Block) : (s.setKeystream b).key = s.key := rfl
@[simp] theorem State.setKeystream_iv (s : State) (b : Block) : (s.setKeystream b).iv = s.iv := rfl
@[simp] theorem State.setKeystream_state (s : State) (b : Block) : (s.setKeystream b).state = s.state := rfl
@[simp] theorem State.setKeystream_ksr (s : State) (b : Block) : (s.setKeystream b).ksr = b := rfl
@[simp] theorem State.setKeystream_expkey (s : State) (b : Block) : (s.setKeystream b).expkey = s.expkey := rfl
@[simp] theorem State.setKeystream_ram (s : State) (b : Block) : (s.setKeystream b).ram = s.ram := rfl
@[simp] theorem State.setKeystream_bufSize (s : State) (b : Block) : (s.setKeystream b).bufSize = s.bufSize := rfl
@[simp] theorem State.setKeystream_epoch (s : State) (b : Block) : (s.setKeystream b).epoch = s.epoch := rfl
@[simp] theorem State.setKeystream_rngAnswers (s : State) (b : Block) : (s.setKeystream b).rngAnswers = s.rngAnswers := rfl
@[simp] theorem State.setKeystream_draws (s : State) (b : Block) : (s.setKeystream b).draws = s.draws := rfl
@[simp] theorem State.setKeystream_inReset (s : State) (b : Block) : (s.setKeystream b).inReset = s.inReset := rfl
@[simp] theorem State.setKeystream_pending (s : State) (b : Block) : (s.setKeystream b).pending = s.pending := rfl
@[simp] theorem State.setKeystream_readData (s : State) (b : Block) : (s.setKeystream b).readData = s.readData := rfl

/-! ### `chooseIv` -/

@[simp] theorem State.chooseIv_ctrl (s : State) : s.chooseIv.ctrl = s.ctrl := by
  unfold State.chooseIv; split <;> rfl
@[simp] theorem State.chooseIv_status (s : State) : s.chooseIv.status = s.status := by
  unfold State.chooseIv; split <;> rfl
@[simp] theorem State.chooseIv_cmd (s : State) : s.chooseIv.cmd = s.cmd := by
  unfold State.chooseIv; split <;> rfl
@[simp] theorem State.chooseIv_version (s : State) : s.chooseIv.version = s.version := by
  unfold State.chooseIv; split <;> rfl
@[simp] theorem State.chooseIv_len (s : State) : s.chooseIv.len = s.len := by
  unfold State.chooseIv; split <;> rfl
@[simp] theorem State.chooseIv_pwlen (s : State) : s.chooseIv.pwlen = s.pwlen := by
  unfold State.chooseIv; split <;> rfl
@[simp] theorem State.chooseIv_outlen (s : State) : s.chooseIv.outlen = s.outlen := by
  unfold State.chooseIv; split <;> rfl
@[simp] theorem State.chooseIv_result (s : State) : s.chooseIv.result = s.result := by
  unfold State.chooseIv; split <;> rfl
@[simp] theorem State.chooseIv_key (s : State) : s.chooseIv.key = s.key := by
  unfold State.chooseIv; split <;> rfl
theorem State.chooseIv_iv (s : State) : s.chooseIv.iv = if s.ctrl.autoIv then s.nextDraw else s.iv := by
  unfold State.chooseIv; split <;> rfl
@[simp] theorem State.chooseIv_state (s : State) : s.chooseIv.state = s.state := by
  unfold State.chooseIv; split <;> rfl
@[simp] theorem State.chooseIv_ksr (s : State) : s.chooseIv.ksr = s.ksr := by
  unfold State.chooseIv; split <;> rfl
@[simp] theorem State.chooseIv_expkey (s : State) : s.chooseIv.expkey = s.expkey := by
  unfold State.chooseIv; split <;> rfl
@[simp] theorem State.chooseIv_ram (s : State) : s.chooseIv.ram = s.ram := by
  unfold State.chooseIv; split <;> rfl
@[simp] theorem State.chooseIv_bufSize (s : State) : s.chooseIv.bufSize = s.bufSize := by
  unfold State.chooseIv; split <;> rfl
@[simp] theorem State.chooseIv_epoch (s : State) : s.chooseIv.epoch = s.epoch := by
  unfold State.chooseIv; split <;> rfl
theorem State.chooseIv_rngAnswers (s : State) :
    s.chooseIv.rngAnswers = if s.ctrl.autoIv then s.rngAnswers.tail else s.rngAnswers := by
  unfold State.chooseIv; split <;> rfl
theorem State.chooseIv_draws (s : State) : s.chooseIv.draws = if s.ctrl.autoIv then s.draws + 1 else s.draws := by
  unfold State.chooseIv; split <;> rfl
@[simp] theorem State.chooseIv_inReset (s : State) : s.chooseIv.inReset = s.inReset := by
  unfold State.chooseIv; split <;> rfl
@[simp] theorem State.chooseIv_pending (s : State) : s.chooseIv.pending = s.pending := by
  unfold State.chooseIv; split <;> rfl
@[simp] theorem State.chooseIv_readData (s : State) : s.chooseIv.readData = s.readData := by
  unfold State.chooseIv; split <;> rfl

/-! ### `encryptStream` -/

@[simp] theorem State.encryptStream_ctrl (s : State) (p : List Byte) : (s.encryptStream p).ctrl = s.ctrl := rfl
@[simp] theorem State.encryptStream_status (s : State) (p : List Byte) : (s.encryptStream p).status =
      { s.status with ksValid := true } := rfl
@[simp] theorem State.encryptStream_cmd (s : State) (p : List Byte) : (s.encryptStream p).cmd = s.cmd := rfl
@[simp] theorem State.encryptStream_version (s : State) (p : List Byte) : (s.encryptStream p).version = s.version := rfl
@[simp] theorem State.encryptStream_len (s : State) (p : List Byte) : (s.encryptStream p).len = s.len := rfl
@[simp] theorem State.encryptStream_pwlen (s : State) (p : List Byte) : (s.encryptStream p).pwlen = s.pwlen := rfl
@[simp] theorem State.encryptStream_outlen (s : State) (p : List Byte) : (s.encryptStream p).outlen =
      BitVec.ofNat 32 (16 + 16 * (p.length / 16)) := rfl
@[simp] theorem State.encryptStream_result (s : State) (p : List Byte) : (s.encryptStream p).result = s.result := rfl
@[simp] theorem State.encryptStream_key (s : State) (p : List Byte) : (s.encryptStream p).key = s.key := rfl
@[simp] theorem State.encryptStream_iv (s : State) (p : List Byte) : (s.encryptStream p).iv = s.iv := rfl
@[simp] theorem State.encryptStream_state (s : State) (p : List Byte) : (s.encryptStream p).state = s.state := rfl
@[simp] theorem State.encryptStream_ksr (s : State) (p : List Byte) : (s.encryptStream p).ksr =
      (streamLoop s.expkey (p.length / 16) s.iv p).2 := rfl
@[simp] theorem State.encryptStream_expkey (s : State) (p : List Byte) : (s.encryptStream p).expkey = s.expkey := rfl
@[simp] theorem State.encryptStream_ram (s : State) (p : List Byte) : (s.encryptStream p).ram =
      Memory.setBytes s.ram Config.obufBase
        (s.iv.toList ++ (streamLoop s.expkey (p.length / 16) s.iv p).1) := rfl
@[simp] theorem State.encryptStream_bufSize (s : State) (p : List Byte) : (s.encryptStream p).bufSize = s.bufSize := rfl
@[simp] theorem State.encryptStream_epoch (s : State) (p : List Byte) : (s.encryptStream p).epoch = s.epoch := rfl
@[simp] theorem State.encryptStream_rngAnswers (s : State) (p : List Byte) : (s.encryptStream p).rngAnswers = s.rngAnswers := rfl
@[simp] theorem State.encryptStream_draws (s : State) (p : List Byte) : (s.encryptStream p).draws = s.draws := rfl
@[simp] theorem State.encryptStream_inReset (s : State) (p : List Byte) : (s.encryptStream p).inReset = s.inReset := rfl
@[simp] theorem State.encryptStream_pending (s : State) (p : List Byte) : (s.encryptStream p).pending = s.pending := rfl
@[simp] theorem State.encryptStream_readData (s : State) (p : List Byte) : (s.encryptStream p).readData = s.readData := rfl

/-! ### `decryptStream` -/

@[simp] theorem State.decryptStream_ctrl (s : State) (e : List Byte) : (s.decryptStream e).1.ctrl = s.ctrl := rfl
@[simp] theorem State.decryptStream_status (s : State) (e : List Byte) : (s.decryptStream e).1.status =
      { s.status with ksValid := true } := rfl
@[simp] theorem State.decryptStream_cmd (s : State) (e : List Byte) : (s.decryptStream e).1.cmd = s.cmd := rfl
@[simp] theorem State.decryptStream_version (s : State) (e : List Byte) : (s.decryptStream e).1.version = s.version := rfl
@[simp] theorem State.decryptStream_len (s : State) (e : List Byte) : (s.decryptStream e).1.len = s.len := rfl
@[simp] theorem State.decryptStream_pwlen (s : State) (e : List Byte) : (s.decryptStream e).1.pwlen = s.pwlen := rfl
@[simp] theorem State.decryptStream_outlen (s : State) (e : List Byte) : (s.decryptStream e).1.outlen = s.outlen := rfl
@[simp] theorem State.decryptStream_result (s : State) (e : List Byte) : (s.decryptStream e).1.result = s.result := rfl
@[simp] theorem State.decryptStream_key (s : State) (e : List Byte) : (s.decryptStream e).1.key = s.key := rfl
@[simp] theorem State.decryptStream_iv (s : State) (e : List Byte) : (s.decryptStream e).1.iv = s.iv := rfl
@[simp] theorem State.decryptStream_state (s : State) (e : List Byte) : (s.decryptStream e).1.state = s.state := rfl
@[simp] theorem State.decryptStream_ksr (s : State) (e : List Byte) : (s.decryptStream e).1.ksr =
      (streamLoop s.expkey ((e.length - 16) / 16) (envelopeIv e) (e.drop 16)).2 := rfl
@[simp] theorem State.decryptStream_expkey (s : State) (e : List Byte) : (s.decryptStream e).1.expkey = s.expkey := rfl
@[simp] theorem State.decryptStream_ram (s : State) (e : List Byte) : (s.decryptStream e).1.ram =
      Memory.setBytes s.ram Config.obufBase (s.decryptStream e).2 := rfl
@[simp] theorem State.decryptStream_bufSize (s : State) (e : List Byte) : (s.decryptStream e).1.bufSize = s.bufSize := rfl
@[simp] theorem State.decryptStream_epoch (s : State) (e : List Byte) : (s.decryptStream e).1.epoch = s.epoch := rfl
@[simp] theorem State.decryptStream_rngAnswers (s : State) (e : List Byte) : (s.decryptStream e).1.rngAnswers = s.rngAnswers := rfl
@[simp] theorem State.decryptStream_draws (s : State) (e : List Byte) : (s.decryptStream e).1.draws = s.draws := rfl
@[simp] theorem State.decryptStream_inReset (s : State) (e : List Byte) : (s.decryptStream e).1.inReset = s.inReset := rfl
@[simp] theorem State.decryptStream_pending (s : State) (e : List Byte) : (s.decryptStream e).1.pending = s.pending := rfl
@[simp] theorem State.decryptStream_readData (s : State) (e : List Byte) : (s.decryptStream e).1.readData = s.readData := rfl

/-! ### `STATUS` -/

@[simp] theorem Status.succeed_keyValid (t : Status) (p : Path) : (t.succeed p).keyValid = t.keyValid := rfl
@[simp] theorem Status.succeed_ksValid (t : Status) (p : Path) : (t.succeed p).ksValid = t.ksValid := rfl
@[simp] theorem Status.succeed_err (t : Status) (p : Path) : (t.succeed p).err = false := rfl
@[simp] theorem Status.succeed_path (t : Status) (p : Path) : (t.succeed p).path = p := rfl
@[simp] theorem Status.succeed_errCode (t : Status) (p : Path) : (t.succeed p).errCode = .ok := rfl
@[simp] theorem Status.fail_keyValid (t : Status) (c : ErrCode) (p : Path) : (t.fail c p).keyValid = t.keyValid := rfl
@[simp] theorem Status.fail_ksValid (t : Status) (c : ErrCode) (p : Path) : (t.fail c p).ksValid = t.ksValid := rfl
@[simp] theorem Status.fail_err (t : Status) (c : ErrCode) (p : Path) : (t.fail c p).err = true := rfl
@[simp] theorem Status.fail_path (t : Status) (c : ErrCode) (p : Path) : (t.fail c p).path = p := rfl
@[simp] theorem Status.fail_errCode (t : Status) (c : ErrCode) (p : Path) : (t.fail c p).errCode = c := rfl

/-! ### How a sub-procedure ends -/

@[simp] theorem Ending.conclude_done (s : State) (p : Path) : (Ending.done s).conclude p = s.finish p := rfl
@[simp] theorem Ending.conclude_failed (c : ErrCode) (s : State) (p : Path) :
    (Ending.failed c s).conclude p = s.raiseError c p := rfl
@[simp] theorem State.failBuf_eq (s : State) (c : ErrCode) : s.failBuf c = .failed c { s with outlen := 0 } := rfl

end Sys2Proof.Machine
end

