-- ==== Sys2Proof/Laws/Bus.lean ====
section
/-! SUPPORT. Where the address map puts an offset (R52), and what it says of an offset that is found. -/

namespace Sys2Proof.Machine

/-- What a found offset lies in. -/
theorem lookup_some {rows : List MapRow} {off k : Nat} {g : Target} (h : lookup rows off = some (g, k)) :
    ∃ r ∈ rows, r.target = g ∧ r.base ≤ off ∧ off < r.base + r.size ∧ k = off - r.base := by
  induction rows with
  | nil => cases h
  | cons r rs ih =>
    simp only [lookup] at h
    split at h
    · cases h
      exact ⟨r, by simp, rfl, by omega, by omega, rfl⟩
    · obtain ⟨r', hr, h'⟩ := ih h
      exact ⟨r', by simp [hr], h'⟩

theorem lookup_none {rows : List MapRow} {off : Nat} (h : ∀ r ∈ rows, ¬ (r.base ≤ off ∧ off < r.base + r.size)) :
    lookup rows off = none := by
  induction rows with
  | nil => rfl
  | cons r rs ih =>
    simp only [lookup, if_neg (h r (by simp))]
    exact ih fun r' hr => h r' (by simp [hr])

/-- The row that holds an offset decides, when no earlier row holds it. -/
theorem lookup_append {before after : List MapRow} {r : MapRow} {off : Nat}
    (hb : ∀ q ∈ before, ¬ (q.base ≤ off ∧ off < q.base + q.size)) (hr : r.base ≤ off ∧ off < r.base + r.size) :
    lookup (before ++ r :: after) off = some (r.target, off - r.base) := by
  induction before with
  | nil => simp only [List.nil_append, lookup, if_pos hr]
  | cons q qs ih =>
    simp only [List.cons_append, lookup, if_neg (hb q (by simp))]
    exact ih fun q' hq => hb q' (by simp [hq])

/-- The rows of the map, as inequalities. -/
theorem State.locate_some {s : State} {off k : Nat} {g : Target} (h : s.locate off = some (g, k)) :
    (∃ r, g = .reg r ∧ off = k + r.offset ∧ k < 4) ∨
    (∃ w, g = .window w ∧ off = w.offset + k ∧
      k < (match w with
        | .key => 32 | .iv => 16 | .state => 16 | .ksr => 16 | .expkey => 240 | .pw => 256
        | .ibuf => s.bufSize.bytes | .obuf => s.bufSize.bytes + 32)) := by
  obtain ⟨r, hr, hg, h1, h2, h3⟩ := lookup_some h
  simp only [addressMap, List.mem_cons, List.not_mem_nil, or_false] at hr
  rcases hr with hr | hr | hr | hr | hr | hr | hr | hr | hr | hr | hr | hr | hr | hr | hr | hr | hr <;> subst hr <;>
    dsimp only at hg h1 h2 h3 <;> subst hg
  · exact .inl ⟨.id, rfl, by simp only [Reg.offset]; omega, by omega⟩
  · exact .inl ⟨.ctrl, rfl, by simp only [Reg.offset]; omega, by omega⟩
  · exact .inl ⟨.status, rfl, by simp only [Reg.offset]; omega, by omega⟩
  · exact .inl ⟨.cmd, rfl, by simp only [Reg.offset]; omega, by omega⟩
  · exact .inl ⟨.version, rfl, by simp only [Reg.offset]; omega, by omega⟩
  · exact .inl ⟨.len, rfl, by simp only [Reg.offset]; omega, by omega⟩
  · exact .inl ⟨.pwlen, rfl, by simp only [Reg.offset]; omega, by omega⟩
  · exact .inl ⟨.outlen, rfl, by simp only [Reg.offset]; omega, by omega⟩
  · exact .inl ⟨.result, rfl, by simp only [Reg.offset]; omega, by omega⟩
  · exact .inr ⟨.key, rfl, by simp only [Window.offset]; omega, by dsimp only; omega⟩
  · exact .inr ⟨.iv, rfl, by simp only [Window.offset]; omega, by dsimp only; omega⟩
  · exact .inr ⟨.state, rfl, by simp only [Window.offset]; omega, by dsimp only; omega⟩
  · exact .inr ⟨.ksr, rfl, by simp only [Window.offset]; omega, by dsimp only; omega⟩
  · exact .inr ⟨.expkey, rfl, by simp only [Window.offset]; omega, by dsimp only; omega⟩
  · exact .inr ⟨.pw, rfl, by simp only [Window.offset]; omega, by simp only [Config.pwMax] at h2; dsimp only; omega⟩
  · exact .inr ⟨.ibuf, rfl, by simp only [Window.offset]; omega, by dsimp only; omega⟩
  · exact .inr ⟨.obuf, rfl, by simp only [Window.offset]; omega, by dsimp only; omega⟩

/-! ### Each register and window is found at its offset -/

theorem State.locate_reg (s : State) (r : Reg) : s.locate r.offset = some (.reg r, 0) := by
  cases r <;> rfl

theorem State.locate_window (s : State) (w : Window) {k : Nat}
    (hk : k < (match w with
        | .key => 32 | .iv => 16 | .state => 16 | .ksr => 16 | .expkey => 240 | .pw => 256
        | .ibuf => s.bufSize.bytes | .obuf => s.bufSize.bytes + 32)) :
    s.locate (w.offset + k) = some (.window w, k) := by
  have h1 := s.bufSize.atMost
  have h2 := s.bufSize.atLeast
  cases w <;> dsimp only at hk <;>
    simp only [State.locate, addressMap, lookup, Window.offset, Config.pwBase, Config.pwMax, Config.ibufBase,
      Config.obufBase] <;>
    (repeat refine (if_neg (by omega)).trans ?_) <;> refine (if_pos (by omega)).trans ?_ <;>
    simp only [Nat.add_sub_cancel_left]

/-! ### Host reads and writes of windows -/

theorem readWord_window (s : State) (w : Window) {k : Nat}
    (hk : k < (match w with
        | .key => 32 | .iv => 16 | .state => 16 | .ksr => 16 | .expkey => 240 | .pw => 256
        | .ibuf => s.bufSize.bytes | .obuf => s.bufSize.bytes + 32)) :
    s.readWord (w.offset + k) = s.readWindow w k := by
  simp only [State.readWord, s.locate_window w hk]

theorem writeWord_window (s : State) (w : Window) (v : Word) {k : Nat}
    (hk : k < (match w with
        | .key => 32 | .iv => 16 | .state => 16 | .ksr => 16 | .expkey => 240 | .pw => 256
        | .ibuf => s.bufSize.bytes | .obuf => s.bufSize.bytes + 32)) :
    writeWord (w.offset + k) v s = .next (s.writeWindow w k v) := by
  simp only [writeWord, s.locate_window w hk]

theorem byteOf_readWindow (s : State) (w : Window) (k : Nat) {j : Nat} (hj : j < 4) :
    byteOf (s.readWindow w k) j = s.windowByte w (k + j) :=
  byteOf_wordOf (fun j => s.windowByte w (k + j)) hj

/-- A byte after a word was written to the memory at offset `a` (R53). -/
theorem State.byteAt_setWord (s t : State) (a : Nat) (v : Word) (hr : t.ram = Memory.setBytes s.ram a (wordBytes v))
    (he : t.epoch = s.epoch) (y : Nat) :
    t.byteAt y = if a ≤ y ∧ y < a + 4 then byteOf v (y - a) else s.byteAt y := by
  rw [State.byteAt_setBytes s t a _ hr he, length_wordBytes]
  by_cases h : a ≤ y ∧ y < a + 4
  · rw [if_pos h, if_pos h, getD_wordBytes _ (by omega)]
  · rw [if_neg h, if_neg h]

/-! ### Running a command word -/

theorem writeWord_cmd (v : Word) (s : State) : writeWord 0x000C v s = runCommand v s := by
  have := s.locate_reg .cmd
  simp only [Reg.offset] at this
  simp only [writeWord, this]

theorem runCommand_of_decode {v : Word} {i : Instr} {s : State} (h : decode v = .ok i) :
    runCommand v s = exec i { s with cmd := v } := by
  simp only [runCommand, h, State.writeReg]

theorem runCommand_of_illegal {v : Word} {e : DecodeError} {s : State} (h : decode v = .error e) :
    runCommand v s = .next (State.raiseError { s with cmd := v } .illegal .none) := by
  simp only [runCommand, h, State.writeReg]

end Sys2Proof.Machine
end

