-- ==== Sys2Proof/Laws/Stream.lean ====
section
/-! SUPPORT. What the shared stream operations do, said once: padding, the keystream loop, and the three sub-procedures
`StreamEnc`, `StreamDec` and `XorRun`. -/

namespace Sys2Proof.Machine

/-! ### Padding -/

theorem length_padCur (p : List Byte) : (padCur p).length = 16 * (p.length / 16 + 1) := by
  simp only [padCur, List.length_append, List.length_replicate]
  omega

/-- The formulas of the two schemes give the same bytes (R162). -/
theorem padOld_eq (p : List Byte) : padOld p = padCur p := by
  have h : (p.drop (16 * (p.length / 16))).take (p.length % 16) = p.drop (16 * (p.length / 16)) := by
    apply List.take_of_length_le
    simp only [List.length_drop]
    omega
  simp only [padOld, padCur, h]
  rw [← List.append_assoc, List.take_append_drop]

/-! ### The keystream loop -/

theorem keystreamBlock_cipher (fb : Block) (w : ExpandedKey) (i : Nat) :
    keystreamBlock (cipher fb w) w i = keystreamBlock fb w (i + 1) := by
  induction i with
  | zero => rfl
  | succ i ih => simp only [keystreamBlock, ih]

theorem length_streamLoop (w : ExpandedKey) (n : Nat) (fb : Block) (d : List Byte) (h : 16 * n ≤ d.length) :
    (streamLoop w n fb d).1.length = 16 * n := by
  induction n generalizing fb d with
  | zero => simp [streamLoop]
  | succ n ih =>
    simp only [streamLoop, List.length_append, List.length_zipWith, List.length_take, Bytes.length_toList]
    rw [ih _ _ (by simp only [List.length_drop]; omega)]
    omega

theorem streamLoop_last (w : ExpandedKey) (n : Nat) (fb : Block) (d : List Byte) :
    (streamLoop w (n + 1) fb d).2 = keystreamBlock fb w n := by
  induction n generalizing fb d with
  | zero => simp only [streamLoop, keystreamBlock]
  | succ n ih =>
    rw [streamLoop]
    dsimp only
    rw [ih, keystreamBlock_cipher]

/-- "`ciphertext_block_i = plaintext_block_i XOR keystream_i`" (R163). -/
theorem getD_streamLoop (w : ExpandedKey) (n : Nat) (fb : Block) (d : List Byte) (h : 16 * n ≤ d.length) {i j : Nat}
    (hi : i < n) (hj : j < 16) :
    (streamLoop w n fb d).1.getD (16 * i + j) 0 = d.getD (16 * i + j) 0 ^^^ (keystreamBlock fb w i).get j := by
  induction n generalizing fb d i with
  | zero => omega
  | succ n ih =>
    have hl : (List.zipWith (· ^^^ ·) (d.take 16) (cipher fb w).toList).length = 16 := by
      simp only [List.length_zipWith, List.length_take, Bytes.length_toList]; omega
    simp only [streamLoop, List.getD_eq_getElem?_getD]
    cases i with
    | zero =>
      rw [List.getElem?_append_left (by omega)]
      simp only [keystreamBlock, Bytes.get, List.getD_eq_getElem?_getD]
      have h2 : j < d.length := by omega
      simp [hj, h2]
    | succ i =>
      rw [List.getElem?_append_right (by omega), hl, show 16 * (i + 1) + j - 16 = 16 * i + j by omega,
        ← List.getD_eq_getElem?_getD, ih _ _ (by simp only [List.length_drop]; omega) (by omega),
        keystreamBlock_cipher]
      congr 1
      simp only [List.getD_eq_getElem?_getD, List.getElem?_drop]
      congr 2
      omega

/-! ### `StreamEnc` -/

/-- `StreamEnc` fails its one pre-check, or it runs (R175). -/
theorem streamEnc_cases (padfn : List Byte → List Byte) (s : State) :
    (s.bufSize.bytes < s.len.toNat ∧ streamEnc padfn s = .failed .len { s with outlen := 0 }) ∨
    (s.len.toNat ≤ s.bufSize.bytes ∧
      streamEnc padfn s = .done (s.chooseIv.expandOnEntry.encryptStream (padfn (s.ibufBytes s.len.toNat)))) := by
  by_cases h : s.bufSize.bytes < s.len.toNat
  · exact .inl ⟨h, by simp [streamEnc, h]⟩
  · refine .inr ⟨by omega, ?_⟩
    have : s.chooseIv.expandOnEntry.ibufBytes s.len.toNat = s.ibufBytes s.len.toNat :=
      State.bytesAt_congr fun i _ => State.byteAt_of_ram_epoch (by simp) (by simp) _
    simp [streamEnc, h, this]

/-- A byte of memory after an encrypt: the envelope in `OBUF`, and no other byte changed (R175). -/
theorem State.byteAt_encryptStream (s : State) (p : List Byte) (a : Nat) :
    (s.encryptStream p).byteAt a =
      if Config.obufBase ≤ a ∧
          a < Config.obufBase + (s.iv.toList ++ (streamLoop s.expkey (p.length / 16) s.iv p).1).length then
        (s.iv.toList ++ (streamLoop s.expkey (p.length / 16) s.iv p).1).getD (a - Config.obufBase) 0
      else s.byteAt a :=
  State.byteAt_setBytes s (s.encryptStream p) _ _ rfl rfl a

/-! ### `StreamDec` -/

/-- `StreamDec` fails a pre-check, fails its late check, or succeeds (R176). -/
theorem streamDec_cases (s : State) :
    (s.bufSize.bytes < s.len.toNat ∧ streamDec s = .failed .len { s with outlen := 0 }) ∨
    (s.len.toNat ≤ s.bufSize.bytes ∧ (s.len.toNat < 32 ∨ s.len.toNat % 16 ≠ 0) ∧
      streamDec s = .failed .envelope { s with outlen := 0 }) ∨
    (s.len.toNat ≤ s.bufSize.bytes ∧ 32 ≤ s.len.toNat ∧ s.len.toNat % 16 = 0 ∧
      ∃ d, d = s.expandOnEntry.decryptStream (s.ibufBytes s.len.toNat) ∧
        ((unpadLen d.2 = none ∧ streamDec s = .failed .padding { d.1 with outlen := 0 }) ∨
          ∃ m, unpadLen d.2 = some m ∧ streamDec s = .done { d.1 with outlen := BitVec.ofNat 32 m })) := by
  by_cases h : s.bufSize.bytes < s.len.toNat
  · exact .inl ⟨h, by simp [streamDec, h]⟩
  by_cases h2 : s.len.toNat < 32 ∨ s.len.toNat % 16 ≠ 0
  · exact .inr (.inl ⟨by omega, h2, by simp only [streamDec, h, h2, if_true, if_false, State.failBuf_eq]⟩)
  refine .inr (.inr ⟨by omega, by omega, by omega, _, rfl, ?_⟩)
  have h3 : s.expandOnEntry.ibufBytes s.len.toNat = s.ibufBytes s.len.toNat :=
    State.bytesAt_congr fun i _ => State.byteAt_of_ram_epoch (by simp) (by simp) _
  cases h4 : unpadLen (s.expandOnEntry.decryptStream (s.ibufBytes s.len.toNat)).2 with
  | none => exact .inl ⟨rfl, by simp only [streamDec, h, h2, if_false, h3, h4, State.failBuf_eq]⟩
  | some m => exact .inr ⟨m, rfl, by simp only [streamDec, h, h2, if_false, h3, h4]⟩

/-- The unpadded length never exceeds the padded length (R161). -/
theorem unpadLen_le {q : List Byte} {m : Nat} (h : unpadLen q = some m) : m < q.length ∨ q.length = 0 ∧ m = 0 := by
  simp only [unpadLen] at h
  split at h
  · cases h
  · split at h
    · cases h
    · cases h; omega

/-! ### `XorRun` -/

@[simp] theorem length_xorCipher (k t : List Byte) : (xorCipher k t).length = t.length := by
  simp [xorCipher]

theorem getD_xorCipher (k t : List Byte) {i : Nat} (h : i < t.length) :
    (xorCipher k t).getD i 0 = t.getD i 0 ^^^ k.getD (i % k.length) 0 := by
  simp [xorCipher, List.getD_eq_getElem?_getD, h]

/-- `XorRun` fails one of its pre-checks, or it runs (R201). -/
theorem xorRun_cases (s : State) :
    (s.bufSize.bytes < s.len.toNat ∧ xorRun s = .failed .len { s with outlen := 0 }) ∨
    (s.len.toNat ≤ s.bufSize.bytes ∧ (s.pwlen.toNat = 0 ∨ Config.pwMax < s.pwlen.toNat) ∧
      xorRun s = .failed .pwlen { s with outlen := 0 }) ∨
    (s.len.toNat ≤ s.bufSize.bytes ∧ 1 ≤ s.pwlen.toNat ∧ s.pwlen.toNat ≤ Config.pwMax ∧
      xorRun s = .done { s.writeObuf (xorCipher (s.pwBytes s.pwlen.toNat) (s.ibufBytes s.len.toNat)) with
        outlen := BitVec.ofNat 32 s.len.toNat }) := by
  by_cases h : s.bufSize.bytes < s.len.toNat
  · exact .inl ⟨h, by simp [xorRun, h]⟩
  by_cases h2 : s.pwlen.toNat = 0 ∨ Config.pwMax < s.pwlen.toNat
  · exact .inr (.inl ⟨by omega, h2, by simp only [xorRun, h, h2, if_true, if_false, State.failBuf_eq]⟩)
  · exact .inr (.inr ⟨by omega, by omega, by omega, by simp only [xorRun, h, h2, if_false]⟩)

/-! ### What the two stream wrappers leave in `OBUF` -/

theorem getD_padCur (p : List Byte) {k : Nat} (hk : k < (padCur p).length) :
    (padCur p).getD k 0 = if k < p.length then p.getD k 0 else BitVec.ofNat 8 (16 - p.length % 16) := by
  rw [length_padCur] at hk
  rw [padCur]
  split
  · rw [List.getD_eq_getElem?_getD, List.getElem?_append_left ‹_›, List.getD_eq_getElem?_getD]
  · rw [List.getD_eq_getElem?_getD, List.getElem?_append_right (by omega), List.getElem?_replicate, if_pos (by omega)]
    rfl

/-- The bytes of memory after an encrypt: the IV, the ciphertext, and everything else as it was (R175). -/
theorem State.encryptStream_bytes (s : State) (p : List Byte) (hp : p.length % 16 = 0) :
    (∀ j, j < 16 → (s.encryptStream p).byteAt (0x2000 + j) = s.iv.get j) ∧
    (∀ k, k < p.length → (s.encryptStream p).byteAt (0x2010 + k) =
      p.getD k 0 ^^^ (keystreamBlock s.iv s.expkey (k / 16)).get (k % 16)) ∧
    ∀ a, ¬ (0x2000 ≤ a ∧ a < 0x2010 + p.length) → (s.encryptStream p).byteAt a = s.byteAt a := by
  have hl : (streamLoop s.expkey (p.length / 16) s.iv p).1.length = p.length := by
    rw [length_streamLoop _ _ _ _ (by omega)]
    omega
  have hb := s.byteAt_encryptStream p
  simp only [List.length_append, Bytes.length_toList, hl, Config.obufBase] at hb
  refine ⟨fun j hj => ?_, fun k hk => ?_, fun a ha => ?_⟩
  · rw [hb, if_pos (by omega), show 0x2000 + j - 0x2000 = j by omega, List.getD_eq_getElem?_getD,
      List.getElem?_append_left (by simpa using hj), Bytes.get, List.getD_eq_getElem?_getD]
  · rw [hb, if_pos (by omega), List.getD_eq_getElem?_getD, List.getElem?_append_right (by simp; omega),
      Bytes.length_toList, ← List.getD_eq_getElem?_getD]
    have := getD_streamLoop s.expkey (p.length / 16) s.iv p (by omega) (i := k / 16) (j := k % 16) (by omega) (by omega)
    rw [show 16 * (k / 16) + k % 16 = k by omega] at this
    rw [show 0x2010 + k - 0x2000 - 16 = k by omega, this]
  · rw [hb, if_neg (by omega)]

/-- What a decrypt answers and leaves in memory, before its late check (R176). -/
theorem State.decryptStream_bytes (s : State) (e : List Byte) (he : e.length % 16 = 0) (he2 : 32 ≤ e.length) :
    (s.decryptStream e).2.length = e.length - 16 ∧
    (∀ k, k < e.length - 16 → (s.decryptStream e).2.getD k 0 =
      e.getD (16 + k) 0 ^^^ (keystreamBlock (envelopeIv e) s.expkey (k / 16)).get (k % 16)) ∧
    (s.decryptStream e).1.ksr = keystreamBlock (envelopeIv e) s.expkey (e.length / 16 - 2) ∧
    (∀ k, k < e.length - 16 → (s.decryptStream e).1.byteAt (0x2000 + k) = (s.decryptStream e).2.getD k 0) ∧
    ∀ a, ¬ (0x2000 ≤ a ∧ a < 0x2000 + (e.length - 16)) → (s.decryptStream e).1.byteAt a = s.byteAt a := by
  have hl : (s.decryptStream e).2.length = e.length - 16 := by
    rw [State.decryptStream, length_streamLoop _ _ _ _ (by rw [List.length_drop]; omega)]
    omega
  have hb := State.byteAt_setBytes s (s.decryptStream e).1 Config.obufBase (s.decryptStream e).2 (by simp) (by simp)
  simp only [hl, Config.obufBase] at hb
  refine ⟨hl, fun k hk => ?_, ?_, fun k hk => ?_, fun a ha => ?_⟩
  · have := getD_streamLoop s.expkey ((e.length - 16) / 16) (envelopeIv e) (e.drop 16)
      (by rw [List.length_drop]; omega) (i := k / 16) (j := k % 16) (by omega) (by omega)
    rw [show 16 * (k / 16) + k % 16 = k by omega] at this
    rw [State.decryptStream]
    refine this.trans ?_
    congr 1
    simp [List.getD_eq_getElem?_getD]
  · rw [State.decryptStream_ksr, show (e.length - 16) / 16 = (e.length / 16 - 2) + 1 by omega, streamLoop_last]
  · rw [hb, if_pos (by omega), show 0x2000 + k - 0x2000 = k by omega]
  · rw [hb, if_neg (by omega)]

/-- The envelope's IV is the first 16 bytes of `IBUF` (R164). -/
theorem envelopeIv_ibufBytes (s : State) {n : Nat} (hn : 16 ≤ n) :
    envelopeIv (s.ibufBytes n) = .tab 16 fun j => s.byteAt (0x1000 + j) := by
  apply Bytes.ext_get
  intro j hj
  rw [envelopeIv, Bytes.get_tab_of_lt _ hj, Bytes.get_tab_of_lt _ hj, State.ibufBytes,
    State.getD_bytesAt _ (by omega)]
  rfl

/-! ### The commands that run the sub-procedures -/

theorem exec_of_runsStreamEnc {i : Instr} {p : Path} (s : State) (h : RunsStreamEnc i p) :
    exec i s = .next ((streamEnc padCur s).conclude p) := by
  have : padOld = padCur := funext padOld_eq
  rcases h with ⟨rfl, rfl⟩ | ⟨rfl, rfl⟩ | ⟨rfl, rfl⟩
  · rfl
  · simp only [exec, execEncOld, this]
  · rfl

theorem exec_of_runsStreamDec {i : Instr} {p : Path} {s : State} (hl : s.len.toNat ≤ s.bufSize.bytes)
    (h : RunsStreamDec i s p) : exec i s = .next ((streamDec s).conclude p) := by
  rcases h with ⟨rfl, rfl⟩ | ⟨rfl, rfl⟩ | ⟨rfl, h, rfl⟩ | ⟨rfl, h, rfl, h2⟩
  · rfl
  · rfl
  · simp only [exec, execDecrypt]
    rw [if_neg (by omega), if_neg (by omega), if_pos h]
  · simp only [exec, execDecrypt]
    rw [if_neg (by omega), if_neg (by omega), if_neg (by omega), decryptLegacy]
    have : route0 s.ctrl.legacyRoute (s.ibufBytes s.len.toNat) = some .aesOld := by
      rcases h2 with h2 | ⟨h2, h3⟩ <;> simp [route0, *]
    rw [this]

theorem exec_of_runsXorRun {i : Instr} {p : Path} {s : State} (hl : s.len.toNat ≤ s.bufSize.bytes)
    (h : RunsXorRun i s p) : exec i s = .next ((xorRun s).conclude p) := by
  rcases h with ⟨rfl, rfl⟩ | ⟨rfl, h, rfl, h2⟩
  · rfl
  · simp only [exec, execDecrypt]
    rw [if_neg (by omega), if_neg (by omega), if_neg (by omega), decryptLegacy]
    have : route0 s.ctrl.legacyRoute (s.ibufBytes s.len.toNat) = some .xor := by
      rcases h2 with h2 | ⟨h2, h3⟩ <;> simp [route0, *]
    rw [this]

end Sys2Proof.Machine
end

