-- ==== Sys2Proof/Laws/Commands.lean ====
section
/-! SUPPORT. What a command can do, said once: every next state `exec` answers, by the shape of its update. A proof about all
commands goes through these two lemmas and unfolds no meaning. -/

namespace Sys2Proof.Machine

/-! ### How the sub-procedures end -/

theorem streamEnc_conclude (s : State) (p : Path) :
    (s.bufSize.bytes < s.len.toNat ∧
      (streamEnc padCur s).conclude p = { s with outlen := 0, status := s.status.fail .len p }) ∨
    (s.len.toNat ≤ s.bufSize.bytes ∧
      (streamEnc padCur s).conclude p =
        (s.chooseIv.expandOnEntry.encryptStream (padCur (s.ibufBytes s.len.toNat))).finish p) := by
  rcases streamEnc_cases padCur s with ⟨h, h'⟩ | ⟨h, h'⟩
  · exact .inl ⟨h, by rw [h']; rfl⟩
  · exact .inr ⟨h, by rw [h']; rfl⟩

theorem streamDec_conclude (s : State) (p : Path) :
    (s.bufSize.bytes < s.len.toNat ∧
      (streamDec s).conclude p = { s with outlen := 0, status := s.status.fail .len p }) ∨
    (s.len.toNat ≤ s.bufSize.bytes ∧
      (streamDec s).conclude p = { s with outlen := 0, status := s.status.fail .envelope p }) ∨
    (s.len.toNat ≤ s.bufSize.bytes ∧ 32 ≤ s.len.toNat ∧ s.len.toNat % 16 = 0 ∧
      ∃ u b, u = (s.expandOnEntry.decryptStream (s.ibufBytes s.len.toNat)).1 ∧ b.length ≤ s.len.toNat - 16 ∧
        u.ram = Memory.setBytes s.ram Config.obufBase b ∧
        ((streamDec s).conclude p = { u with outlen := 0, status := u.status.fail .padding p } ∨
          ∃ m, m ≤ s.len.toNat - 16 ∧
            (streamDec s).conclude p = { u with outlen := BitVec.ofNat 32 m, status := u.status.succeed p })) := by
  rcases streamDec_cases s with ⟨h, h'⟩ | ⟨h, _, h'⟩ | ⟨h0, h1, h2, d, hd, hh⟩
  · exact .inl ⟨h, by rw [h']; rfl⟩
  · exact .inr (.inl ⟨h, by rw [h']; rfl⟩)
  · have hl : d.2.length = s.len.toNat - 16 := by
      rw [hd, State.decryptStream,
        length_streamLoop _ _ _ _ (by rw [List.length_drop, State.length_ibufBytes]; omega), State.length_ibufBytes]
      omega
    refine .inr (.inr ⟨h0, h1, h2, _, d.2, rfl, by omega, by rw [hd]; rfl, ?_⟩)
    rcases hh with ⟨hu, h'⟩ | ⟨m, hu, h'⟩
    · exact .inl (by rw [h', hd]; rfl)
    · refine .inr ⟨m, ?_, by rw [h', hd]; rfl⟩
      rcases unpadLen_le hu with h | h <;> omega

theorem xorRun_conclude (s : State) (p : Path) :
    (s.bufSize.bytes < s.len.toNat ∧
      (xorRun s).conclude p = { s with outlen := 0, status := s.status.fail .len p }) ∨
    (s.len.toNat ≤ s.bufSize.bytes ∧
      (xorRun s).conclude p = { s with outlen := 0, status := s.status.fail .pwlen p }) ∨
    (s.len.toNat ≤ s.bufSize.bytes ∧ ∃ b, b.length = s.len.toNat ∧
      (xorRun s).conclude p = { s with
        ram := Memory.setBytes s.ram Config.obufBase b, outlen := s.len, status := s.status.succeed p }) := by
  rcases xorRun_cases s with ⟨h, h'⟩ | ⟨h, _, h'⟩ | ⟨h0, h1, h2, h'⟩
  · exact .inl ⟨h, by rw [h']; rfl⟩
  · exact .inr (.inl ⟨h, by rw [h']; rfl⟩)
  · refine .inr (.inr ⟨h0, xorCipher (s.pwBytes s.pwlen.toNat) (s.ibufBytes s.len.toNat), by simp, ?_⟩)
    rw [h']
    simp [State.writeObuf, State.finish]

/-- `DECRYPT` by its cases, in the order of rule R212. -/
theorem execDecrypt_cases (s : State) : ∃ t, exec .decrypt s = .next t ∧
    ((s.bufSize.bytes < s.len.toNat ∧ t = { s with outlen := 0, status := s.status.fail .len .none }) ∨
     (s.len.toNat ≤ s.bufSize.bytes ∧ signed32 s.version < 0 ∧
        t = { s with outlen := 0, status := s.status.fail .version .none }) ∨
     (s.len.toNat ≤ s.bufSize.bytes ∧ 1 ≤ signed32 s.version ∧ t = (streamDec s).conclude .current) ∨
     (s.len.toNat ≤ s.bufSize.bytes ∧ signed32 s.version = 0 ∧ s.ctrl.legacyRoute = .unset ∧
        t = { s with outlen := 0, status := s.status.fail .route .none }) ∨
     (s.len.toNat ≤ s.bufSize.bytes ∧ signed32 s.version = 0 ∧ s.ctrl.legacyRoute ≠ .unset ∧
        t = (streamDec s).conclude .legacyAes) ∨
     (s.len.toNat ≤ s.bufSize.bytes ∧ signed32 s.version = 0 ∧ s.ctrl.legacyRoute ≠ .unset ∧
        t = (xorRun s).conclude .legacyXor)) := by
  simp only [exec, execDecrypt]
  split
  · exact ⟨_, rfl, .inl ⟨‹_›, rfl⟩⟩
  split
  · exact ⟨_, rfl, .inr (.inl ⟨by omega, ‹_›, rfl⟩)⟩
  split
  · exact ⟨_, rfl, .inr (.inr (.inl ⟨by omega, ‹_›, rfl⟩))⟩
  have h1 : s.len.toNat ≤ s.bufSize.bytes := by omega
  have h2 : signed32 s.version = 0 := by omega
  refine ⟨_, rfl, .inr (.inr (.inr ?_))⟩
  unfold decryptLegacy
  cases hf : s.ctrl.legacyRoute <;> simp only [route0]
  · exact .inr (.inr (by simp [h1, h2]))
  · exact .inr (.inl (by simp [h1, h2]))
  · cases Config.aesCapable (s.ibufBytes s.len.toNat)
    · exact .inr (.inr (by simp [h1, h2]))
    · exact .inr (.inl (by simp [h1, h2]))
  · exact .inl ⟨h1, h2, trivial, rfl⟩

/-! ### Buffer commands -/

/-- The ways a buffer command can end (R173, R231, R234). -/
inductive BufferEffect (i : Instr) (s t : State) : Prop where
  /-- A pre-check failed. -/
  | early (c : ErrCode) (p : Path) (hok : c ≠ .ok) (hpad : c ≠ .padding)
      (h : t = { s with outlen := 0, status := s.status.fail c p })
  /-- It encrypted. -/
  | encrypted (p : Path) (hm : i.mnemonic ∈ [.encCur, .encOld, .encrypt]) (hl : s.len.toNat ≤ s.bufSize.bytes)
      (h : t = (s.chooseIv.expandOnEntry.encryptStream (padCur (s.ibufBytes s.len.toNat))).finish p)
  /-- It decrypted, and its late check failed or not. -/
  | decrypted (p : Path) (u : State) (b : List Byte) (hm : i.mnemonic ∈ [.decCur, .decOld, .decrypt])
      (hl : s.len.toNat ≤ s.bufSize.bytes) (h32 : 32 ≤ s.len.toNat) (h16 : s.len.toNat % 16 = 0)
      (hu : u = (s.expandOnEntry.decryptStream (s.ibufBytes s.len.toNat)).1) (hb : b.length ≤ s.len.toNat - 16)
      (hr : u.ram = Memory.setBytes s.ram Config.obufBase b)
      (h : t = { u with outlen := 0, status := u.status.fail .padding p } ∨
        ∃ m, m ≤ s.len.toNat - 16 ∧ t = { u with outlen := BitVec.ofNat 32 m, status := u.status.succeed p })
  /-- It ran the XOR cipher. -/
  | xored (p : Path) (b : List Byte) (hl : s.len.toNat ≤ s.bufSize.bytes) (hb : b.length = s.len.toNat)
      (h : t = { s with
        ram := Memory.setBytes s.ram Config.obufBase b, outlen := s.len, status := s.status.succeed p })

theorem bufferEffect_streamEnc {i : Instr} (s : State) (p : Path) (hm : i.mnemonic ∈ [.encCur, .encOld, .encrypt]) :
    BufferEffect i s ((streamEnc padCur s).conclude p) := by
  rcases streamEnc_conclude s p with ⟨_, h⟩ | ⟨h1, h⟩
  · exact .early _ _ (by simp) (by simp) h
  · exact .encrypted p hm h1 h

theorem bufferEffect_streamDec {i : Instr} (s : State) (p : Path) (hm : i.mnemonic ∈ [.decCur, .decOld, .decrypt]) :
    BufferEffect i s ((streamDec s).conclude p) := by
  rcases streamDec_conclude s p with ⟨_, h⟩ | ⟨_, h⟩ | ⟨h1, h2, h3, u, b, hu, hb, hr, h⟩
  · exact .early _ _ (by simp) (by simp) h
  · exact .early _ _ (by simp) (by simp) h
  · exact .decrypted p u b hm h1 h2 h3 hu hb hr h

theorem bufferEffect_xorRun (i : Instr) (s : State) (p : Path) : BufferEffect i s ((xorRun s).conclude p) := by
  rcases xorRun_conclude s p with ⟨_, h⟩ | ⟨_, h⟩ | ⟨h1, b, hb, h⟩
  · exact .early _ _ (by simp) (by simp) h
  · exact .early _ _ (by simp) (by simp) h
  · exact .xored p b h1 hb h

/-- Every next state of a buffer command. -/
theorem exec_bufferCommand {i : Instr} {s t : State} (hi : i.mnemonic ∈ bufferCommands) (ht : exec i s = .next t) :
    BufferEffect i s t := by
  have e : padOld = padCur := funext padOld_eq
  cases i <;> simp [bufferCommands, Instr.mnemonic] at hi
  case encCur => cases ht; exact bufferEffect_streamEnc _ _ (by simp [Instr.mnemonic])
  case encOld =>
    simp only [exec, execEncOld, e] at ht
    cases ht
    exact bufferEffect_streamEnc _ _ (by simp [Instr.mnemonic])
  case encrypt => cases ht; exact bufferEffect_streamEnc _ _ (by simp [Instr.mnemonic])
  case decCur => cases ht; exact bufferEffect_streamDec _ _ (by simp [Instr.mnemonic])
  case decOld => cases ht; exact bufferEffect_streamDec _ _ (by simp [Instr.mnemonic])
  case xorc => cases ht; exact bufferEffect_xorRun _ _ _
  case decrypt =>
    obtain ⟨t', h1, h⟩ := execDecrypt_cases s
    rw [ht] at h1
    cases h1
    rcases h with ⟨_, h⟩ | ⟨_, _, h⟩ | ⟨_, _, h⟩ | ⟨_, _, _, h⟩ | ⟨_, _, _, h⟩ | ⟨_, _, _, h⟩
    · exact .early _ _ (by simp) (by simp) h
    · exact .early _ _ (by simp) (by simp) h
    · rw [h]; exact bufferEffect_streamDec _ _ (by simp [Instr.mnemonic])
    · exact .early _ _ (by simp) (by simp) h
    · rw [h]; exact bufferEffect_streamDec _ _ (by simp [Instr.mnemonic])
    · rw [h]; exact bufferEffect_xorRun _ _ _

/-! ### The other commands -/

/-- The ways a command that touches no buffer can end. -/
inductive RegisterEffect (i : Instr) (s t : State) : Prop where
  /-- A check failed. -/
  | failed (c : ErrCode) (hok : c ≠ .ok) (hpad : c ≠ .padding) (h : t = s.raiseError c .none)
  /-- It finished without writing anything else. -/
  | finished (h : t = s.finish .none)
  /-- It wrote `RESULT`. -/
  | wroteResult (v : Byte) (hm : i.mnemonic ∈ [.gmul, .sbox, .isbox, .rcon]) (h : t = s.finishResult v)
  /-- It wrote `STATE`. -/
  | wroteState (b : Block) (hm : i.mnemonic ∈ stateCommands) (h : t = s.finishBlock b)
  /-- It expanded the key. -/
  | expanded (hm : i.mnemonic = .keyexp) (h : t = s.expandOnEntry.finish .none)
  /-- It loaded `KSR`. -/
  | loadedKsr (hm : i.mnemonic = .ksload) (h : t = (s.setKeystream s.iv).finish .none)
  /-- It stepped `KSR`. -/
  | steppedKsr (b : Block) (hm : i.mnemonic = .ksnext) (h : t = { s with ksr := b }.finish .none)

/-- Every next state of a command that is no buffer command. -/
theorem exec_registerCommand {i : Instr} {s t : State} (hi : i.mnemonic ∉ bufferCommands) (ht : exec i s = .next t) :
    RegisterEffect i s t := by
  cases i <;> simp [bufferCommands, Instr.mnemonic] at hi <;> dsimp only [exec] at ht
  case nop => cases ht; exact .finished rfl
  case gmul => cases ht; exact .wroteResult _ (by simp [Instr.mnemonic]) rfl
  case sbox => cases ht; exact .wroteResult _ (by simp [Instr.mnemonic]) rfl
  case isbox => cases ht; exact .wroteResult _ (by simp [Instr.mnemonic]) rfl
  case rcon => cases ht; exact .wroteResult _ (by simp [Instr.mnemonic]) rfl
  case keyexp => cases ht; exact .expanded (by simp [Instr.mnemonic]) rfl
  case ksload => cases ht; exact .loadedKsr (by simp [Instr.mnemonic]) rfl
  case subb => cases ht; exact .wroteState _ (by simp [Instr.mnemonic, stateCommands]) rfl
  case isubb => cases ht; exact .wroteState _ (by simp [Instr.mnemonic, stateCommands]) rfl
  case shrows => cases ht; exact .wroteState _ (by simp [Instr.mnemonic, stateCommands]) rfl
  case ishrows => cases ht; exact .wroteState _ (by simp [Instr.mnemonic, stateCommands]) rfl
  case mixcol => cases ht; exact .wroteState _ (by simp [Instr.mnemonic, stateCommands]) rfl
  case imixcol => cases ht; exact .wroteState _ (by simp [Instr.mnemonic, stateCommands]) rfl
  case ark a =>
    unfold execArk at ht
    split at ht
    · cases ht; exact .failed _ (by simp) (by simp) rfl
    · split at ht
      · cases ht; exact .failed _ (by simp) (by simp) rfl
      · cases ht; exact .wroteState _ (by simp [Instr.mnemonic, stateCommands]) rfl
  case encblk =>
    unfold execEncblk at ht
    split at ht
    · cases ht; exact .failed _ (by simp) (by simp) rfl
    · cases ht; exact .wroteState _ (by simp [Instr.mnemonic, stateCommands]) rfl
  case decblk =>
    unfold execDecblk at ht
    split at ht
    · cases ht; exact .failed _ (by simp) (by simp) rfl
    · cases ht; exact .wroteState _ (by simp [Instr.mnemonic, stateCommands]) rfl
  case ksxor =>
    unfold execKsxor at ht
    split at ht
    · cases ht; exact .failed _ (by simp) (by simp) rfl
    · cases ht; exact .wroteState _ (by simp [Instr.mnemonic, stateCommands]) rfl
  case ksnext =>
    unfold execKsnext at ht
    split at ht
    · cases ht; exact .failed _ (by simp) (by simp) rfl
    · split at ht
      · cases ht; exact .failed _ (by simp) (by simp) rfl
      · cases ht; exact .steppedKsr _ (by simp [Instr.mnemonic]) rfl

/-! ### Commands one after another -/

@[simp] theorem execAll_nil (s : State) : execAll [] s = .next s := rfl

theorem execAll_cons_next {i : Instr} {s t : State} (h : exec i s = .next t) (is : List Instr) :
    execAll (i :: is) s = execAll is t := by
  rw [execAll, h]

/-- A sequence that completes hands its last state to the commands after it. -/
theorem execAll_append_next {is : List Instr} {s t : State} (h : execAll is s = .next t) (js : List Instr) :
    execAll (is ++ js) s = execAll js t := by
  induction is generalizing s with
  | nil => cases h; rfl
  | cons i is ih =>
    rw [execAll] at h
    split at h
    · rename_i u hu
      rw [List.cons_append, execAll_cons_next hu, ih h]
    · cases h
    · cases h

end Sys2Proof.Machine
end

