-- ==== Sys2Proof/Laws/Decode.lean ====
section
/-! SUPPORT. A command word as its four fields (R80), and what the decoder and the encoder do with them. -/

namespace Sys2Proof

/-- A word is its fields `RSV`, `B`, `A`, `OP` one after another (R80). -/
theorem word_eq_fields (v : Word) : v = (rsvField v ++ bField v ++ aField v ++ opField v : BitVec 32) := by
  apply BitVec.eq_of_getLsbD_eq
  intro i hi
  simp only [rsvField, bField, aField, opField, BitVec.getLsbD_append, BitVec.getLsbD_extractLsb']
  rcases (by omega : i < 8 ∨ (8 ≤ i ∧ i < 16) ∨ (16 ≤ i ∧ i < 24) ∨ (24 ≤ i ∧ i < 32)) with h | h | h | h
  · simp [show i < 8 by omega]
  · simp [show ¬ i < 8 by omega, show i - 8 < 8 by omega, show 8 + (i - 8) = i by omega]
  · simp [show ¬ i < 8 by omega, show ¬ i - 8 < 8 by omega, show i - 8 - 8 < 8 by omega,
      show 16 + (i - 8 - 8) = i by omega]
  · simp [show ¬ i < 8 by omega, show ¬ i - 8 < 8 by omega, show ¬ i - 8 - 8 < 8 by omega,
      show i - 8 - 8 - 8 < 8 by omega, show 24 + (i - 8 - 8 - 8) = i by omega]

theorem opField_append (r b a o : Byte) : opField (r ++ b ++ a ++ o : BitVec 32) = o := by
  apply BitVec.eq_of_getLsbD_eq
  intro i hi
  simp only [opField, BitVec.getLsbD_append, BitVec.getLsbD_extractLsb']
  simp [hi]

theorem aField_append (r b a o : Byte) : aField (r ++ b ++ a ++ o : BitVec 32) = a := by
  apply BitVec.eq_of_getLsbD_eq
  intro i hi
  simp only [aField, BitVec.getLsbD_append, BitVec.getLsbD_extractLsb']
  simp [hi]

theorem bField_append (r b a o : Byte) : bField (r ++ b ++ a ++ o : BitVec 32) = b := by
  apply BitVec.eq_of_getLsbD_eq
  intro i hi
  simp only [bField, BitVec.getLsbD_append, BitVec.getLsbD_extractLsb']
  simp [hi, show ¬ 16 + i < 8 by omega, show ¬ 16 + i - 8 < 8 by omega, show 16 + i - 8 - 8 = i by omega]

theorem rsvField_append (r b a o : Byte) : rsvField (r ++ b ++ a ++ o : BitVec 32) = r := by
  apply BitVec.eq_of_getLsbD_eq
  intro i hi
  simp only [rsvField, BitVec.getLsbD_append, BitVec.getLsbD_extractLsb']
  simp [hi, show ¬ 24 + i < 8 by omega, show ¬ 24 + i - 8 < 8 by omega, show ¬ 24 + i - 8 - 8 < 8 by omega,
    show 24 + i - 8 - 8 - 8 = i by omega]

/-- Two words of fields are equal exactly when their fields are. -/
theorem append_fields_inj {r b a o r' b' a' o' : Byte} :
    (r ++ b ++ a ++ o : BitVec 32) = (r' ++ b' ++ a' ++ o' : BitVec 32) ↔ r = r' ∧ b = b' ∧ a = a' ∧ o = o' := by
  constructor
  · intro h
    refine ⟨?_, ?_, ?_, ?_⟩
    · rw [← rsvField_append r b a o, h, rsvField_append]
    · rw [← bField_append r b a o, h, bField_append]
    · rw [← aField_append r b a o, h, aField_append]
    · rw [← opField_append r b a o, h, opField_append]
  · rintro ⟨rfl, rfl, rfl, rfl⟩
    rfl

/-- AND works field by field. -/
theorem append_fields_and (r b a o r' b' a' o' : Byte) :
    (r ++ b ++ a ++ o : BitVec 32) &&& (r' ++ b' ++ a' ++ o' : BitVec 32) =
      ((r &&& r') ++ (b &&& b') ++ (a &&& a') ++ (o &&& o') : BitVec 32) := by
  apply BitVec.eq_of_getLsbD_eq
  intro i hi
  simp only [BitVec.getLsbD_and, BitVec.getLsbD_append]
  split <;> try rfl
  split <;> try rfl
  split <;> rfl

theorem matchWord_eq_fields (m : Mnemonic) :
    m.matchWord = (0#8 ++ 0#8 ++ 0#8 ++ opField m.matchWord : BitVec 32) := by
  cases m <;> decide

/-- The word of a command, field by field (R90). -/
theorem commandWord_eq_fields (m : Mnemonic) (a b : Byte) :
    commandWord m a b = (0#8 ++ b ++ a ++ opField m.matchWord : BitVec 32) := by
  rw [commandWord, matchWord_eq_fields]
  apply BitVec.eq_of_getLsbD_eq
  intro i hi
  rw [opField_append]
  generalize opField m.matchWord = o
  simp only [BitVec.getLsbD_or, BitVec.getLsbD_shiftLeft, BitVec.getLsbD_setWidth, BitVec.getLsbD_append]
  rcases (by omega : i < 8 ∨ (8 ≤ i ∧ i < 16) ∨ (16 ≤ i ∧ i < 24) ∨ (24 ≤ i ∧ i < 32)) with h | h | h | h
  · simp [show i < 8 by omega, show i < 16 by omega]
  · simp [show ¬ i < 8 by omega, show i - 8 < 8 by omega, show i < 16 by omega, hi, show i - 8 < 32 by omega]
  · simp [show ¬ i < 8 by omega, show ¬ i - 8 < 8 by omega, show ¬ i < 16 by omega, hi, show i - 8 < 32 by omega,
      show i - 16 < 8 by omega, show i - 8 - 8 = i - 16 by omega]
    rw [BitVec.getLsbD_of_ge a _ (by omega)]
    simp
    intro
    omega
  · simp [show ¬ i < 8 by omega, show ¬ i - 8 < 8 by omega, show ¬ i < 16 by omega, hi, show i - 16 < 32 by omega,
      show ¬ i - 8 - 8 < 8 by omega]
    exact ⟨fun _ => BitVec.getLsbD_of_ge a _ (by omega), BitVec.getLsbD_of_ge b _ (by omega)⟩

/-- The fields of the word of a command. -/
theorem fields_commandWord (m : Mnemonic) (a b : Byte) :
    opField (commandWord m a b) = opField m.matchWord ∧ aField (commandWord m a b) = a ∧
      bField (commandWord m a b) = b ∧ rsvField (commandWord m a b) = 0 := by
  rw [commandWord_eq_fields]
  exact ⟨opField_append _ _ _ _, aField_append _ _ _ _, bField_append _ _ _ _, rsvField_append _ _ _ _⟩

/-- The command an `OP` value names has that `OP`, and its operands are the ones given where its format has them. -/
theorem instrOfOpcode_some {o a b : Byte} {i : Instr} (h : instrOfOpcode o a b = some i) :
    ∃ a' b', encode i = commandWord i.mnemonic a' b' ∧ opField i.mnemonic.matchWord = o ∧
      (a' = a ∨ i.format = .f0 ∧ a' = 0) ∧ (b' = b ∨ i.format ≠ .f2 ∧ b' = 0) := by
  unfold instrOfOpcode at h
  split at h <;> cases h
  all_goals rename_i ho
  all_goals refine ⟨_, _, rfl, ?_, ?_, ?_⟩
  all_goals first
    | exact (BitVec.eq_of_toNat_eq (ho.trans rfl)).symm
    | exact .inl rfl
    | exact .inr ⟨rfl, rfl⟩
    | exact .inr ⟨by simp [Instr.format, Instr.mnemonic, Mnemonic.format], rfl⟩

/-- Every mnemonic's `OP` names a command of that mnemonic. -/
theorem instrOfOpcode_matchWord (m : Mnemonic) (a b : Byte) :
    ∃ i, instrOfOpcode (opField m.matchWord) a b = some i ∧ i.mnemonic = m := by
  cases m <;> exact ⟨_, rfl, rfl⟩

/-- The mask test of the opcode map as tests of the fields (R83, R84). -/
theorem mask_test_iff (v : Word) (m : Mnemonic) :
    v &&& m.format.mask = m.matchWord ↔
      opField v = opField m.matchWord ∧ rsvField v = 0 ∧ (m.format ≠ .f2 → bField v = 0) ∧
        (m.format = .f0 → aField v = 0) := by
  have hm : m.format.mask =
      (0xFF#8 ++ (if m.format = .f2 then 0 else 0xFF#8) ++ (if m.format = .f0 then 0xFF#8 else 0) ++ 0xFF#8 :
        BitVec 32) := by
    cases m.format <;> decide
  have hff : ∀ x : Byte, x &&& 0xFF#8 = x := by decide
  rw [hm, matchWord_eq_fields]
  conv_lhs => rw [word_eq_fields v]
  rw [append_fields_and, append_fields_inj, opField_append, hff, hff]
  cases m.format <;> simp [hff] <;> tauto

end Sys2Proof
end

