-- ==== Sys2Proof/Laws/Field.lean ====
section
/-! SUPPORT. Field multiplication is linear in each operand, and a byte is a XOR of powers of two, so that a law of the field
needs to be checked on those alone. -/

namespace Sys2Proof.Machine

theorem xtime_xor (a b : Byte) : xtime (a ^^^ b) = xtime a ^^^ xtime b := by
  have h : ∀ a : Byte, xtime a = (a <<< 1) ^^^ (if a.getLsbD 7 then 0x1B#8 else 0) := by
    intro a
    unfold xtime
    split <;> simp
  have hs : (a ^^^ b) <<< 1 = a <<< 1 ^^^ b <<< 1 := BitVec.shiftLeft_xor_distrib _ _ _
  have h2 : ∀ x y : Byte, x ^^^ y = (x ^^^ 0x1B#8) ^^^ (y ^^^ 0x1B#8) := by
    intro x y
    rw [show (x ^^^ 0x1B#8) ^^^ (y ^^^ 0x1B#8) = (x ^^^ y) ^^^ (0x1B#8 ^^^ 0x1B#8) by ac_rfl]
    simp
  rw [h, h, h, BitVec.getLsbD_xor, hs]
  cases a.getLsbD 7 <;> cases b.getLsbD 7 <;> simp <;> first | exact h2 _ _ | ac_rfl

theorem gmulLoop_xor_right (n : Nat) (a b c p q : Byte) :
    gmulLoop n a (b ^^^ c) (p ^^^ q) = gmulLoop n a b p ^^^ gmulLoop n a c q := by
  induction n generalizing a b c p q with
  | zero => rfl
  | succ n ih =>
    simp only [gmulLoop, BitVec.ushiftRight_xor_distrib, BitVec.getLsbD_xor]
    rw [← ih]
    congr 1
    have : ∀ x y z : Byte, x ^^^ y ^^^ (z ^^^ y) = x ^^^ z := by
      intro x y z
      rw [BitVec.xor_comm z y, ← BitVec.xor_assoc, BitVec.xor_assoc x, BitVec.xor_self, BitVec.xor_zero]
    cases b.getLsbD 0 <;> cases c.getLsbD 0 <;> simp [this] <;> ac_rfl

theorem gmulLoop_xor_left (n : Nat) (a b c p q : Byte) :
    gmulLoop n (a ^^^ b) c (p ^^^ q) = gmulLoop n a c p ^^^ gmulLoop n b c q := by
  induction n generalizing a b c p q with
  | zero => rfl
  | succ n ih =>
    simp only [gmulLoop, xtime_xor]
    rw [← ih]
    congr 1
    cases c.getLsbD 0
    · simp
    · simp
      ac_rfl

/-- Induction over bytes as XORs of powers of two. -/
theorem byte_xor_induction {P : Byte → Prop} (h0 : P 0) (hx : ∀ a b, P a → P b → P (a ^^^ b))
    (hb : ∀ i, i < 8 → P (1#8 <<< i)) (a : Byte) : P a := by
  have hs : ∀ (f : Bool) (i : Nat), i < 8 → P (if f then 1#8 <<< i else 0) := by
    intro f i hi
    cases f
    · exact h0
    · exact hb i hi
  have : a = (if a.getLsbD 0 then 1#8 <<< 0 else 0) ^^^ (if a.getLsbD 1 then 1#8 <<< 1 else 0) ^^^
      (if a.getLsbD 2 then 1#8 <<< 2 else 0) ^^^ (if a.getLsbD 3 then 1#8 <<< 3 else 0) ^^^
      (if a.getLsbD 4 then 1#8 <<< 4 else 0) ^^^ (if a.getLsbD 5 then 1#8 <<< 5 else 0) ^^^
      (if a.getLsbD 6 then 1#8 <<< 6 else 0) ^^^ (if a.getLsbD 7 then 1#8 <<< 7 else 0) := by
    revert a
    decide
  rw [this]
  exact hx _ _ (hx _ _ (hx _ _ (hx _ _ (hx _ _ (hx _ _ (hx _ _ (hs _ _ (by omega)) (hs _ _ (by omega)))
    (hs _ _ (by omega))) (hs _ _ (by omega))) (hs _ _ (by omega))) (hs _ _ (by omega))) (hs _ _ (by omega)))
    (hs _ _ (by omega))

/-- Byte `i` of column `c` after a column mix, before the matrix entries are looked up (R135). -/
theorem get_mixWith (m : Matrix4) (b : Block) {c i : Nat} (hc : c < 4) (hi : i < 4) :
    (mixWith m b).get (4 * c + i) =
      gmul (matrixEntry m i 0) (b.get (4 * c)) ^^^ gmul (matrixEntry m i 1) (b.get (4 * c + 1)) ^^^
        gmul (matrixEntry m i 2) (b.get (4 * c + 2)) ^^^ gmul (matrixEntry m i 3) (b.get (4 * c + 3)) := by
  rw [mixWith, Bytes.get_tab_of_lt _ (by omega)]
  rw [show (4 * c + i) % 4 = i by omega, show (4 * c + i) / 4 = c by omega]

end Sys2Proof.Machine
end

