-- ==== Sys2Proof/Laws/KeySchedule.lean ====
section
/-! SUPPORT. The loop of the key schedule: how long its result is, that it keeps what is written, and what it appends. -/

namespace Sys2Proof.Machine

theorem length_expandLoop (n it : Nat) (w : List Byte) : (expandLoop n it w).length = w.length + 4 * n := by
  induction n generalizing it w with
  | zero => rfl
  | succ n ih =>
    rw [expandLoop]
    rw [ih]
    simp only [List.length_append, List.length_map, List.length_range]
    omega

theorem getD_expandLoop_of_lt (n it : Nat) (w : List Byte) {i : Nat} (h : i < w.length) :
    (expandLoop n it w).getD i 0 = w.getD i 0 := by
  induction n generalizing it w with
  | zero => rfl
  | succ n ih =>
    rw [expandLoop]
    rw [ih _ _ (by simp only [List.length_append]; omega)]
    simp only [List.getD_eq_getElem?_getD, List.getElem?_append_left h]

/-- The schedule word at `cur` reads only bytes before `cur`. -/
theorem scheduleWord_congr {v w : List Byte} {cur : Nat} (it : Nat) (h : ∀ i, i < cur → v.getD i 0 = w.getD i 0)
    (h4 : 4 ≤ cur) :
    scheduleWord v cur it = scheduleWord w cur it := by
  have : (Bytes.tab 4 fun m => v.getD (cur - 4 + m) 0) = Bytes.tab 4 fun m => w.getD (cur - 4 + m) 0 :=
    Bytes.ext_get fun i hi => by
      rw [Bytes.get_tab_of_lt _ hi, Bytes.get_tab_of_lt _ hi, h _ (by omega)]
  simp only [scheduleWord, this]

/-- Each word after the first 32 bytes is the word 32 bytes back XOR the schedule word (R120). -/
theorem getD_expandLoop (n : Nat) (w : List Byte) (hw : 32 ≤ w.length) (hm : w.length % 4 = 0) {cur m : Nat}
    (h1 : w.length ≤ cur) (h2 : cur < w.length + 4 * n) (h3 : cur % 4 = 0) (h4 : m < 4) :
    (expandLoop n ((w.length + 31) / 32) w).getD (cur + m) 0 =
      (expandLoop n ((w.length + 31) / 32) w).getD (cur - 32 + m) 0 ^^^
        (scheduleWord (expandLoop n ((w.length + 31) / 32) w) cur ((cur + 31) / 32)).get m := by
  induction n generalizing w with
  | zero => omega
  | succ n ih =>
    rw [expandLoop]
    generalize ht : scheduleWord w w.length ((w.length + 31) / 32) = t
    generalize hx : ((List.range 4).map fun m => w.getD (w.length - 32 + m) 0 ^^^ t.get m) = x
    have hxl : x.length = 4 := by rw [← hx]; simp
    have hit : (if w.length % 32 = 0 then (w.length + 31) / 32 + 1 else (w.length + 31) / 32) = ((w ++ x).length + 31) / 32 := by
      rw [List.length_append, hxl]
      split <;> omega
    rw [hit]
    by_cases hc : cur = w.length
    · subst hc
      have ha : ∀ i, i < w.length → (expandLoop n (((w ++ x).length + 31) / 32) (w ++ x)).getD i 0 = w.getD i 0 := by
        intro i hi
        rw [getD_expandLoop_of_lt _ _ _ (by rw [List.length_append]; omega)]
        simp only [List.getD_eq_getElem?_getD, List.getElem?_append_left hi]
      rw [scheduleWord_congr _ ha (by omega), ht, ha (w.length - 32 + m) (by omega),
        getD_expandLoop_of_lt _ _ (w ++ x) (i := w.length + m) (by rw [List.length_append]; omega)]
      rw [List.getD_eq_getElem?_getD, List.getElem?_append_right (Nat.le_add_right _ _), Nat.add_sub_cancel_left, ← hx]
      simp [h4]
    · exact ih (w ++ x) (by rw [List.length_append]; omega) (by rw [List.length_append]; omega)
        (by rw [List.length_append]; omega) (by rw [List.length_append]; omega)

end Sys2Proof.Machine
end

