-- ==== Sys2Proof/Laws/PerInstr.lean ====
section
/-! SUPPORT. Statements for every command, constructor by constructor: a command's word carries its row's match value under its
format's mask, and a command is well formed whatever its operand bytes are. -/

namespace Sys2Proof.Laws.Encoding

/-- The word of the command is in its row of the opcode map (R83), and the command is well formed. -/
def Statement (i : Instr) : Prop :=
  i.wellFormed = true ∧ encode i &&& i.format.mask = i.mnemonic.matchWord

/-- Two operand bytes do not reach the bits an F2 mask keeps. -/
theorem and_mask_f2 (m : Mnemonic) (hm : m.format = .f2) (a b : Byte) :
    commandWord m a b &&& m.format.mask = m.matchWord := by
  cases m <;> simp [Mnemonic.format] at hm
  apply BitVec.eq_of_getLsbD_eq
  intro i hi
  simp only [commandWord, BitVec.getLsbD_and, BitVec.getLsbD_or, BitVec.getLsbD_shiftLeft, BitVec.getLsbD_setWidth]
  interval_cases i <;> simp [Mnemonic.matchWord, Mnemonic.format, Format.mask]

/-- One operand byte does not reach the bits an F1 mask keeps. -/
theorem and_mask_f1 (m : Mnemonic) (hm : m.format = .f1) (a : Byte) :
    commandWord m a 0 &&& m.format.mask = m.matchWord := by
  apply BitVec.eq_of_getLsbD_eq
  intro i hi
  simp only [commandWord, BitVec.getLsbD_and, BitVec.getLsbD_or, BitVec.getLsbD_shiftLeft, BitVec.getLsbD_setWidth, hm]
  cases m <;> simp [Mnemonic.format] at hm <;>
    interval_cases i <;> simp [Mnemonic.matchWord, Format.mask]

theorem nop : Statement .nop := ⟨by decide, by decide⟩

theorem gmul (a b : Byte) : Statement (.gmul a b) :=
  ⟨by simp [Instr.wellFormed, Instr.source, SourceCommand.wellFormed, SourceCommand.countOk, SourceCommand.rangeOk,
      Instr.mnemonic, Instr.operands, Mnemonic.format, Format.operandCount]; omega,
    and_mask_f2 .gmul rfl a b⟩

theorem sbox (a : Byte) : Statement (.sbox a) :=
  ⟨by simp [Instr.wellFormed, Instr.source, SourceCommand.wellFormed, SourceCommand.countOk, SourceCommand.rangeOk,
      Instr.mnemonic, Instr.operands, Mnemonic.format, Format.operandCount]; omega,
    and_mask_f1 .sbox rfl a⟩

theorem isbox (a : Byte) : Statement (.isbox a) :=
  ⟨by simp [Instr.wellFormed, Instr.source, SourceCommand.wellFormed, SourceCommand.countOk, SourceCommand.rangeOk,
      Instr.mnemonic, Instr.operands, Mnemonic.format, Format.operandCount]; omega,
    and_mask_f1 .isbox rfl a⟩

theorem rcon (a : Byte) : Statement (.rcon a) :=
  ⟨by simp [Instr.wellFormed, Instr.source, SourceCommand.wellFormed, SourceCommand.countOk, SourceCommand.rangeOk,
      Instr.mnemonic, Instr.operands, Mnemonic.format, Format.operandCount]; omega,
    and_mask_f1 .rcon rfl a⟩

theorem ark (a : Byte) : Statement (.ark a) :=
  ⟨by simp [Instr.wellFormed, Instr.source, SourceCommand.wellFormed, SourceCommand.countOk, SourceCommand.rangeOk,
      Instr.mnemonic, Instr.operands, Mnemonic.format, Format.operandCount]; omega,
    and_mask_f1 .ark rfl a⟩

theorem keyexp : Statement .keyexp := ⟨by decide, by decide⟩

theorem encblk : Statement .encblk := ⟨by decide, by decide⟩

theorem decblk : Statement .decblk := ⟨by decide, by decide⟩

theorem subb : Statement .subb := ⟨by decide, by decide⟩

theorem isubb : Statement .isubb := ⟨by decide, by decide⟩

theorem shrows : Statement .shrows := ⟨by decide, by decide⟩

theorem ishrows : Statement .ishrows := ⟨by decide, by decide⟩

theorem mixcol : Statement .mixcol := ⟨by decide, by decide⟩

theorem imixcol : Statement .imixcol := ⟨by decide, by decide⟩

theorem ksload : Statement .ksload := ⟨by decide, by decide⟩

theorem ksnext : Statement .ksnext := ⟨by decide, by decide⟩

theorem ksxor : Statement .ksxor := ⟨by decide, by decide⟩

theorem encCur : Statement .encCur := ⟨by decide, by decide⟩

theorem decCur : Statement .decCur := ⟨by decide, by decide⟩

theorem encOld : Statement .encOld := ⟨by decide, by decide⟩

theorem decOld : Statement .decOld := ⟨by decide, by decide⟩

theorem xorc : Statement .xorc := ⟨by decide, by decide⟩

theorem encrypt : Statement .encrypt := ⟨by decide, by decide⟩

theorem decrypt : Statement .decrypt := ⟨by decide, by decide⟩

end Sys2Proof.Laws.Encoding
end

