-- ==== Sys2Proof/Tests/Slice0.lean ====
section
/-! SUPPORT. The model's own tests. Expected results are the spec's printed examples and vectors; a witness shows that the
hypotheses of a statement can be met together. -/

namespace Sys2Proof.Tests

set_option maxRecDepth 4000
set_option Elab.async false

open Sys2Proof Sys2Proof.Machine

/-! ### Helpers -/

/-- The byte string of `n` bytes a hex number prints, byte 0 first. -/
def hexBytes (n v : Nat) : Bytes n :=
  .tab n fun i => BitVec.ofNat 8 (v >>> (8 * (n - 1 - i)))

/-- The next state, if there is one. -/
def nextOf : Machine.Outcome → Option State
  | .next t => some t
  | .fault _ => none
  | .refused _ => none

/-- The state after the step that runs a command word. -/
def run (w : Nat) (s : State) : Option State :=
  nextOf (step (s.withFetchWord 32 w))

/-- The example block `S0` of spec/42_block_engine.md. -/
def s0 : Block := hexBytes 16 0x00112233445566778899aabbccddeeff

/-- The key 00 01 .. 1f. -/
def countKey : Key := .tab 32 fun i => BitVec.ofNat 8 i

/-- The reset state with another `STATE`. -/
def withState (b : Block) : State := { State.reset with state := b }

/-- The reset state with `KEY_VALID` and `KS_VALID` set as given. -/
def withFlags (keyValid ksValid : Bool) : State :=
  { State.reset with status := ⟨keyValid, ksValid, false, .none, .ok⟩ }

/-- The reset state with a reported error. -/
def withError : State := { State.reset with status := ⟨false, false, true, .legacyXor, .pwlen⟩ }

/-- The reset state with input bytes, a length and a password. -/
def withInput (len : Word) (input : List Byte) (pwlen : Word) (pw : List Byte) : State :=
  { State.reset with
    len := len
    pwlen := pwlen
    ram := Memory.setBytes (Memory.setBytes [] 0x1000 input) 0x0200 pw }

/-- The reset state with events to come. -/
def withEvents (es : List HostEvent) : State := { State.reset with pending := es }

/-! ### Well-formedness refuses each ill-formed term -/

theorem test_wellFormed_refuses_too_few_operands :
    (⟨.gmul, [0x57]⟩ : SourceCommand).countOk = false ∧ (⟨.gmul, [0x57]⟩ : SourceCommand).wellFormed = false := by decide

theorem test_wellFormed_refuses_too_many_operands :
    (⟨.nop, [0]⟩ : SourceCommand).countOk = false ∧ (⟨.sbox, [1, 0]⟩ : SourceCommand).wellFormed = false := by decide

theorem test_wellFormed_refuses_operand_above_255 :
    (⟨.sbox, [256]⟩ : SourceCommand).rangeOk = false ∧ (⟨.gmul, [0, 256]⟩ : SourceCommand).wellFormed = false := by decide

theorem test_wellFormed_accepts :
    (⟨.gmul, [0, 255]⟩ : SourceCommand).wellFormed = true ∧ (⟨.decrypt, []⟩ : SourceCommand).wellFormed = true := by decide

/-! ### Decoding: words written field by field, `RSV ‖ B ‖ A ‖ OP` (R80, R83) -/

theorem test_decode_table_commands :
    decode (0x00#8 ++ 0x00#8 ++ 0x00#8 ++ 0b00000000#8 : BitVec 32) = .ok .nop ∧
    decode (0x00#8 ++ 0x83#8 ++ 0x57#8 ++ 0b00000001#8 : BitVec 32) = .ok (.gmul 0x57#8 0x83#8) ∧
    decode (0x00#8 ++ 0x00#8 ++ 0x53#8 ++ 0b00000010#8 : BitVec 32) = .ok (.sbox 0x53#8) ∧
    decode (0x00#8 ++ 0x00#8 ++ 0xED#8 ++ 0b00000011#8 : BitVec 32) = .ok (.isbox 0xED#8) ∧
    decode (0x00#8 ++ 0x00#8 ++ 0x07#8 ++ 0b00000100#8 : BitVec 32) = .ok (.rcon 0x07#8) := by decide

theorem test_decode_block_commands :
    decode (0x00#8 ++ 0x00#8 ++ 0x00#8 ++ 0b00010000#8 : BitVec 32) = .ok .keyexp ∧
    decode (0x00#8 ++ 0x00#8 ++ 0x00#8 ++ 0b00010001#8 : BitVec 32) = .ok .encblk ∧
    decode (0x00#8 ++ 0x00#8 ++ 0x00#8 ++ 0b00010010#8 : BitVec 32) = .ok .decblk := by decide

theorem test_decode_round_steps :
    decode (0x00#8 ++ 0x00#8 ++ 0x00#8 ++ 0b00011000#8 : BitVec 32) = .ok .subb ∧
    decode (0x00#8 ++ 0x00#8 ++ 0x00#8 ++ 0b00011001#8 : BitVec 32) = .ok .isubb ∧
    decode (0x00#8 ++ 0x00#8 ++ 0x00#8 ++ 0b00011010#8 : BitVec 32) = .ok .shrows ∧
    decode (0x00#8 ++ 0x00#8 ++ 0x00#8 ++ 0b00011011#8 : BitVec 32) = .ok .ishrows ∧
    decode (0x00#8 ++ 0x00#8 ++ 0x00#8 ++ 0b00011100#8 : BitVec 32) = .ok .mixcol ∧
    decode (0x00#8 ++ 0x00#8 ++ 0x00#8 ++ 0b00011101#8 : BitVec 32) = .ok .imixcol ∧
    decode (0x00#8 ++ 0x00#8 ++ 0x0F#8 ++ 0b00011110#8 : BitVec 32) = .ok (.ark 0x0F#8) := by decide

theorem test_decode_stream_commands :
    decode (0x00#8 ++ 0x00#8 ++ 0x00#8 ++ 0b00100000#8 : BitVec 32) = .ok .ksload ∧
    decode (0x00#8 ++ 0x00#8 ++ 0x00#8 ++ 0b00100001#8 : BitVec 32) = .ok .ksnext ∧
    decode (0x00#8 ++ 0x00#8 ++ 0x00#8 ++ 0b00100010#8 : BitVec 32) = .ok .ksxor ∧
    decode (0x00#8 ++ 0x00#8 ++ 0x00#8 ++ 0b00110000#8 : BitVec 32) = .ok .encCur ∧
    decode (0x00#8 ++ 0x00#8 ++ 0x00#8 ++ 0b00110001#8 : BitVec 32) = .ok .decCur ∧
    decode (0x00#8 ++ 0x00#8 ++ 0x00#8 ++ 0b00110010#8 : BitVec 32) = .ok .encOld ∧
    decode (0x00#8 ++ 0x00#8 ++ 0x00#8 ++ 0b00110011#8 : BitVec 32) = .ok .decOld := by decide

theorem test_decode_xor_and_dispatcher :
    decode (0x00#8 ++ 0x00#8 ++ 0x00#8 ++ 0b00110100#8 : BitVec 32) = .ok .xorc ∧
    decode (0x00#8 ++ 0x00#8 ++ 0x00#8 ++ 0b00111000#8 : BitVec 32) = .ok .encrypt ∧
    decode (0x00#8 ++ 0x00#8 ++ 0x00#8 ++ 0b00111001#8 : BitVec 32) = .ok .decrypt := by decide

/-- A reserved opcode, a nonzero `RSV`, and a nonzero operand field the format does not use (R85). -/
theorem test_decode_rejects_by_name :
    decode 0x0000001F#32 = .error (.unassignedOpcode 0x1F#8) ∧
    decode 0x80000000#32 = .error (.reservedField 0x80#8) ∧
    decode 0x00010F1E#32 = .error (.unusedOperandB 0x01#8) ∧
    decode 0x00000139#32 = .error (.unusedOperandA 0x01#8) := by decide

theorem test_decodeTableWord_masks_high_bits :
    decodeTableWord 32 0x00835701 = some (.gmul 0x57#8 0x83#8) ∧ decodeTableWord 8 0x00835701 = some (.gmul 0 0) ∧
    decodeTableWord 32 0x00000005 = none := by decide

/-! ### Table commands (R110 to R113, V-F1, V-F2) -/

theorem test_gmul : (run 0x00835701 State.reset).map (·.result) = some 0x000000C1#32 := by decide

/-- `a = 0x80, b = 0x02` gives 0x1B, `a = b = 0xff` gives 0x13, `a = 0x53, b = 0xca` gives 0x01. -/
theorem test_gmul_corners :
    (run 0x00028001 State.reset).map (·.result) = some 0x1B#32 ∧
    (run 0x00FFFF01 State.reset).map (·.result) = some 0x13#32 ∧
    (run 0x00CA5301 State.reset).map (·.result) = some 0x01#32 := by decide

theorem test_sbox :
    (run 0x00005302 State.reset).map (·.result) = some 0x000000ED#32 ∧
    (run 0x00000002 State.reset).map (·.result) = some 0x63#32 ∧
    (run 0x0000FF02 State.reset).map (·.result) = some 0x16#32 := by decide

theorem test_isbox :
    (run 0x0000ED03 State.reset).map (·.result) = some 0x00000053#32 ∧
    (run 0x00000003 State.reset).map (·.result) = some 0x52#32 := by decide

theorem test_rcon :
    (run 0x00000704 State.reset).map (·.result) = some 0x00000040#32 ∧
    (run 0x00000904 State.reset).map (·.result) = some 0x1B#32 ∧
    (run 0x0000FF04 State.reset).map (·.result) = some 0x8D#32 := by decide

/-! ### Round-step commands on `S0` (R141 to R147) -/

theorem test_subb :
    (run 0x18 (withState s0)).map (·.state) = some (hexBytes 16 0x638293c31bfc33f5c4eeacea4bc12816) := by
  decide +kernel

theorem test_isubb :
    (run 0x19 (withState s0)).map (·.state) = some (hexBytes 16 0x52e3946686edd30297f962fe27c9997d) := by
  decide +kernel

theorem test_shrows :
    (run 0x1A (withState s0)).map (·.state) = some (hexBytes 16 0x0055aaff4499ee3388dd2277cc1166bb) := by
  decide +kernel

theorem test_ishrows :
    (run 0x1B (withState s0)).map (·.state) = some (hexBytes 16 0x00ddaa774411eebb885522ffcc996633) := by
  decide +kernel

theorem test_mixcol :
    (run 0x1C (withState s0)).map (·.state) = some (hexBytes 16 0x2277005566334411aaff88ddeebbcc99) := by
  decide +kernel

/-- The column db 13 53 45 becomes 8e 4d a1 bc (V-F4). -/
theorem test_mixcol_column :
    (run 0x1C (withState (hexBytes 16 0xdb135345db135345db135345db135345))).map (·.state) =
      some (hexBytes 16 0x8e4da1bc8e4da1bc8e4da1bc8e4da1bc) := by
  decide +kernel

theorem test_imixcol :
    (run 0x1D (withState s0)).map (·.state) = some (hexBytes 16 0xaaff88ddeebbcc992277005566334411) := by
  decide +kernel

theorem test_ark_out_of_range :
    (run 0x00000F1E (withState s0)).map (fun t => (t.status.err, t.status.errCode, t.state)) =
      some (true, .round, s0) := by
  decide +kernel

/-! ### Key schedule and block engine (V-K2, V-F3, V-S1) -/

/-- `EXPKEY[32..48)` and `EXPKEY[224..240)` for the key 00 01 .. 1f (R123). -/
theorem test_keyexp :
    (run 0x10 { State.reset with key := countKey }).map
        (fun t => (roundKey t.expkey 2, roundKey t.expkey 14, t.status.keyValid)) =
      some (hexBytes 16 0xa573c29fa176c498a97fce93a572c09c, hexBytes 16 0x24fc79ccbf0979e9371ac23c6d68de36, true) := by
  decide +kernel

/-- `ARK 0` on `S0` with the key 00 01 .. 1f expanded (R147). -/
theorem test_ark :
    (run 0x1E { withState s0 with expkey := expandKey countKey, status := ⟨true, false, false, .none, .ok⟩ }).map
        (·.state) = some (hexBytes 16 0x00102030405060708090a0b0c0d0e0f0) := by
  decide +kernel

/-- V-F3, the vector of rule R148. -/
theorem test_encblk :
    (run 0x11 { withState s0 with expkey := expandKey countKey, status := ⟨true, false, false, .none, .ok⟩ }).map
        (·.state) = some (hexBytes 16 0x8ea2b7ca516745bfeafc49904b496089) := by
  decide +kernel

/-- V-F3 backwards, the vector of rule R149. -/
theorem test_decblk :
    (run 0x12 { withState (hexBytes 16 0x8ea2b7ca516745bfeafc49904b496089) with
        expkey := expandKey countKey, status := ⟨true, false, false, .none, .ok⟩ }).map (·.state) = some s0 := by
  decide +kernel

/-- V-S1, the golden keystream block: `IV` = 01 × 16 under the all-zero key. -/
theorem test_golden_block :
    cipher (hexBytes 16 0x01010101010101010101010101010101) (expandKey (.zero 32)) =
      hexBytes 16 0x7bc3026cd737103e62902bcd18fb0163 := by
  decide +kernel

/-! ### Keystream primitives (V-S1) -/

theorem test_ksload :
    (run 0x20 { State.reset with iv := s0 }).map (fun t => (t.ksr, t.iv, t.status.ksValid, t.draws)) =
      some (s0, s0, true, 0) := by
  decide

/-- `KSNEXT` after `KSLOAD` of 01 × 16 gives the golden block (R171). -/
theorem test_ksnext (s : State) (h : s.status.keyValid = true) (h2 : s.status.ksValid = true)
    (hk : s.ksr = hexBytes 16 0x01010101010101010101010101010101) (hw : s.expkey = expandKey (.zero 32)) :
    (nextOf (exec .ksnext s)).map (·.ksr) = some (hexBytes 16 0x7bc3026cd737103e62902bcd18fb0163) := by
  simp only [exec, execKsnext, h, h2, hk, hw, test_golden_block, Bool.true_eq_false, if_false, nextOf, Option.map,
    State.finish]

/-- `KSXOR` with `STATE` = 0 copies `KSR` into `STATE`, and needs no key (R172). -/
theorem test_ksxor :
    (run 0x22 { withFlags false true with ksr := s0 }).map (·.state) = some s0 := by
  decide

/-! ### Stream commands: V-S2, the example of rules R175 and R176 -/

/-- All-zero `KEY`, `AUTO_IV` = 0, `IV` = 01 × 16, `LEN` = 0. -/
def streamStart : State :=
  { State.reset with ctrl := ⟨false, .unset⟩, iv := hexBytes 16 0x01010101010101010101010101010101 }

/-- The second half of the envelope is 6b d3 12 7c .. 73. -/
theorem test_streamEnc (k : Nat) (hk : k < 16) :
    (streamStart.expandOnEntry.encryptStream (padCur [])).byteAt (0x2010 + k) =
      (hexBytes 16 0x6bd3127cc727002e72803bdd08eb1173).get k := by
  have h := (streamStart.expandOnEntry.encryptStream_bytes (padCur []) (by decide)).2.1 k hk
  rw [h, show k / 16 = 0 by omega, show k % 16 = k by omega, keystreamBlock]
  rw [show cipher streamStart.expandOnEntry.iv streamStart.expandOnEntry.expkey =
    hexBytes 16 0x7bc3026cd737103e62902bcd18fb0163 from test_golden_block]
  clear h
  revert k
  decide

/-- `OUTLEN` and `STATUS` of an encrypt command by `LEN`, through the lemmas of Laws/. -/
theorem streamEnc_report (i : Instr) (p : Path) (h : RunsStreamEnc i p) (n : Word) (hn : n.toNat ≤ 4096) :
    (nextOf (exec i { streamStart with len := n })).map (fun t => (t.outlen, t.status)) =
      some (BitVec.ofNat 32 (16 + 16 * (n.toNat / 16 + 1)), ⟨true, true, false, p, .ok⟩) := by
  rw [exec_of_runsStreamEnc _ h]
  rcases streamEnc_conclude { streamStart with len := n } p with ⟨h1, _⟩ | ⟨_, h2⟩
  · exact absurd h1 (Nat.not_lt.2 hn)
  · rw [h2, nextOf, Option.map_some, State.finish_outlen, State.encryptStream_outlen, length_padCur,
      State.length_ibufBytes, Nat.mul_div_cancel_left _ (by decide)]
    simp [Status.succeed, State.expandOnEntry]

/-- `LEN = 0` and `LEN = 15` give `OUTLEN` = 32, `LEN = 16` gives 48, `LEN = BUF_SIZE` gives `BUF_SIZE + 32` (R175). -/
theorem test_encCur :
    (nextOf (exec .encCur { streamStart with len := 15#32 })).map (fun t => (t.outlen, t.status)) =
      some (32#32, ⟨true, true, false, .none, .ok⟩) ∧
    (nextOf (exec .encCur { streamStart with len := 4096#32 })).map (fun t => (t.outlen, t.status)) =
      some (4128#32, ⟨true, true, false, .none, .ok⟩) :=
  ⟨streamEnc_report _ _ (.inl ⟨rfl, rfl⟩) 15#32 (by decide), streamEnc_report _ _ (.inl ⟨rfl, rfl⟩) 4096#32 (by decide)⟩

theorem test_encOld :
    (nextOf (exec .encOld { streamStart with len := 16#32 })).map (fun t => (t.outlen, t.status)) =
      some (48#32, ⟨true, true, false, .none, .ok⟩) :=
  streamEnc_report _ _ (.inr (.inl ⟨rfl, rfl⟩)) 16#32 (by decide)

theorem test_encrypt :
    (nextOf (exec .encrypt { streamStart with len := 0#32 })).map (fun t => (t.outlen, t.status)) =
      some (32#32, ⟨true, true, false, .current, .ok⟩) :=
  streamEnc_report _ _ (.inr (.inr ⟨rfl, rfl⟩)) 0#32 (by decide)

/-- The envelope of V-S2 in `IBUF`, `LEN` = 32. -/
def envelopeInput : State :=
  withInput 32#32
    ((hexBytes 16 0x01010101010101010101010101010101).toList ++ (hexBytes 16 0x6bd3127cc727002e72803bdd08eb1173).toList)
    0 []

/-- The padded plaintext of V-S2 is 10 × 16, whose last byte leaves an empty plaintext (R176). -/
theorem test_decryptStream :
    (envelopeInput.expandOnEntry.decryptStream (envelopeInput.ibufBytes 32)).2 = List.replicate 16 0x10#8 := by
  rw [State.decryptStream]
  simp only [State.length_ibufBytes]
  rw [show (32 - 16) / 16 = 0 + 1 from rfl, streamLoop, streamLoop]
  rw [show cipher (envelopeIv (envelopeInput.ibufBytes 32)) envelopeInput.expandOnEntry.expkey =
    hexBytes 16 0x7bc3026cd737103e62902bcd18fb0163 by
      rw [← test_golden_block, show envelopeIv (envelopeInput.ibufBytes 32) =
        hexBytes 16 0x01010101010101010101010101010101 by decide]
      rfl]
  decide

theorem test_unpadLen :
    unpadLen (List.replicate 16 0x10#8) = some 0 ∧ unpadLen (List.replicate 16 0x01#8) = some 15 ∧
    unpadLen (List.replicate 32 0x11#8) = none ∧ unpadLen (List.replicate 16 0x00#8) = none := by decide

/-- `LEN` = 16, 31 and 33 are no envelopes (R176). -/
theorem test_decCur_envelope :
    (nextOf (exec .decCur { streamStart with len := 16#32 })).map (·.status.errCode) = some .envelope ∧
    (nextOf (exec .decCur { streamStart with len := 31#32 })).map (·.status.errCode) = some .envelope ∧
    (nextOf (exec .decOld { streamStart with len := 33#32 })).map (·.status.errCode) = some .envelope := by
  decide

/-! ### XOR cipher and dispatcher (V-X3) -/

/-- "hello" under the password "key" is 03 00 15 07 0a (R201). -/
theorem test_xorc :
    (nextOf (exec .xorc (withInput 5#32 [0x68#8, 0x65#8, 0x6c#8, 0x6c#8, 0x6f#8] 3#32 [0x6b#8, 0x65#8, 0x79#8]))).map
        (fun t => (t.obufBytes 5, t.outlen, t.status.err)) =
      some ([0x03#8, 0x00#8, 0x15#8, 0x07#8, 0x0a#8], 5#32, false) := by
  decide

theorem test_xorc_pwlen :
    (nextOf (exec .xorc (withInput 0 [] 0 []))).map (·.status.errCode) = some .pwlen ∧
    (nextOf (exec .xorc (withInput 0 [] 257#32 []))).map (·.status.errCode) = some .pwlen := by
  decide

/-- `DECRYPT` at version 0 by the XOR route reports `PATH` = 3 (R212). -/
theorem test_decrypt_xor_route :
    (nextOf (exec .decrypt { withInput 5#32 [0x68#8, 0x65#8, 0x6c#8, 0x6c#8, 0x6f#8] 3#32 [0x6b#8, 0x65#8, 0x79#8] with
        version := 0, ctrl := ⟨true, .xor⟩ })).map (fun t => (t.obufBytes 5, t.status.path)) =
      some ([0x03#8, 0x00#8, 0x15#8, 0x07#8, 0x0a#8], .legacyXor) := by
  decide

/-- Before the host writes `VERSION`, `DECRYPT` fails with `ERR_VERSION`; at version 0 with the route unset, `ERR_ROUTE`. -/
theorem test_decrypt_refuses_to_guess :
    (run 0x39 State.reset).map (fun t => (t.status.err, t.status.errCode, t.status.path)) = some (true, .version, .none) ∧
    (run 0x39 { State.reset with version := 0 }).map (fun t => (t.status.err, t.status.errCode)) =
      some (true, .route) := by
  decide

theorem test_nop :
    (run 0x00 withError).map (fun t => (t.status.err, t.status.errCode, t.status.path)) = some (false, .ok, .none) := by
  decide

/-! ### The host interface -/

/-- The block 00 11 .. ff is written to `STATE` as 0x33221100 and so on (R53). -/
theorem test_write_state_words :
    (nextOf (writeWord 0x0070 0x33221100#32 State.reset)).map (fun t => (t.state.get 0, t.state.get 3, t.state.get 4)) =
      some (0x00#8, 0x33#8, 0x00#8) ∧
    (withState s0).readWord 0x007C = 0xFFEEDDCC#32 := by
  decide

/-- A word of `CTRL` keeps its low three bits (R22). -/
theorem test_write_ctrl :
    (nextOf (writeWord 0x0004 0xFFFFFFF9#32 State.reset)).map (fun t => (t.readWord 0x0004, t.ctrl)) =
      some (1#32, ⟨true, .xor⟩) := by
  decide

/-- `STATUS` after `ARK 15` from reset is 0x00000404 (R24, R230). -/
theorem test_status_word : (run 0x00000F1E State.reset).map (·.readWord 0x0008) = some 0x00000404#32 := by decide

/-- An illegal word is stored in `CMD` and reported (R84). -/
theorem test_illegal_word :
    (run 0x3A State.reset).map (fun t => (t.cmd, t.readWord 0x0008, t.outlen)) =
      some (0x3A#32, 0x00000104#32, 0#32) := by
  decide

theorem test_misaligned_write_is_stuck : step (withEvents [.write 0x0041 4 0]) = .fault (.misaligned 0x0041) := by
  rfl

theorem test_assembler :
    expandLine (.loadw .pw [0x6b#8, 0x65#8, 0x79#8]) = some [.write 0x0200 4 0x0079656B#32] ∧
    expandLine (.readw .obuf 5) = some [.read 0x2000 4, .read 0x2004 4] ∧
    expandLine (.w32 (.window .iv 4) 7#32) = some [.write 0x0064 4 7#32] ∧
    expandProgram [.setlen 5#32, .comment "x", .command ⟨.xorc, []⟩] =
      some [.write 0x0014 4 5#32, .write 0x000C 4 0x34#32] ∧
    expandLine (.command ⟨.ark, [256]⟩) = none := by
  decide

/-! ### Witnesses: states and operands that meet the hypotheses of each statement -/

/-- The reset state while the reset input is asserted. -/
def heldInReset (es : List HostEvent) : State := { withEvents es with inReset := true }

theorem test_witness_ResetInputHoldsAndReleases :
    (withEvents [.resetLine true]).pending = .resetLine true :: [] ∧
    ((heldInReset [.write 0x3FFC 4 1]).pending = .write 0x3FFC 4 1 :: [] ∧ 0x3FFC < 0x4000 ∧ 0x3FFC % 4 = 0 ∧
      (heldInReset [.write 0x3FFC 4 1]).inReset = true) ∧
    ((heldInReset [.read 0x0000 4]).pending = .read 0x0000 4 :: [] ∧ (heldInReset [.read 0x0000 4]).inReset = true) ∧
    ((heldInReset [.resetLine false]).pending = .resetLine false :: [] ∧
      (heldInReset [.resetLine false]).inReset = true) := by
  decide

theorem test_witness_StepRunsDecodedCommand :
    ((withEvents [.write 0x000C 4 0x00835701#32]).pending = .write 0x000C 4 0x00835701#32 :: [] ∧
      (withEvents [.write 0x000C 4 0x00835701#32]).inReset = false ∧ decode 0x00835701#32 = .ok (.gmul 0x57#8 0x83#8) ∧
      (Instr.gmul 0x57#8 0x83#8).wellFormed = true) ∧
    (32 ≤ 32 ∧ decodeTableWord 32 0x00000039 = some .decrypt) ∧
    (8 ≤ 32 ∧ decodeTableWord 8 0x01 = some (.gmul 0 0)) := by
  decide

theorem test_witness_StepServesExactlyOneEvent :
    State.reset.pending = [] ∧ (0x0014 < 0x4000 ∧ 0x0014 % 4 = 0 ∧ (withEvents [.write 0x0014 4 5]).inReset = false) ∧
    ∃ t, (withEvents [.write 0x0014 4 5]).pending = .write 0x0014 4 5 :: [] ∧
      step (withEvents [.write 0x0014 4 5]) = .next t :=
  ⟨rfl, ⟨by decide, rfl, rfl⟩, _, rfl, rfl⟩

theorem test_witness_OnlyIllegalAccessesStop :
    ((withEvents [.read 0x0000 2]).pending = .read 0x0000 2 :: [] ∧ 2 ≠ 4) ∧
    ((withEvents [.write 0x3FFF 4 0]).pending = .write 0x3FFF 4 0 :: [] ∧ 0x3FFF % 4 ≠ 0) ∧
    ((withEvents [.read 0x4000 4]).pending = .read 0x4000 4 :: [] ∧ 0x4000 ≤ 0x4000) := by
  decide

theorem test_witness_OnlyIllegalAccessesStop_safe : (withEvents [.read 0x3FFC 4, .resetLine true]).Safe := by
  intro e he
  simp only [withEvents, List.mem_cons, List.not_mem_nil, or_false] at he
  rcases he with rfl | rfl
  · exact ⟨by decide, rfl, rfl⟩
  · trivial

theorem test_witness_IllegalWordChangesOnlyCmdAndStatus :
    (withEvents [.write 0x000C 4 0x00000100#32]).pending = .write 0x000C 4 0x00000100#32 :: [] ∧
    (withEvents [.write 0x000C 4 0x00000100#32]).inReset = false ∧
    ∀ m : Mnemonic, 0x00000100#32 &&& m.format.mask ≠ m.matchWord := by
  refine ⟨rfl, rfl, fun m => ?_⟩
  cases m <;> decide

theorem test_witness_ReadHasNoSideEffect :
    (withEvents [.read 0x3FFC 4]).pending = .read 0x3FFC 4 :: [] ∧ 0x3FFC < 0x4000 ∧ 0x3FFC % 4 = 0 ∧
    (withEvents [.read 0x3FFC 4]).inReset = false ∧ ∃ t, step (withEvents [.read 0x3FFC 4]) = .next t :=
  ⟨rfl, by decide, rfl, rfl, _, rfl⟩

theorem test_witness_WindowsReadLittleEndian :
    28 % 4 = 0 ∧ 12 % 4 = 0 ∧ 236 % 4 = 0 ∧ 252 % 4 = 0 ∧ 3 < 4 ∧ 28 < 32 ∧ 12 < 16 ∧ 236 < 240 ∧ 252 < 256 ∧
    4092 % 4 = 0 ∧ 4092 < State.reset.bufSize.bytes ∧ 4124 % 4 = 0 ∧ 4124 < State.reset.bufSize.bytes + 32 := by
  decide

/-- A smaller buffer, so that the decoded but unused bytes of the buffers exist: `BUF_SIZE` = 32. -/
def smallBuffer : State := { State.reset with bufSize := ⟨32, by decide, by decide, by decide⟩ }

theorem test_witness_ReservedOffsetsReadZeroIgnoreWrites :
    (0x0024 ≤ 0x003F ∧ 0x0090 ≤ 0x00FF ∧ 0x01F0 ≤ 0x01FF ∧ 0x0300 ≤ 0x0FFF ∧ 0x3020 ≤ 0x3FFF) ∧
    (0x1000 + smallBuffer.bufSize.bytes ≤ 0x1020 ∧ 0x1020 ≤ 0x1FFF) ∧
    (0x2000 + smallBuffer.bufSize.bytes + 32 ≤ 0x2040 ∧ 0x2040 ≤ 0x301F) ∧
    (smallBuffer.locate 0x101F ≠ none ∧ smallBuffer.locate 0x1020 = none ∧ smallBuffer.locate 0x1FFF = none) ∧
    (smallBuffer.locate 0x203F ≠ none ∧ smallBuffer.locate 0x2040 = none ∧ smallBuffer.locate 0x301F = none) ∧
    (State.reset.locate 0x301F ≠ none ∧ State.reset.locate 0x3020 = none) ∧
    ((withEvents [.read 0x3FFC 4]).pending = .read 0x3FFC 4 :: [] ∧ 0x3FFC % 4 = 0 ∧ 0x3020 ≤ 0x3FFC ∧ 0x3FFC ≤ 0x3FFF ∧
      (withEvents [.read 0x3FFC 4]).inReset = false) := by
  decide

theorem test_witness_ReadOnlyOffsetsIgnoreWrites :
    0x0080 ≤ 0x008F ∧ 0x0100 ≤ 0x01EF ∧ 0x2000 ≤ 0x201F ∧ 0x301F < 0x2000 + State.reset.bufSize.bytes + 32 := by
  decide

theorem test_witness_KeyWriteClearsKeyValid :
    28 % 4 = 0 ∧ 28 < 32 ∧ 3 < 4 ∧ 31 < 32 ∧ 27 < 32 ∧ ¬ (28 ≤ 27 ∧ 27 < 28 + 4) := by
  decide

theorem test_witness_OtherWritesOnlyStore :
    12 % 4 = 0 ∧ 12 < 16 ∧ 15 < 16 ∧ 0x02FC % 4 = 0 ∧ 0x0200 ≤ 0x02FC ∧ 0x02FC < 0x0300 ∧
    0x1FFC % 4 = 0 ∧ 0x1000 ≤ 0x1FFC ∧ 0x1FFC < 0x1000 + State.reset.bufSize.bytes := by
  decide

theorem test_witness_ReadAfterWriteReturnsTheWord :
    0x0018 % 4 = 0 ∧ 0x0010 ≤ 0x0018 ∧ 0x0018 < 0x001C ∧ 0x007C % 4 = 0 ∧ 0x0040 ≤ 0x007C ∧ 0x007C < 0x0080 ∧
    0x02FC % 4 = 0 ∧ 0x0200 ≤ 0x02FC ∧ 0x02FC < 0x0300 ∧
    0x1FFC % 4 = 0 ∧ 0x1000 ≤ 0x1FFC ∧ 0x1FFC < 0x1000 + State.reset.bufSize.bytes := by
  decide

/-! #### Invariants -/

/-- The reset state with one byte written and the write of a word to `IBUF` next. -/
def ramStart : State := { withEvents [.write 0x1FFC 4 7] with ram := [(0x1000, 1#8)] }

theorem test_witness_StepKeepsMemoryCanonical : ramStart.RamOk ∧ ∃ t, step ramStart = .next t := by
  refine ⟨⟨by decide, fun c hc => ?_⟩, _, rfl⟩
  simp only [ramStart, List.mem_cons, List.not_mem_nil, or_false] at hc
  subst hc
  exact .inr (.inl ⟨by decide, by decide⟩)

/-- A valid key, and the write of a command word next. -/
def keyedStart (v : Word) : State :=
  { withEvents [.write 0x000C 4 v] with expkey := expandKey (.zero 32), status := ⟨true, true, false, .none, .ok⟩ }

theorem test_witness_StepKeepsKeyValidMeansExpanded :
    (keyedStart 0x00000000#32).KeyValidOk ∧ (keyedStart 0x00000000#32).status.keyValid = true ∧
    ∃ t, step (keyedStart 0x00000000#32) = .next t :=
  ⟨fun _ => rfl, rfl, _, rfl⟩

theorem test_witness_StepKeepsReportsInRange :
    (withEvents [.write 0x000C 4 0x0000FF02#32]).ErrorReportOk ∧ (withEvents [.write 0x000C 4 0x0000FF02#32]).ResultOk ∧
    (withEvents [.write 0x000C 4 0x0000FF02#32]).OutlenOk ∧
    ∃ t, step (withEvents [.write 0x000C 4 0x0000FF02#32]) = .next t :=
  ⟨by unfold State.ErrorReportOk; decide, by unfold State.ResultOk; decide, by unfold State.OutlenOk; decide, _, rfl⟩

/-- Both flags are cleared by the release of reset, `KEY_VALID` also by a `KEY` write, and `KEYEXP` and `KSLOAD` set them. -/
theorem test_witness_ValidityFlagsChangeOnlyAsSaid :
    (∃ t, step { withFlags true true with pending := [.resetLine false], inReset := true } = .next t ∧
      t.status.keyValid = false ∧ t.status.ksValid = false) ∧
    (∃ t, step { withFlags true true with pending := [.write 0x005C 4 0] } = .next t ∧ t.status.keyValid = false) ∧
    (∃ t, step { withFlags false false with pending := [.write 0x000C 4 0x10] } = .next t ∧
      t.status.keyValid = true) ∧
    ∃ t, step { withFlags false false with pending := [.write 0x000C 4 0x20] } = .next t ∧ t.status.ksValid = true :=
  ⟨⟨_, rfl, rfl, rfl⟩, ⟨_, rfl, rfl⟩, ⟨_, rfl, rfl⟩, ⟨_, rfl, rfl⟩⟩

/-! #### Encoding -/

theorem test_witness_DecodeOfEncodeIsTheCommand :
    (Instr.gmul 0xFF#8 0xFF#8).wellFormed = true ∧ (Instr.ark 0xFF#8).wellFormed = true ∧
    decode 0x00FFFF01#32 = .ok (.gmul 0xFF#8 0xFF#8) := by
  decide

theorem test_witness_CommandLinesAssembleToTheirWords :
    (⟨.ark, [255]⟩ : SourceCommand).wellFormed = true ∧ (⟨.ark, [256]⟩ : SourceCommand).wellFormed = false := by
  decide

theorem test_witness_PseudoInstructionsStartNoCommand :
    ∃ es, expandLine (.loadw .iv [1#8, 2#8, 3#8, 4#8, 5#8]) = some es ∧
      (∀ c, SourceLine.loadw .iv [1#8, 2#8, 3#8, 4#8, 5#8] ≠ .command c) ∧
      (∀ off v, SourceLine.loadw .iv [1#8, 2#8, 3#8, 4#8, 5#8] ≠ .w32 off v) ∧
      (∀ off, SourceLine.loadw .iv [1#8, 2#8, 3#8, 4#8, 5#8] ≠ .r32 off) ∧ es ≠ [] := by
  refine ⟨_, rfl, ?_, ?_, ?_, by decide⟩ <;> intros <;> simp

/-! #### Field, tables, key schedule and block engine -/

theorem test_witness_GmulFieldLaws : (0x53#8 : Byte) ≠ 0 ∧ gmul 0x53#8 0xCA#8 = 1 := by decide

theorem test_witness_SboxTablesAreTheAffineInverse : gmul 0x53#8 0xCA#8 = 1 ∧ gmul 0x01#8 0x01#8 = 1 := by decide

theorem test_witness_RconIsThePowersOfTwo : (1 ≤ 254 ∧ 254 < 255) ∧ (52 ≤ 255 ∧ 255 < 256) ∧ (52 ≤ 52 ∧ 1 ≤ 1) := by decide

theorem test_witness_ExpandedKeyRecurrence :
    (32 ≤ 32 ∧ 32 < 240 ∧ 32 % 4 = 0 ∧ 3 < 4) ∧ (236 < 240 ∧ 236 % 4 = 0) ∧ (48 % 32 = 16 ∧ 48 < 240) ∧ 15 < 16 ∧ 31 < 32 := by
  decide

theorem test_witness_LanewiseRoundSteps : 15 < 16 ∧ 3 < 4 := by decide

theorem test_witness_ArkAddsTheRoundKey :
    ((14#8).toNat ≤ 14 ∧ (withFlags true false).status.keyValid = true) ∧ 14 < (15#8).toNat ∧ 14 < (255#8).toNat ∧
    ((14#8).toNat ≤ 14 ∧ (withFlags false false).status.keyValid = false) := by
  decide

/-- The sequences of V-B3 and V-B4, by their length and their rounds. -/
theorem test_round_sequences :
    cipherSteps.length = 56 ∧ invCipherSteps.length = 56 ∧
    cipherSteps.take 6 = [.ark 0, .subb, .shrows, .mixcol, .ark 1, .subb] ∧
    cipherSteps.drop 49 = [.subb, .shrows, .mixcol, .ark 13, .subb, .shrows, .ark 14] ∧
    invCipherSteps.take 8 = [.ark 14, .ishrows, .isubb, .ark 13, .imixcol, .ishrows, .isubb, .ark 12] ∧
    invCipherSteps.drop 51 = [.ark 1, .imixcol, .ishrows, .isubb, .ark 0] := by decide

theorem test_witness_BlockCommandsCipherState :
    (withFlags true false).status.keyValid = true ∧ (withFlags false false).status.keyValid = false := by
  decide

theorem test_witness_EncblkThenDecblkRestoresState :
    (withFlags true false).status.keyValid = true ∧ ∃ t, exec .encblk (withFlags true false) = .next t :=
  ⟨rfl, _, rfl⟩

/-! #### Padding and keystream -/

theorem test_witness_UnpaddingUndoesPadding :
    (16 ≤ (List.replicate 16 0x10#8).length ∧ (List.replicate 16 0x10#8).length % 16 = 0 ∧
      (List.replicate 16 0x10#8).getLast? = some 0x10#8 ∧ 1 ≤ (0x10#8).toNat ∧ (0x10#8).toNat ≤ 16) ∧
    ((List.replicate 32 0x11#8).length % 16 = 0 ∧ (List.replicate 32 0x11#8).getLast? = some 0x11#8 ∧
      16 < (0x11#8).toNat) ∧
    (List.replicate 16 0x00#8).getLast? = some 0x00#8 ∧ (0x00#8).toNat < 1 := by
  decide

theorem test_witness_KeystreamPrimitives :
    ((withFlags true true).status.keyValid = true ∧ (withFlags true true).status.ksValid = true) ∧
    (withFlags false true).status.keyValid = false ∧
    ((withFlags true false).status.keyValid = true ∧ (withFlags true false).status.ksValid = false) := by
  decide

theorem test_witness_KsnextWalksTheKeystream : (withFlags true false).status.keyValid = true := rfl

/-! #### Stream commands -/

theorem test_witness_EncryptWritesTheEnvelope :
    RunsStreamEnc .encCur .none ∧ RunsStreamEnc .encOld .none ∧ RunsStreamEnc .encrypt .current ∧
    (withInput 4096#32 [] 0 []).len.toNat ≤ (withInput 4096#32 [] 0 []).bufSize.bytes ∧
    (withInput 4096#32 [] 0 []).ctrl.autoIv = true ∧ streamStart.ctrl.autoIv = false ∧ streamStart.len.toNat = 0 :=
  ⟨.inl ⟨rfl, rfl⟩, .inr (.inl ⟨rfl, rfl⟩), .inr (.inr ⟨rfl, rfl⟩), by decide, rfl, rfl, rfl⟩

theorem test_witness_EncryptFrame :
    (∃ t, exec .encCur streamStart = .next t) ∧ (∃ t, exec .encOld (withInput 4096#32 [] 0 []) = .next t) ∧
    ∃ t, exec .encrypt streamStart = .next t :=
  ⟨⟨_, rfl⟩, ⟨_, rfl⟩, ⟨_, rfl⟩⟩

/-- The reset state with an envelope of `LEN` bytes, `VERSION` and `CTRL`. -/
def decryptStart (len version : Word) (route : LegacyRoute) : State :=
  { withInput len (List.replicate 32 0) 1#32 [0x41#8] with version := version, ctrl := ⟨false, route⟩ }

/-- Every form that runs `StreamDec`: the two commands, the current path at its smallest and largest version, and the legacy
path by `AES_OLD`. -/
theorem test_witness_DecryptWritesThePaddedPlaintext :
    RunsStreamDec .decCur (decryptStart 32#32 0 .unset) .none ∧ RunsStreamDec .decOld (decryptStart 32#32 0 .unset) .none ∧
    RunsStreamDec .decrypt (decryptStart 4096#32 0x00000001#32 .unset) .current ∧
    RunsStreamDec .decrypt (decryptStart 32#32 0x7FFFFFFF#32 .unset) .current ∧
    RunsStreamDec .decrypt (decryptStart 32#32 0 .aesOld) .legacyAes ∧
    (∀ r, (decryptStart 4096#32 1 r).len.toNat ≤ (decryptStart 4096#32 1 r).bufSize.bytes ∧
      32 ≤ (decryptStart 4096#32 1 r).len.toNat ∧ (decryptStart 4096#32 1 r).len.toNat % 16 = 0 ∧
      (decryptStart 32#32 1 r).len.toNat = 32) := by
  refine ⟨.inl ⟨rfl, rfl⟩, .inr (.inl ⟨rfl, rfl⟩), .inr (.inr (.inl ⟨rfl, by decide, rfl⟩)),
    .inr (.inr (.inl ⟨rfl, by decide, rfl⟩)), .inr (.inr (.inr ⟨rfl, by decide, rfl, .inl rfl⟩)), fun r => ?_⟩
  cases r <;> decide

/-- Under `SHAPE` the uninterpreted predicate decides, and whichever way it does, one of the two families of statements
applies. -/
theorem test_witness_shape_route :
    RunsStreamDec .decrypt (decryptStart 32#32 0 .shape) .legacyAes ∨
    RunsXorRun .decrypt (decryptStart 32#32 0 .shape) .legacyXor := by
  cases h : Config.aesCapable ((decryptStart 32#32 0 .shape).ibufBytes (decryptStart 32#32 0 .shape).len.toNat)
  · exact .inr (.inr ⟨rfl, by decide, rfl, .inr ⟨rfl, h⟩⟩)
  · exact .inl (.inr (.inr (.inr ⟨rfl, by decide, rfl, .inr ⟨rfl, h⟩⟩)))

/-- An envelope of 32 bytes whose last plaintext byte is `n`: its last byte is `n` XOR the keystream's last byte. -/
def paddedWith (n : Byte) : State :=
  withInput 32#32
    (List.replicate 31 0 ++ [n ^^^ (cipher (.zero 16) (expandKey (.zero 32))).get 15]) 0 []

/-- Every last plaintext byte is met: 1 and 16 at the ends of the good range, 0 and 17 just outside it. -/
theorem test_witness_decrypt_last_byte (n : Byte) :
    RunsStreamDec .decCur (paddedWith n) .none ∧ (paddedWith n).len.toNat ≤ (paddedWith n).bufSize.bytes ∧
    32 ≤ (paddedWith n).len.toNat ∧ (paddedWith n).len.toNat % 16 = 0 ∧
    ∃ t, exec .decCur (paddedWith n) = .next t ∧ t.byteAt (0x2000 + ((paddedWith n).len.toNat - 17)) = n := by
  refine ⟨.inl ⟨rfl, rfl⟩, show 32 ≤ 4096 by decide, show 32 ≤ 32 by decide, show 32 % 16 = 0 by decide, _, rfl, ?_⟩
  have hlen : (paddedWith n).len.toNat = 32 := rfl
  have hb := (paddedWith n).expandOnEntry.decryptStream_bytes ((paddedWith n).ibufBytes 32)
    (by rw [State.length_ibufBytes]) (by rw [State.length_ibufBytes])
  have hmem : ∀ y, (paddedWith n).byteAt y =
      if 0x1000 ≤ y ∧ y < 0x1000 + 32 then
        (List.replicate 31 0 ++ [n ^^^ (cipher (.zero 16) (expandKey (.zero 32))).get 15]).getD (y - 0x1000) 0
      else Config.powerOnByte 0 y := fun y =>
    State.byteAt_setBytes State.reset (paddedWith n) 0x1000
      (List.replicate 31 0 ++ [n ^^^ (cipher (.zero 16) (expandKey (.zero 32))).get 15]) rfl rfl y
  have hiv : envelopeIv ((paddedWith n).ibufBytes 32) = .zero 16 := by
    rw [envelopeIv_ibufBytes _ (by decide)]
    apply Bytes.ext_get
    intro j hj
    rw [Bytes.get_tab_of_lt _ hj, hmem, if_pos (by omega), Bytes.get_zero, show 0x1000 + j - 0x1000 = j by omega,
      List.getD_eq_getElem?_getD, List.getElem?_append_left (by simp; omega), List.getElem?_replicate, if_pos (by omega)]
    rfl
  have hlast : ((paddedWith n).expandOnEntry.decryptStream ((paddedWith n).ibufBytes 32)).1.byteAt (0x2000 + 15) = n := by
    rw [hb.2.2.2.1 15 (by rw [State.length_ibufBytes]; decide), hb.2.1 15 (by rw [State.length_ibufBytes]; decide), hiv,
      State.ibufBytes, State.getD_bytesAt _ (by decide), hmem, if_pos (by decide)]
    rw [show 15 / 16 = 0 from rfl, keystreamBlock, show 15 % 16 = 15 from rfl,
      show (paddedWith n).expandOnEntry.expkey = expandKey (.zero 32) from rfl]
    generalize (cipher (.zero 16) (expandKey (.zero 32))).get 15 = x
    rw [show Config.ibufBase + (16 + 15) - 0x1000 = 31 from rfl, List.getD_eq_getElem?_getD,
      List.getElem?_append_right (by simp)]
    simp
  rw [hlen]
  rcases streamDec_cases (paddedWith n) with ⟨h, _⟩ | ⟨_, h, _⟩ | ⟨_, _, _, d, hd, ⟨_, h⟩ | ⟨m, _, h⟩⟩
  · exact absurd h (show ¬ 4096 < 32 by decide)
  · exact absurd h (show ¬ (32 < 32 ∨ 32 % 16 ≠ 0) by decide)
  · rw [h, Ending.conclude_failed, hd, hlen]
    exact hlast
  · rw [h, Ending.conclude_done, hd, hlen]
    exact hlast

theorem test_witness_DecryptFrame :
    (∃ t, exec .decCur (decryptStart 32#32 0 .unset) = .next t) ∧
    (∃ t, exec .decOld (decryptStart 4096#32 0 .unset) = .next t) ∧
    ∃ t, exec .decrypt (decryptStart 32#32 1 .unset) = .next t := by
  exact ⟨⟨_, rfl⟩, ⟨_, rfl⟩, _,
    exec_of_runsStreamDec (p := .current) (by decide) (.inr (.inr (.inl ⟨rfl, by decide, rfl⟩)))⟩

/-- The state after an encrypt, with the envelope copied to `IBUF` and `LEN` set to its length, as the host does it. -/
def copiedBack (t : State) : State :=
  { t with len := t.outlen, ram := Memory.setBytes t.ram 0x1000 (t.obufBytes t.outlen.toNat) }

theorem test_witness_StreamRoundTrip (i : Instr) (hi : i = .encCur ∨ i = .encOld) (n : Word) (hn : n.toNat ≤ 4096 - 32) :
    ∃ t, exec i { streamStart with len := n } = .next t ∧
      ({ streamStart with len := n } : State).len.toNat ≤ ({ streamStart with len := n } : State).bufSize.bytes - 32 ∧
      (copiedBack t).bufSize = ({ streamStart with len := n } : State).bufSize ∧
      (copiedBack t).key = ({ streamStart with len := n } : State).key ∧ (copiedBack t).len = t.outlen ∧
      ∀ k, k < t.outlen.toNat → (copiedBack t).byteAt (0x1000 + k) = t.byteAt (0x2000 + k) := by
  have key : ∀ t : State, ∀ k, k < t.outlen.toNat → (copiedBack t).byteAt (0x1000 + k) = t.byteAt (0x2000 + k) := by
    intro t k hk
    rw [State.byteAt_setBytes t (copiedBack t) 0x1000 (t.obufBytes t.outlen.toNat) rfl rfl, State.length_obufBytes,
      if_pos (by omega), show 0x1000 + k - 0x1000 = k by omega, State.obufBytes, State.getD_bytesAt _ hk]
    rfl
  have hr : RunsStreamEnc i .none := by
    rcases hi with rfl | rfl
    · exact .inl ⟨rfl, rfl⟩
    · exact .inr (.inl ⟨rfl, rfl⟩)
  refine ⟨_, exec_of_runsStreamEnc _ hr, hn, ?_, ?_, rfl, key _⟩
  · rcases streamEnc_conclude { streamStart with len := n } .none with ⟨_, h⟩ | ⟨_, h⟩ <;> rw [h] <;> simp [copiedBack]
  · rcases streamEnc_conclude { streamStart with len := n } .none with ⟨_, h⟩ | ⟨_, h⟩ <;> rw [h] <;> simp [copiedBack]

theorem test_witness_DecryptNeverReadsIv :
    (∃ t, exec .decCur (decryptStart 32#32 0 .unset) = .next t) ∧ (∃ t, exec .decOld (decryptStart 0 0 .unset) = .next t) ∧
    ∃ t, exec .decrypt (decryptStart 0 0 .unset) = .next t :=
  ⟨⟨_, rfl⟩, ⟨_, rfl⟩, ⟨_, rfl⟩⟩

/-! #### XOR cipher, dispatcher and whole-machine rules -/

theorem test_witness_XorCipherIsAnInvolution : 1 ≤ [0x6b#8].length ∧ 1 ≤ [0x68#8, 0x65#8].length := by decide

theorem test_witness_XorRunXorsThePassword :
    RunsXorRun .xorc (decryptStart 0 0 .unset) .none ∧ RunsXorRun .decrypt (decryptStart 0 0 .xor) .legacyXor ∧
    ((withInput 4096#32 [] 256#32 []).len.toNat ≤ (withInput 4096#32 [] 256#32 []).bufSize.bytes ∧
      1 ≤ (withInput 4096#32 [] 256#32 []).pwlen.toNat ∧ (withInput 4096#32 [] 256#32 []).pwlen.toNat ≤ 256) ∧
    1 ≤ (decryptStart 0 0 .xor).pwlen.toNat :=
  ⟨.inl ⟨rfl, rfl⟩, .inr ⟨rfl, by decide, rfl, .inl rfl⟩, by decide, by decide⟩

theorem test_witness_BufferPrecheckErrors :
    ((withInput 4097#32 [] 0 []).bufSize.bytes < (withInput 4097#32 [] 0 []).len.toNat ∧ RunsStreamEnc .encrypt .current) ∧
    ((withInput 31#32 [] 0 []).len.toNat < 32 ∧ (withInput 33#32 [] 0 []).len.toNat % 16 ≠ 0 ∧
      RunsStreamDec .decCur (withInput 31#32 [] 0 []) .none ∧ RunsStreamDec .decOld (withInput 33#32 [] 0 []) .none) ∧
    ((withInput 0 [] 0 []).pwlen.toNat = 0 ∧ 256 < (withInput 0 [] 257#32 []).pwlen.toNat ∧
      RunsXorRun .xorc (withInput 0 [] 0 []) .none) :=
  ⟨⟨by decide, .inr (.inr ⟨rfl, rfl⟩)⟩, ⟨by decide, by decide, .inl ⟨rfl, rfl⟩, .inr (.inl ⟨rfl, rfl⟩)⟩,
    by decide, by decide, .inl ⟨rfl, rfl⟩⟩

theorem test_witness_DecryptRefusesToGuess :
    ((decryptStart 4096#32 0x80000000#32 .xor).len.toNat ≤ (decryptStart 4096#32 0x80000000#32 .xor).bufSize.bytes ∧
      0x80000000 ≤ (decryptStart 4096#32 0x80000000#32 .xor).version.toNat) ∧
    (0x80000000 ≤ (decryptStart 0 0xFFFFFFFF#32 .xor).version.toNat) ∧
    ((decryptStart 0 0 .unset).version = 0 ∧ (decryptStart 0 0 .unset).ctrl.legacyRoute = .unset) := by
  decide

theorem test_witness_PathAfterEachCommand :
    (∃ t, exec .encrypt streamStart = .next t) ∧ (∃ t, exec .ksload streamStart = .next t) ∧
    (∃ t, exec .decrypt (withInput 4097#32 [] 0 []) = .next t ∧
      (withInput 4097#32 [] 0 []).bufSize.bytes < (withInput 4097#32 [] 0 []).len.toNat) ∧
    signed32 (decryptStart 0 0xFFFFFFFF#32 .xor).version < 0 ∧
    (signed32 (decryptStart 0 0 .unset).version = 0 ∧ (decryptStart 0 0 .unset).ctrl.legacyRoute = .unset) ∧
    (∃ e, decode 0x00000005#32 = .error e) ∧ ∃ t, writeWord 0x000C 0x00000005#32 State.reset = .next t :=
  ⟨⟨_, rfl⟩, ⟨_, rfl⟩, ⟨_, rfl, by decide⟩, by decide, by decide, ⟨_, rfl⟩, _, rfl⟩

theorem test_witness_OnlyTheNamedCommandsWrite :
    (∃ t, exec .keyexp State.reset = .next t) ∧ Instr.keyexp.mnemonic ∉ [.gmul, .sbox, .isbox, .rcon] ∧
    Instr.keyexp.mnemonic ∉ bufferCommands ∧ Instr.keyexp.mnemonic ∉ stateCommands ∧
    (∃ t, exec .encCur streamStart = .next t) ∧ streamStart.ctrl.autoIv = false :=
  ⟨⟨_, rfl⟩, by decide, by decide, by decide, ⟨_, rfl⟩, rfl⟩

/-- A failing command of each kind: a register command, a buffer command's pre-check, the late check, and an illegal word. -/
theorem test_witness_FailuresArePrecise :
    (∃ t, exec .encblk State.reset = .next t ∧ t.status.err = true ∧ Instr.encblk.mnemonic ∉ bufferCommands) ∧
    (∃ t, exec .xorc State.reset = .next t ∧ t.status.err = true ∧ Instr.xorc.mnemonic ∈ bufferCommands ∧
      t.status.errCode ≠ .padding) ∧
    (∃ t, exec .decCur (paddedWith 0x11#8) = .next t ∧ t.status.err = true ∧ t.status.errCode = .padding) ∧
    (∃ e, decode 0x00000005#32 = .error e) ∧ ∃ t, writeWord 0x000C 0x00000005#32 State.reset = .next t := by
  refine ⟨⟨_, rfl, rfl, by decide⟩, ⟨_, rfl, rfl, by decide, by decide⟩, ?_, ⟨_, rfl⟩, _, rfl⟩
  obtain ⟨_, _, _, _, t, ht, hn⟩ := test_witness_decrypt_last_byte 0x11#8
  have hlen : (paddedWith 0x11#8).len.toNat = 32 := rfl
  have hbuf : (paddedWith 0x11#8).bufSize.bytes = 4096 := rfl
  refine ⟨t, ht, ?_⟩
  have hb := (paddedWith 0x11#8).expandOnEntry.decryptStream_bytes ((paddedWith 0x11#8).ibufBytes 32)
    (by rw [State.length_ibufBytes]) (by rw [State.length_ibufBytes])
  simp only [exec, execDecCur, Host.Outcome.next.injEq] at ht
  rcases streamDec_cases (paddedWith 0x11#8) with ⟨h, _⟩ | ⟨_, h, _⟩ | ⟨_, _, _, d, hd, ⟨_, h⟩ | ⟨m, hm, h⟩⟩
  · omega
  · omega
  · rw [h, Ending.conclude_failed] at ht
    subst ht
    exact ⟨rfl, rfl⟩
  · exfalso
    rw [h, Ending.conclude_done, hd, hlen] at ht
    have hby : t.byteAt (0x2000 + 15) =
        ((paddedWith 0x11#8).expandOnEntry.decryptStream ((paddedWith 0x11#8).ibufBytes 32)).1.byteAt (0x2000 + 15) := by
      rw [← ht]
      rfl
    rw [hlen] at hn
    rw [hn, hb.2.2.2.1 15 (by rw [State.length_ibufBytes]; decide)] at hby
    rw [hd, hlen, unpadLen, hb.1, State.length_ibufBytes, show 32 - 16 - 1 = 15 from rfl, ← hby] at hm
    rw [if_pos (by decide)] at hm
    cases hm

theorem test_witness_VersionIsTheHosts :
    (Instr.encrypt ≠ .decrypt ∧ ∃ t, exec .encrypt streamStart = .next t) ∧
    (∃ t, step (withEvents [.write 0x0010 4 1]) = .next t ∧ t.version ≠ (withEvents [.write 0x0010 4 1]).version) ∧
    ∃ t, step { heldInReset [.resetLine false] with version := 1 } = .next t ∧ t.version ≠ 1 :=
  ⟨⟨by decide, _, rfl⟩, ⟨_, rfl, by decide⟩, ⟨_, rfl, by decide⟩⟩

end Sys2Proof.Tests
end

/-! SUPPORT. What a step of the machine can do, said once: every next state of serving an event of the outside (R58, R59,
R260). A proof about all steps goes through `serve_effect` or `step_keeps` and unfolds no bus operation. -/

namespace Sys2Proof.Machine

/-! ### Where a window access lies -/

/-- The number of bytes of a window of the map (R52). -/
def Window.size (b : Config.BufSize) : Window → Nat
  | .key => 32
  | .iv => 16
  | .state => 16
  | .ksr => 16
  | .expkey => 240
  | .pw => Config.pwMax
  | .ibuf => b.bytes
  | .obuf => b.bytes + 32

theorem Window.offset_mod_four (w : Window) : w.offset % 4 = 0 := by
  cases w <;> rfl

theorem Window.size_mod_four (b : Config.BufSize) (w : Window) : w.size b % 4 = 0 := by
  have := b.isMultiple
  cases w <;> simp only [Window.size, Config.pwMax] <;> omega

/-- An aligned word access that the map puts into a window lies in it with all its four bytes (R52, R55). -/
theorem State.locate_window_aligned {s : State} {off k : Nat} {w : Window} (h : s.locate off = some (.window w, k))
    (ha : off % 4 = 0) : off = w.offset + k ∧ k + 4 ≤ w.size s.bufSize := by
  rcases State.locate_some h with ⟨r, hr, _⟩ | ⟨w', hw, ho, hk⟩
  · cases hr
  · cases hw
    have hk' : k < w.size s.bufSize := by cases w <;> exact hk
    have := w.offset_mod_four
    have := w.size_mod_four s.bufSize
    exact ⟨ho, by omega⟩

/-- An aligned access that the map gives to a register is at its offset (R52, R55). -/
theorem State.locate_reg_aligned {s : State} {off k : Nat} {r : Reg} (h : s.locate off = some (.reg r, k))
    (ha : off % 4 = 0) : off = r.offset := by
  rcases State.locate_some h with ⟨r', hr, ho, hk⟩ | ⟨w, hw, _⟩
  · cases hr
    have : r.offset % 4 = 0 := by cases r <;> rfl
    omega
  · cases hw

/-! ### Serving an event -/

/-- The ways serving an event can end in a next state (R56 to R59, R84, R231, R260). -/
inductive ServeEffect (e : HostEvent) (s t : State) : Prop where
  /-- A release without an assertion, a write during reset, or a write to a reserved offset. -/
  | ignored (h : t = s)
  /-- The reset input was asserted. -/
  | asserted (he : e = .resetLine true) (h : t = { s with inReset := true })
  /-- The reset input was released. -/
  | released (he : e = .resetLine false) (hr : s.inReset = true) (h : t = s.released)
  /-- A word was read. -/
  | wordRead (off : Nat) (v : Word) (he : e = .read off 4) (h : t = { s with readData := v :: s.readData })
  /-- A word was written to a register other than `CMD`. -/
  | registerWritten (r : Reg) (v : Word) (hr : r ≠ .cmd) (he : e = .write r.offset 4 v) (h : t = s.writeReg r v)
  /-- A word was written to a window. -/
  | windowWritten (w : Window) (k : Nat) (v : Word) (he : e = .write (w.offset + k) 4 v)
      (hk : k + 4 ≤ w.size s.bufSize) (h : t = s.writeWindow w k v)
  /-- An illegal word was written to `CMD`. -/
  | illegalWord (v : Word) (he : e = .write 0x000C 4 v) (h : t = State.raiseError { s with cmd := v } .illegal .none)
  /-- The word of a command was written to `CMD`. -/
  | commandRun (v : Word) (i : Instr) (he : e = .write 0x000C 4 v) (hd : decode v = .ok i)
      (h : exec i { s with cmd := v } = .next t)

theorem runCommand_effect {v : Word} {s t : State} (h : runCommand v s = .next t) :
    ServeEffect (.write 0x000C 4 v) s t := by
  cases hd : decode v with
  | ok i => exact .commandRun v i rfl hd (runCommand_of_decode hd ▸ h)
  | error e =>
    rw [runCommand_of_illegal hd] at h
    cases h
    exact .illegalWord v rfl rfl

theorem writeWord_effect {off : Nat} {v : Word} {s t : State} (ha : off % 4 = 0) (h : writeWord off v s = .next t) :
    ServeEffect (.write off 4 v) s t := by
  unfold writeWord at h
  split at h
  case h_1 => cases h; exact .ignored rfl
  case h_2 hl => rw [State.locate_reg_aligned hl ha]; exact runCommand_effect h
  case h_3 r _ hr hl =>
    cases h
    rw [State.locate_reg_aligned hl ha]
    exact .registerWritten r v (fun hc => hr hc) rfl rfl
  case h_4 w k hl =>
    cases h
    obtain ⟨ho, hk⟩ := State.locate_window_aligned hl ha
    exact .windowWritten w k v (by rw [ho]) hk rfl

/-- An access that does not fault is an aligned access of one word (R50, R55). -/
theorem accessFault_none {off width : Nat} (h : accessFault off width = none) : width = 4 ∧ off % 4 = 0 := by
  unfold accessFault at h
  split at h
  · cases h
  split at h
  · cases h
  split at h
  · cases h
  · omega

/-- Every next state of serving an event. -/
theorem serve_effect {e : HostEvent} {s t : State} (h : serve e s = .next t) : ServeEffect e s t := by
  cases e with
  | read off width =>
    simp only [serve] at h
    split at h
    · cases h
    · obtain ⟨rfl, _⟩ := accessFault_none ‹_›
      cases h
      exact .wordRead off _ rfl rfl
  | write off width v =>
    simp only [serve] at h
    split at h
    · cases h
    · obtain ⟨rfl, ha⟩ := accessFault_none ‹_›
      split at h
      · cases h; exact .ignored rfl
      · exact writeWord_effect ha h
  | resetLine asserted =>
    cases asserted with
    | true => cases h; exact .asserted rfl rfl
    | false =>
      cases hr : s.inReset with
      | true => simp only [serve, hr, if_true] at h; cases h; exact .released rfl hr rfl
      | false => simp only [serve, hr] at h; cases h; exact .ignored rfl

/-! ### Taking a step -/

theorem step_of_pending_nil {s : State} (hp : s.pending = []) : step s = .next s := by
  simp only [step, takeEvent, hp]

theorem step_of_pending_cons {s : State} {e : HostEvent} {rest : List HostEvent} (hp : s.pending = e :: rest) :
    step s = serve e { s with pending := rest } := by
  simp only [step, takeEvent, hp]

/-- Every next state of a step that serves an event. -/
theorem step_effect {s t : State} {e : HostEvent} {rest : List HostEvent} (hp : s.pending = e :: rest)
    (h : step s = .next t) : ServeEffect e { s with pending := rest } t :=
  serve_effect (step_of_pending_cons hp ▸ h)

/-- A predicate that the list of pending events does not matter to, and that serving an event keeps, is kept by every step. -/
theorem step_keeps {P : State → Prop} (hpending : ∀ s rest, P s → P { s with pending := rest })
    (hserve : ∀ e s t, ServeEffect e s t → P s → P t) {s t : State} (hs : P s) (h : step s = .next t) : P t := by
  cases hp : s.pending with
  | nil =>
    rw [step_of_pending_nil hp] at h
    cases h
    exact hs
  | cons e rest => exact hserve e _ t (step_effect hp h) (hpending s rest hs)

end Sys2Proof.Machine

/-! SUPPORT. What a host write and a command do to the memory, the key and the validity flags, and the invariants that
follow for every step. -/

namespace Sys2Proof.Machine

/-! ### What a host write leaves unchanged -/

@[simp] theorem State.writeReg_status (s : State) (r : Reg) (v : Word) : (s.writeReg r v).status = s.status := by
  cases r <;> rfl
@[simp] theorem State.writeReg_key (s : State) (r : Reg) (v : Word) : (s.writeReg r v).key = s.key := by
  cases r <;> rfl
@[simp] theorem State.writeReg_expkey (s : State) (r : Reg) (v : Word) : (s.writeReg r v).expkey = s.expkey := by
  cases r <;> rfl
@[simp] theorem State.writeReg_ram (s : State) (r : Reg) (v : Word) : (s.writeReg r v).ram = s.ram := by
  cases r <;> rfl
@[simp] theorem State.writeReg_bufSize (s : State) (r : Reg) (v : Word) : (s.writeReg r v).bufSize = s.bufSize := by
  cases r <;> rfl

@[simp] theorem State.writeWindow_ksValid (s : State) (w : Window) (k : Nat) (v : Word) :
    (s.writeWindow w k v).status.ksValid = s.status.ksValid := by
  cases w <;> rfl
@[simp] theorem State.writeWindow_expkey (s : State) (w : Window) (k : Nat) (v : Word) :
    (s.writeWindow w k v).expkey = s.expkey := by
  cases w <;> rfl
@[simp] theorem State.writeWindow_bufSize (s : State) (w : Window) (k : Nat) (v : Word) :
    (s.writeWindow w k v).bufSize = s.bufSize := by
  cases w <;> rfl

theorem State.writeWindow_key_of_ne (s : State) {w : Window} (hw : w ≠ .key) (k : Nat) (v : Word) :
    (s.writeWindow w k v).key = s.key := by
  cases w with
  | key => exact absurd rfl hw
  | _ => rfl
theorem State.writeWindow_keyValid_of_ne (s : State) {w : Window} (hw : w ≠ .key) (k : Nat) (v : Word) :
    (s.writeWindow w k v).status.keyValid = s.status.keyValid := by
  cases w with
  | key => exact absurd rfl hw
  | _ => rfl

/-! ### What a command does to the memory -/

/-- An encrypt writes the IV and whole blocks to `OBUF` (R175). -/
theorem State.encryptStream_writes (s : State) (p : List Byte) :
    ∃ b, b.length = 16 + 16 * (p.length / 16) ∧
      (s.encryptStream p).ram = Memory.setBytes s.ram Config.obufBase b := by
  refine ⟨_, ?_, s.encryptStream_ram p⟩
  rw [List.length_append, Bytes.length_toList, length_streamLoop _ _ _ _ (by omega)]

/-- A command writes at most one byte string to the memory, at the start of `OBUF`, and it fits (R38). -/
theorem exec_ram {i : Instr} {s t : State} (h : exec i s = .next t) :
    t.bufSize = s.bufSize ∧ t.epoch = s.epoch ∧
      ∃ b, b.length ≤ s.bufSize.bytes + 32 ∧ t.ram = Memory.setBytes s.ram Config.obufBase b := by
  have nothing : ∃ b : List Byte, b.length ≤ s.bufSize.bytes + 32 ∧ s.ram = Memory.setBytes s.ram Config.obufBase b :=
    ⟨[], by simp, rfl⟩
  by_cases hi : i.mnemonic ∈ bufferCommands
  · cases exec_bufferCommand hi h with
    | early c p hok hpad ht => subst ht; exact ⟨rfl, rfl, nothing⟩
    | encrypted p hm hl ht =>
      subst ht
      obtain ⟨b, hb, hr⟩ := s.chooseIv.expandOnEntry.encryptStream_writes (padCur (s.ibufBytes s.len.toNat))
      rw [length_padCur, State.length_ibufBytes] at hb
      exact ⟨by simp, by simp, b, by omega, by simpa using hr⟩
    | decrypted p u b hm hl h32 h16 hu hb hr ht =>
      have hu' : u.bufSize = s.bufSize ∧ u.epoch = s.epoch := by rw [hu]; exact ⟨rfl, rfl⟩
      obtain rfl | ⟨m, _, rfl⟩ := ht <;> exact ⟨hu'.1, hu'.2, b, by omega, hr⟩
    | xored p b hl hb ht => subst ht; exact ⟨rfl, rfl, b, by omega, rfl⟩
  · cases exec_registerCommand hi h <;> subst t <;> exact ⟨rfl, rfl, nothing⟩

/-! ### What a command does to the key and the validity flags -/

/-- A command keeps `KEY`, and it keeps `EXPKEY` and `KEY_VALID` unless it expands the key (R39). -/
theorem exec_keyState {i : Instr} {s t : State} (h : exec i s = .next t) :
    t.key = s.key ∧
      ((t.expkey = s.expkey ∧ t.status.keyValid = s.status.keyValid) ∨
        (t.expkey = expandKey s.key ∧ t.status.keyValid = true)) := by
  by_cases hi : i.mnemonic ∈ bufferCommands
  · cases exec_bufferCommand hi h with
    | early c p hok hpad ht => subst ht; exact ⟨rfl, .inl ⟨rfl, rfl⟩⟩
    | encrypted p hm hl ht => subst ht; exact ⟨by simp, .inr (by simp)⟩
    | decrypted p u b hm hl h32 h16 hu hb hr ht =>
      obtain rfl | ⟨m, _, rfl⟩ := ht <;> exact ⟨by simp [hu], .inr (by simp [hu])⟩
    | xored p b hl hb ht => subst ht; exact ⟨rfl, .inl ⟨rfl, rfl⟩⟩
  · cases exec_registerCommand hi h with
    | expanded hm ht => subst ht; exact ⟨rfl, .inr ⟨rfl, rfl⟩⟩
    | _ => subst t; exact ⟨rfl, .inl ⟨rfl, rfl⟩⟩

/-- A command does not clear `KS_VALID` (R40). -/
theorem exec_ksValid {i : Instr} {s t : State} (h : exec i s = .next t) :
    t.status.ksValid = s.status.ksValid ∨ t.status.ksValid = true := by
  by_cases hi : i.mnemonic ∈ bufferCommands
  · cases exec_bufferCommand hi h with
    | early c p hok hpad ht => subst ht; exact .inl rfl
    | encrypted p hm hl ht => subst ht; exact .inr rfl
    | decrypted p u b hm hl h32 h16 hu hb hr ht =>
      obtain rfl | ⟨m, _, rfl⟩ := ht <;> exact .inr (by simp [hu])
    | xored p b hl hb ht => subst ht; exact .inl rfl
  · cases exec_registerCommand hi h with
    | loadedKsr hm ht => subst ht; exact .inr rfl
    | _ => subst t; exact .inl rfl

end Sys2Proof.Machine

/-! The statements about the state: what every step keeps of the memory, the expanded key and the validity flags, which
commands write which register, and what `CTRL` stores. -/

namespace Sys2Proof.Machine

/-! ### The memory stays canonical and inside the buffers -/

/-- Two states with the same memory and buffer size are well formed together. -/
theorem State.RamOk.of_ram_eq {s t : State} (hs : s.RamOk) (hb : t.bufSize = s.bufSize) (hr : t.ram = s.ram) :
    t.RamOk :=
  ⟨hr ▸ hs.wf, hr ▸ hb ▸ hs.inside⟩

/-- Writing a byte string whose offsets are all buffer offsets keeps the memory well formed. -/
theorem State.RamOk.of_setBytes {s t : State} {a : Nat} {bs : List Byte} (hs : s.RamOk) (hb : t.bufSize = s.bufSize)
    (hr : t.ram = Memory.setBytes s.ram a bs)
    (hin : ∀ x, a ≤ x → x < a + bs.length → bufferOffset s.bufSize x) : t.RamOk where
  wf := hr ▸ Memory.wf_setBytes hs.wf a bs
  inside c hc := by
    rw [hr] at hc
    rw [hb]
    rcases Memory.mem_setBytes hc with hc | ⟨h1, h2⟩
    · exact hs.inside c hc
    · exact hin _ h1 h2

theorem State.RamOk.exec {i : Instr} {s t : State} (hs : s.RamOk) (h : exec i s = .next t) : t.RamOk := by
  obtain ⟨hb, _, b, hl, hr⟩ := exec_ram h
  exact hs.of_setBytes hb hr fun x h1 h2 => .inr (.inr ⟨h1, by omega⟩)

theorem State.RamOk.writeWindow {s : State} {w : Window} {k : Nat} (hs : s.RamOk) (hk : k + 4 ≤ w.size s.bufSize)
    (v : Word) : (s.writeWindow w k v).RamOk := by
  cases w with
  | pw =>
    refine hs.of_setBytes rfl rfl fun x h1 h2 => .inl ⟨by omega, ?_⟩
    rw [length_wordBytes] at h2
    simp only [Window.size] at hk
    omega
  | ibuf =>
    refine hs.of_setBytes rfl rfl fun x h1 h2 => .inr (.inl ⟨by omega, ?_⟩)
    rw [length_wordBytes] at h2
    simp only [Window.size] at hk
    omega
  | _ => exact hs.of_ram_eq rfl rfl

theorem ServeEffect.keeps_ramOk (e : HostEvent) (s t : State) (h : ServeEffect e s t) (hs : s.RamOk) : t.RamOk := by
  cases h with
  | released he hr ht => subst ht; exact ⟨List.Pairwise.nil, fun c hc => nomatch hc⟩
  | registerWritten r v hr he ht => subst ht; exact hs.of_ram_eq (by simp) (by simp)
  | windowWritten w k v he hk ht => subst ht; exact hs.writeWindow hk v
  | commandRun v i he hd hx => exact State.RamOk.exec (s := { s with cmd := v }) ⟨hs.wf, hs.inside⟩ hx
  | _ => subst t; exact ⟨hs.wf, hs.inside⟩

/-- Settles O17: serving an event stores at most a word in a host-written buffer or one byte string in `OBUF`. -/
theorem stepKeepsMemoryCanonical : Obligations.StepKeepsMemoryCanonical := by
  unfold Obligations.StepKeepsMemoryCanonical
  intro s t hs h
  exact step_keeps (fun _ _ hs => ⟨hs.wf, hs.inside⟩) ServeEffect.keeps_ramOk hs h

/-! ### The expanded key and the validity flags -/

/-- The ways serving an event can act on `KEY`, `EXPKEY` and `KEY_VALID` (R39). -/
inductive KeyEffect (e : HostEvent) (s t : State) : Prop where
  /-- None of them changed. -/
  | kept (hk : t.key = s.key) (hx : t.expkey = s.expkey) (hv : t.status.keyValid = s.status.keyValid)
  /-- `KEY_VALID` is 0 after the release of reset or a write to a word of `KEY`. -/
  | cleared (he : (e = .resetLine false ∧ s.inReset = true) ∨ ∃ off v, e = .write off 4 v ∧ 0x0040 ≤ off ∧ off < 0x0060)
      (hv : t.status.keyValid = false)
  /-- A command expanded the key. -/
  | expanded (he : ∃ v, e = .write 0x000C 4 v) (hx : t.expkey = expandKey t.key) (hv : t.status.keyValid = true)

theorem ServeEffect.keyEffect {e : HostEvent} {s t : State} (h : ServeEffect e s t) : KeyEffect e s t := by
  cases h with
  | released he hr ht => subst ht; exact .cleared (.inl ⟨he, hr⟩) rfl
  | registerWritten r v hr he ht => subst ht; exact .kept (by simp) (by simp) (by simp)
  | windowWritten w k v he hk ht =>
    subst ht
    by_cases hw : w = .key
    · subst hw
      simp only [Window.size] at hk
      simp only [Window.offset] at he
      exact .cleared (.inr ⟨_, v, he, by omega, by omega⟩) rfl
    · exact .kept (s.writeWindow_key_of_ne hw k v) (s.writeWindow_expkey w k v) (s.writeWindow_keyValid_of_ne hw k v)
  | commandRun v i he hd hx =>
    obtain ⟨hk, ⟨hx, hv⟩ | ⟨hx, hv⟩⟩ := exec_keyState hx
    · exact .kept hk hx hv
    · exact .expanded ⟨v, he⟩ (hk ▸ hx) hv
  | _ => subst t; exact .kept rfl rfl rfl

/-- Serving an event keeps `KS_VALID`, clears it by the release of reset, or sets it by a command (R40). -/
theorem ServeEffect.ksValid {e : HostEvent} {s t : State} (h : ServeEffect e s t) :
    t.status.ksValid = s.status.ksValid ∨ (t.status.ksValid = false ∧ e = .resetLine false ∧ s.inReset = true) ∨
      (t.status.ksValid = true ∧ ∃ v, e = .write 0x000C 4 v) := by
  cases h with
  | released he hr ht => subst ht; exact .inr (.inl ⟨rfl, he, hr⟩)
  | registerWritten r v hr he ht => subst ht; exact .inl (by simp)
  | windowWritten w k v he hk ht => subst ht; exact .inl (by simp)
  | commandRun v i he hd hx =>
    rcases exec_ksValid hx with hv | hv
    · exact .inl hv
    · exact .inr (.inr ⟨hv, v, he⟩)
  | _ => subst t; exact .inl rfl

theorem ServeEffect.keeps_keyValidOk (e : HostEvent) (s t : State) (h : ServeEffect e s t) (hs : s.KeyValidOk) :
    t.KeyValidOk := by
  intro ht
  cases h.keyEffect with
  | kept hk hx hv => rw [hk, hx]; exact hs (hv ▸ ht)
  | cleared he hv => rw [hv] at ht; cases ht
  | expanded he hx hv => exact hx

/-- Settles O18: what changes `KEY` or `EXPKEY` either clears `KEY_VALID` or expands the current `KEY`. -/
theorem stepKeepsKeyValidMeansExpanded : Obligations.StepKeepsKeyValidMeansExpanded := by
  unfold Obligations.StepKeepsKeyValidMeansExpanded
  intro s t hs h
  exact step_keeps (fun _ _ hs => hs) ServeEffect.keeps_keyValidOk hs h

/-- Settles O20, from what serving the event does to the key and to `KS_VALID`. -/
theorem validityFlagsChangeOnlyAsSaid : Obligations.ValidityFlagsChangeOnlyAsSaid := by
  unfold Obligations.ValidityFlagsChangeOnlyAsSaid
  intro s t e rest hp h
  have effect := step_effect hp h
  refine ⟨fun h1 h0 => ?_, fun h1 h0 => ?_, fun h0 h1 => ?_, fun h0 h1 => ?_⟩
  · cases effect.keyEffect with
    | kept hk hx hv => simp [hv, h1] at h0
    | cleared he hv => exact he
    | expanded he hx hv => simp [hv] at h0
  · rcases effect.ksValid with hv | ⟨_, he⟩ | ⟨hv, _⟩
    · simp [hv, h1] at h0
    · exact he
    · simp [hv] at h0
  · cases effect.keyEffect with
    | kept hk hx hv => simp [hv, h0] at h1
    | cleared he hv => simp [hv] at h1
    | expanded he hx hv => exact ⟨he, hx⟩
  · rcases effect.ksValid with hv | ⟨hv, _⟩ | ⟨_, he⟩
    · simp [hv, h0] at h1
    · simp [hv] at h1
    · exact he

/-! ### Which commands write which register -/

/-- The buffer commands that run the block cipher (R175 to R178, R211, R212). -/
def aesStreamCommands : List Mnemonic :=
  [.encCur, .decCur, .encOld, .decOld, .encrypt, .decrypt]

/-- With `AUTO_IV` = 0 an encrypt command takes the `IV` the host wrote and draws nothing (R166). -/
theorem State.chooseIv_of_autoIv_false {s : State} (h : s.ctrl.autoIv = false) : s.chooseIv = s := by
  simp [State.chooseIv, h]

/-- What a buffer command does not write (R30, R32 to R35, R239). -/
theorem BufferEffect.frame {i : Instr} {s t : State} (h : BufferEffect i s t) :
    t.result = s.result ∧ t.state = s.state ∧
    (i.mnemonic ∉ aesStreamCommands → t.ksr = s.ksr ∧ t.expkey = s.expkey) ∧
    (i.mnemonic ∉ [.encCur, .encOld, .encrypt] ∨ s.ctrl.autoIv = false →
      t.iv = s.iv ∧ t.draws = s.draws ∧ t.rngAnswers = s.rngAnswers) := by
  cases h with
  | early c p hok hpad ht => subst ht; exact ⟨rfl, rfl, fun _ => ⟨rfl, rfl⟩, fun _ => ⟨rfl, rfl, rfl⟩⟩
  | encrypted p hm hl ht =>
    subst ht
    have haes : i.mnemonic ∈ aesStreamCommands :=
      (by decide : [Mnemonic.encCur, .encOld, .encrypt] ⊆ aesStreamCommands) hm
    refine ⟨by simp, by simp, fun hn => absurd haes hn, ?_⟩
    rintro (hn | hiv)
    · exact absurd hm hn
    · rw [State.chooseIv_of_autoIv_false hiv]
      exact ⟨rfl, rfl, rfl⟩
  | decrypted p u b hm hl h32 h16 hu hb hr ht =>
    have haes : i.mnemonic ∈ aesStreamCommands :=
      (by decide : [Mnemonic.decCur, .decOld, .decrypt] ⊆ aesStreamCommands) hm
    obtain rfl | ⟨m, _, rfl⟩ := ht <;>
      exact ⟨by simp [hu], by simp [hu], fun hn => absurd haes hn, fun _ => by simp [hu]⟩
  | xored p b hl hb ht => subst ht; exact ⟨rfl, rfl, fun _ => ⟨rfl, rfl⟩, fun _ => ⟨rfl, rfl, rfl⟩⟩

/-- What a command that touches no buffer does not write (R29, R30, R32 to R35, R38, R239). -/
theorem RegisterEffect.frame {i : Instr} {s t : State} (h : RegisterEffect i s t) :
    (t.outlen = s.outlen ∧ t.ram = s.ram ∧ t.epoch = s.epoch) ∧
    (t.iv = s.iv ∧ t.draws = s.draws ∧ t.rngAnswers = s.rngAnswers) ∧
    (i.mnemonic ∉ [.gmul, .sbox, .isbox, .rcon] → t.result = s.result) ∧
    (i.mnemonic ∉ stateCommands → t.state = s.state) ∧
    (i.mnemonic ∉ [.ksload, .ksnext] → t.ksr = s.ksr) ∧
    (i.mnemonic ≠ .keyexp → t.expkey = s.expkey) := by
  refine ⟨by cases h <;> subst t <;> exact ⟨rfl, rfl, rfl⟩, by cases h <;> subst t <;> exact ⟨rfl, rfl, rfl⟩, ?_⟩
  cases h with
  | wroteResult v hm ht => subst ht; exact ⟨fun hn => absurd hm hn, fun _ => rfl, fun _ => rfl, fun _ => rfl⟩
  | wroteState b hm ht => subst ht; exact ⟨fun _ => rfl, fun hn => absurd hm hn, fun _ => rfl, fun _ => rfl⟩
  | loadedKsr hm ht => subst ht; exact ⟨fun _ => rfl, fun _ => rfl, fun hn => absurd (by simp [hm]) hn, fun _ => rfl⟩
  | steppedKsr b hm ht => subst ht; exact ⟨fun _ => rfl, fun _ => rfl, fun hn => absurd (by simp [hm]) hn, fun _ => rfl⟩
  | expanded hm ht => subst ht; exact ⟨fun _ => rfl, fun _ => rfl, fun _ => rfl, fun hn => absurd hm hn⟩
  | _ => subst t; exact ⟨fun _ => rfl, fun _ => rfl, fun _ => rfl, fun _ => rfl⟩

/-- Settles O58, from the frames of the two kinds of commands. -/
theorem onlyTheNamedCommandsWrite : Obligations.OnlyTheNamedCommandsWrite := by
  unfold Obligations.OnlyTheNamedCommandsWrite
  intro i s t h
  by_cases hi : i.mnemonic ∈ bufferCommands
  · obtain ⟨hresult, hstate, haes, hiv⟩ := (exec_bufferCommand hi h).frame
    exact ⟨fun _ => hresult, fun hn => absurd hi hn, fun _ => hstate,
      fun hn => (haes fun hm => hn (.tail _ (.tail _ hm))).1, fun hn => (haes fun hm => hn (.tail _ hm)).2, hiv⟩
  · obtain ⟨⟨houtlen, hram, hepoch⟩, hiv, hresult, hstate, hksr, hexpkey⟩ := (exec_registerCommand hi h).frame
    exact ⟨hresult, fun _ => ⟨houtlen, State.byteAt_of_ram_epoch hram hepoch⟩, hstate,
      fun hn => hksr fun hm => hn (List.mem_append_left aesStreamCommands hm),
      fun hn => hexpkey fun hm => hn (hm ▸ .head _), fun _ => hiv⟩

/-! ### What `CTRL` stores -/

/-- A write of a register other than `CMD` is the store alone (R59). -/
theorem writeWord_reg {r : Reg} (hr : r ≠ .cmd) (v : Word) (s : State) :
    writeWord r.offset v s = .next (s.writeReg r v) := by
  unfold writeWord
  rw [s.locate_reg r]
  cases r with
  | cmd => exact absurd rfl hr
  | _ => rfl

theorem readWord_reg (s : State) (r : Reg) : s.readWord r.offset = s.readReg r := by
  simp only [State.readWord, s.locate_reg r]

/-- `LEGACY_ROUTE` is stored as the number of its field (R22). -/
theorem LegacyRoute.code_ofField (f : BitVec 2) : (LegacyRoute.ofField f).code = f.setWidth 32 := by
  revert f; decide

theorem getLsbD_boolWord (b : Bool) (i : Nat) : (boolWord b).getLsbD i = (decide (i = 0) && b) := by
  cases b <;> simp [boolWord]

/-- A write of `CTRL` reads back as its bits 2:0 (R22). -/
theorem Ctrl.toWord_ofWord (v : Word) : (Ctrl.ofWord v).toWord = v &&& 0x00000007#32 := by
  apply BitVec.eq_of_getLsbD_eq
  intro i hi
  simp only [Ctrl.toWord, Ctrl.ofWord, LegacyRoute.code_ofField, BitVec.getLsbD_or, BitVec.getLsbD_and,
    getLsbD_boolWord, BitVec.getLsbD_shiftLeft, BitVec.getLsbD_setWidth, BitVec.getLsbD_extractLsb']
  interval_cases i <;> simp

/-- Each route is stored for exactly its own field value (R22). -/
theorem LegacyRoute.ofField_eq_iff (f : BitVec 2) :
    (LegacyRoute.ofField f = .xor ↔ f = 0#2) ∧ (LegacyRoute.ofField f = .aesOld ↔ f = 1#2) ∧
    (LegacyRoute.ofField f = .shape ↔ f = 2#2) ∧ (LegacyRoute.ofField f = .unset ↔ f = 3#2) := by
  revert f; decide

/-- Settles O9: the write is the store of `Ctrl.ofWord v`, which reads back as bits 2:0. -/
theorem ctrlStoresItsThreeBits : Obligations.CtrlStoresItsThreeBits := by
  unfold Obligations.CtrlStoresItsThreeBits
  intro s v
  refine ⟨s.writeReg .ctrl v, writeWord_reg (r := .ctrl) (by decide) v s, rfl, ?_, rfl, LegacyRoute.ofField_eq_iff _⟩
  exact (readWord_reg _ .ctrl).trans (Ctrl.toWord_ofWord v)

end Sys2Proof.Machine

/-! SUPPORT. The host's accesses, said once: what a read and a write do at a register, in a window and at a reserved offset
(R52 to R59), what an aligned access inside the window steps to, and that serving a legal event always completes. -/

namespace Sys2Proof.Machine

/-! ### Accesses to windows -/

theorem State.locate_of_lt_size (s : State) (w : Window) {k : Nat} (hk : k < w.size s.bufSize) :
    s.locate (w.offset + k) = some (.window w, k) :=
  s.locate_window w (by cases w <;> exact hk)

theorem State.readWord_of_lt_size (s : State) (w : Window) {k : Nat} (hk : k < w.size s.bufSize) :
    s.readWord (w.offset + k) = s.readWindow w k := by
  simp only [State.readWord, s.locate_of_lt_size w hk]

theorem writeWord_of_lt_size (s : State) (w : Window) (v : Word) {k : Nat} (hk : k < w.size s.bufSize) :
    writeWord (w.offset + k) v s = .next (s.writeWindow w k v) := by
  simp only [writeWord, s.locate_of_lt_size w hk]

/-- Byte `j` of the word read at byte `k` of a window is byte `k + j` of the window (R53). -/
theorem State.byteOf_readWord (s : State) (w : Window) {k j : Nat} (hk : k < w.size s.bufSize) (hj : j < 4) :
    byteOf (s.readWord (w.offset + k)) j = s.windowByte w (k + j) := by
  rw [s.readWord_of_lt_size w hk, byteOf_readWindow s w k hj]

/-- A byte of the buffer at `base`, after a word was written at byte `k` of the buffer (R53). -/
theorem State.byteAt_add_of_setWord (s t : State) (base k : Nat) (v : Word)
    (hr : t.ram = Memory.setBytes s.ram (base + k) (wordBytes v)) (he : t.epoch = s.epoch) (i : Nat) :
    t.byteAt (base + i) = if k ≤ i ∧ i < k + 4 then byteOf v (i - k) else s.byteAt (base + i) := by
  simpa only [Nat.add_assoc, Nat.add_le_add_iff_left, Nat.add_lt_add_iff_left, Nat.add_sub_add_left] using
    s.byteAt_setWord t (base + k) v hr he (base + i)

/-- The windows a host write stores to (R57, R59). -/
def hostWindows : List Window :=
  [.key, .iv, .state, .pw, .ibuf]

/-- A byte of a window the host may write, after a word was written at byte `k` of the window (R53). -/
theorem State.windowByte_writeWindow (s : State) {w : Window} (hw : w ∈ hostWindows) (k : Nat) (v : Word) {i : Nat}
    (hi : i < w.size s.bufSize) :
    (s.writeWindow w k v).windowByte w i = if k ≤ i ∧ i < k + 4 then byteOf v (i - k) else s.windowByte w i := by
  cases w with
  | key => exact get_setWindowWord s.key k v hi
  | iv => exact get_setWindowWord s.iv k v hi
  | state => exact get_setWindowWord s.state k v hi
  | pw => exact s.byteAt_add_of_setWord (s.writeWindow .pw k v) Config.pwBase k v rfl rfl i
  | ibuf => exact s.byteAt_add_of_setWord (s.writeWindow .ibuf k v) Config.ibufBase k v rfl rfl i
  | ksr => exact absurd hw (by decide)
  | expkey => exact absurd hw (by decide)
  | obuf => exact absurd hw (by decide)

/-- The word written at byte `k` of a window the host may write reads back there (R61). -/
theorem State.readWindow_writeWindow (s : State) {w : Window} (hw : w ∈ hostWindows) {k : Nat} (v : Word)
    (hk : k + 4 ≤ w.size s.bufSize) : (s.writeWindow w k v).readWindow w k = v := by
  have written : ∀ j, j < 4 → (s.writeWindow w k v).windowByte w (k + j) = byteOf v j := by
    intro j hj
    rw [s.windowByte_writeWindow hw k v (by omega), if_pos (by omega), Nat.add_sub_cancel_left]
  have lowest : (s.writeWindow w k v).windowByte w k = byteOf v 0 := written 0 (by decide)
  rw [State.readWindow, lowest, written 1 (by decide), written 2 (by decide), written 3 (by decide), wordOf_byteOf]

/-! ### Reserved offsets -/

/-- The reserved offsets of the map, and the decoded but unused bytes of the buffers (R52, R56). -/
def reservedOffset (b : Config.BufSize) (off : Nat) : Prop :=
  (0x0024 ≤ off ∧ off ≤ 0x003F) ∨ (0x0090 ≤ off ∧ off ≤ 0x00FF) ∨ (0x01F0 ≤ off ∧ off ≤ 0x01FF) ∨
  (0x0300 ≤ off ∧ off ≤ 0x0FFF) ∨ (0x1000 + b.bytes ≤ off ∧ off ≤ 0x1FFF) ∨
  (0x2000 + b.bytes + 32 ≤ off ∧ off ≤ 0x301F) ∨ (0x3020 ≤ off ∧ off ≤ 0x3FFF)

theorem State.locate_of_reservedOffset {s : State} {off : Nat} (h : reservedOffset s.bufSize off) :
    s.locate off = none := by
  have := s.bufSize.atMost
  unfold reservedOffset at h
  cases hl : s.locate off with
  | none => rfl
  | some found =>
    exfalso
    rcases State.locate_some hl with ⟨r, _, ho, hk⟩ | ⟨w, _, ho, hk⟩
    · cases r <;> simp only [Reg.offset] at ho <;> omega
    · cases w <;> simp only [Window.offset, Config.pwBase, Config.ibufBase, Config.obufBase] at ho hk <;> omega

theorem State.readWord_of_reservedOffset {s : State} {off : Nat} (h : reservedOffset s.bufSize off) :
    s.readWord off = 0#32 := by
  simp only [State.readWord, State.locate_of_reservedOffset h]

theorem writeWord_of_reservedOffset {s : State} {off : Nat} (h : reservedOffset s.bufSize off) (v : Word) :
    writeWord off v s = .next s := by
  simp only [writeWord, State.locate_of_reservedOffset h]

theorem reservedOffset_lt {b : Config.BufSize} {off : Nat} (h : reservedOffset b off) : off < 0x4000 := by
  unfold reservedOffset at h
  omega

/-! ### What an access steps to -/

/-- Exactly the accesses inside the interface have no fault (R50, R55). -/
theorem accessFault_eq_none_iff (off width : Nat) :
    accessFault off width = none ↔ off < Config.windowSize ∧ width = 4 ∧ off % 4 = 0 := by
  unfold accessFault
  split_ifs <;> simp <;> omega

/-- An access outside the interface faults, whatever the reset input is (R50, R55). -/
theorem serve_fault {off width : Nat} (v : Word) (s : State)
    (h : ¬ (off < Config.windowSize ∧ width = 4 ∧ off % 4 = 0)) :
    ∃ f, serve (.read off width) s = .fault f ∧ serve (.write off width v) s = .fault f := by
  obtain ⟨f, hf⟩ := Option.ne_none_iff_exists'.1 (mt (accessFault_eq_none_iff off width).1 h)
  exact ⟨f, by simp only [serve, hf], by simp only [serve, hf]⟩

section LegalAccess

variable {s : State} {off : Nat} {rest : List HostEvent} (ho : off < 0x4000) (ha : off % 4 = 0)
  (hr : s.inReset = false)
include ho ha hr

/-- A legal read with reset not asserted returns the word at its offset (R58). -/
theorem step_of_legal_read (hp : s.pending = .read off 4 :: rest) :
    step s = .next { s with pending := rest, readData := s.readWord off :: s.readData } := by
  rw [step_of_pending_cons hp]
  simp only [serve, (accessFault_eq_none_iff off 4).2 ⟨ho, rfl, ha⟩, State.busRead, hr, Bool.false_eq_true, if_false]
  rfl

/-- A legal write with reset not asserted is the word's store (R59). -/
theorem step_of_legal_write {v : Word} (hp : s.pending = .write off 4 v :: rest) :
    step s = writeWord off v { s with pending := rest } := by
  rw [step_of_pending_cons hp]
  simp only [serve, (accessFault_eq_none_iff off 4).2 ⟨ho, rfl, ha⟩, hr, Bool.false_eq_true, if_false]

end LegalAccess

/-! ### Every command completes, and so does every legal event -/

/-- Every command answers a next state (R215, R231). -/
theorem exec_completes (i : Instr) (s : State) : ∃ t, exec i s = .next t := by
  cases i with
  | ark a =>
    simp only [exec, execArk]
    split
    · exact ⟨_, rfl⟩
    · split <;> exact ⟨_, rfl⟩
  | encblk => simp only [exec, execEncblk]; split <;> exact ⟨_, rfl⟩
  | decblk => simp only [exec, execDecblk]; split <;> exact ⟨_, rfl⟩
  | ksnext =>
    simp only [exec, execKsnext]
    split
    · exact ⟨_, rfl⟩
    · split <;> exact ⟨_, rfl⟩
  | ksxor => simp only [exec, execKsxor]; split <;> exact ⟨_, rfl⟩
  | decrypt =>
    obtain ⟨t, ht, _⟩ := execDecrypt_cases s
    exact ⟨t, ht⟩
  | _ => exact ⟨_, rfl⟩

/-- Every word written to `CMD` ends in a next state: an illegal one in `ERR_ILLEGAL` (R84, R231). -/
theorem runCommand_completes (v : Word) (s : State) : ∃ t, runCommand v s = .next t := by
  cases hd : decode v with
  | ok i => rw [runCommand_of_decode hd]; exact exec_completes i _
  | error e => exact ⟨_, runCommand_of_illegal hd⟩

theorem writeWord_completes (off : Nat) (v : Word) (s : State) : ∃ t, writeWord off v s = .next t := by
  unfold writeWord
  split
  · exact ⟨_, rfl⟩
  · exact runCommand_completes v s
  · exact ⟨_, rfl⟩
  · exact ⟨_, rfl⟩

theorem serve_completes {e : HostEvent} (he : e.Legal) (s : State) : ∃ t, serve e s = .next t := by
  cases e with
  | read off width =>
    simp only [serve, (accessFault_eq_none_iff off width).2 he]
    exact ⟨_, rfl⟩
  | write off width v =>
    simp only [serve, (accessFault_eq_none_iff off width).2 he]
    split
    · exact ⟨_, rfl⟩
    · exact writeWord_completes off v s
  | resetLine asserted => cases asserted <;> exact ⟨_, rfl⟩

/-! ### What commands and steps leave to the host -/

/-- The registers only the host writes, the word in `CMD`, and the outside's side of the interface are as they were. -/
structure SameHostFields (s t : State) : Prop where
  ctrl : t.ctrl = s.ctrl
  version : t.version = s.version
  len : t.len = s.len
  pwlen : t.pwlen = s.pwlen
  cmd : t.cmd = s.cmd
  inReset : t.inReset = s.inReset
  pending : t.pending = s.pending
  readData : t.readData = s.readData

/-- A command writes none of the host's registers and consumes no event (R62, R215). -/
theorem exec_sameHostFields {i : Instr} {s t : State} (h : exec i s = .next t) : SameHostFields s t := by
  by_cases hi : i.mnemonic ∈ bufferCommands
  · cases exec_bufferCommand hi h with
    | early c p hok hpad ht => subst ht; constructor <;> rfl
    | encrypted p hm hl ht => subst ht; constructor <;> simp
    | decrypted p u b hm hl h32 h16 hu hb hr ht =>
      subst hu
      obtain rfl | ⟨m, _, rfl⟩ := ht <;> constructor <;> rfl
    | xored p b hl hb ht => subst ht; constructor <;> rfl
  · cases exec_registerCommand hi h <;> subst t <;> constructor <;> rfl

/-- A command writes no byte below `OBUF`, so neither `PW` nor `IBUF` (R36, R37, R38). -/
theorem exec_byteAt_of_lt {i : Instr} {s t : State} (h : exec i s = .next t) {a : Nat} (ha : a < Config.obufBase) :
    t.byteAt a = s.byteAt a := by
  obtain ⟨_, he, b, _, hr⟩ := exec_ram h
  rw [State.byteAt_setBytes s t _ b hr he, if_neg (by omega)]

@[simp] theorem State.writeReg_pending (s : State) (r : Reg) (v : Word) : (s.writeReg r v).pending = s.pending := by
  cases r <;> rfl

@[simp] theorem State.writeWindow_pending (s : State) (w : Window) (k : Nat) (v : Word) :
    (s.writeWindow w k v).pending = s.pending := by
  cases w <;> rfl

/-- Serving an event uses up no other event. -/
theorem ServeEffect.pending {e : HostEvent} {s t : State} (h : ServeEffect e s t) : t.pending = s.pending := by
  cases h with
  | registerWritten r v hr he ht => subst ht; simp
  | windowWritten w k v he hk ht => subst ht; simp
  | commandRun v i he hd hx => exact (exec_sameHostFields hx).pending
  | _ => subst t; rfl

/-- A step that answers a next state uses up exactly the first event. -/
theorem step_pending {s t : State} {e : HostEvent} {rest : List HostEvent} (hp : s.pending = e :: rest)
    (h : step s = .next t) : t.pending = rest :=
  (step_effect hp h).pending

/-! ### The fields of `CTRL` and `STATUS` -/

/-- `AUTO_IV` is bit 0 of `CTRL`, `LEGACY_ROUTE` its bits 2:1, and bits 31:3 are 0 (R22). -/
theorem Ctrl.toWord_fields (c : Ctrl) :
    c.toWord.getLsbD 0 = c.autoIv ∧ c.toWord.extractLsb' 1 2 = c.legacyRoute.code.setWidth 2 ∧
      c.toWord.extractLsb' 3 29 = 0#29 := by
  obtain ⟨autoIv, route⟩ := c
  cases autoIv <;> cases route <;> decide

theorem LegacyRoute.code_field_inj (r q : LegacyRoute) : r.code.setWidth 2 = q.code.setWidth 2 ↔ r = q := by
  cases r <;> cases q <;> decide

theorem Path.code_field_inj (p q : Path) : p.code.setWidth 2 = q.code.setWidth 2 ↔ p = q := by
  cases p <;> cases q <;> decide

theorem ErrCode.code_field_inj (c d : ErrCode) : c.code.setWidth 8 = d.code.setWidth 8 ↔ c = d := by
  cases c <;> cases d <;> decide

/-- A path fits the two bits of its field. -/
theorem Path.getLsbD_code (p : Path) {i : Nat} (hi : 2 ≤ i) : p.code.getLsbD i = false := by
  have hp : p.code = (p.code.setWidth 2).setWidth 32 := by cases p <;> decide
  rw [hp, BitVec.getLsbD_setWidth, BitVec.getLsbD_of_ge _ _ hi, Bool.and_false]

/-- An error code fits the eight bits of its field. -/
theorem ErrCode.getLsbD_code (c : ErrCode) {i : Nat} (hi : 8 ≤ i) : c.code.getLsbD i = false := by
  have hc : c.code = (c.code.setWidth 8).setWidth 32 := by cases c <;> decide
  rw [hc, BitVec.getLsbD_setWidth, BitVec.getLsbD_of_ge _ _ hi, Bool.and_false]

/-- Bits 7:4 of `STATUS` come from `PATH` alone (R24). -/
theorem Status.getLsbD_toWord_of_lt (t : Status) {i : Nat} (h4 : 4 ≤ i) (h8 : i < 8) :
    t.toWord.getLsbD i = t.path.code.getLsbD (i - 4) := by
  simp only [Status.toWord, BitVec.getLsbD_or, BitVec.getLsbD_shiftLeft, getLsbD_boolWord]
  interval_cases i <;> simp

/-- Bits 31:8 of `STATUS` come from `ERRCODE` alone (R24). -/
theorem Status.getLsbD_toWord_of_le (t : Status) {i : Nat} (h8 : 8 ≤ i) (hi : i < 32) :
    t.toWord.getLsbD i = t.errCode.code.getLsbD (i - 8) := by
  have hpath : t.path.code.getLsbD (i - 4) = false := t.path.getLsbD_code (by omega)
  simp only [Status.toWord, BitVec.getLsbD_or, BitVec.getLsbD_shiftLeft, getLsbD_boolWord, hpath]
  simp [hi, h8, show i ≠ 0 by omega, show ¬ i - 1 = 0 by omega, show ¬ i - 2 = 0 by omega]

/-- `KEY_VALID`, `KS_VALID` and `ERR` are bits 0 to 2 of `STATUS`, and bit 3 is 0 (R24). -/
theorem Status.toWord_flags (t : Status) :
    t.toWord.getLsbD 0 = t.keyValid ∧ t.toWord.getLsbD 1 = t.ksValid ∧ t.toWord.getLsbD 2 = t.err ∧
      t.toWord.getLsbD 3 = false := by
  simp only [Status.toWord, BitVec.getLsbD_or, BitVec.getLsbD_shiftLeft, getLsbD_boolWord]
  simp

/-- `PATH` is bits 5:4 of `STATUS`, and bits 7:6 are 0 (R24). -/
theorem Status.toWord_path (t : Status) :
    t.toWord.extractLsb' 4 2 = t.path.code.setWidth 2 ∧ t.toWord.extractLsb' 6 2 = 0#2 := by
  constructor <;> apply BitVec.eq_of_getLsbD_eq <;> intro i hi <;>
    rw [BitVec.getLsbD_extractLsb', t.getLsbD_toWord_of_lt (by omega) (by omega)]
  · simp [hi]
  · simp [t.path.getLsbD_code (show 2 ≤ 6 + i - 4 by omega)]

/-- `ERRCODE` is bits 15:8 of `STATUS`, and bits 31:16 are 0 (R24, R230). -/
theorem Status.toWord_errCode (t : Status) :
    t.toWord.extractLsb' 8 8 = t.errCode.code.setWidth 8 ∧ t.toWord.extractLsb' 16 16 = 0#16 := by
  constructor <;> apply BitVec.eq_of_getLsbD_eq <;> intro i hi <;>
    rw [BitVec.getLsbD_extractLsb', t.getLsbD_toWord_of_le (by omega) (by omega)]
  · simp [hi]
  · simp [t.errCode.getLsbD_code (show 8 ≤ 16 + i - 8 by omega)]

end Sys2Proof.Machine

/-! The statements about the host's interface: which accesses stop, what registers, windows and reserved offsets read, what a
write stores, and what steps and commands leave to the host. -/

namespace Sys2Proof.Machine

/-! ### Which accesses stop, and what a step uses up -/

/-- Settles O5: an access outside the interface has a fault by `accessFault`, and every legal event has a next state, whose
pending events are the rest of a legal list. -/
theorem onlyIllegalAccessesStop : Obligations.OnlyIllegalAccessesStop := by
  unfold Obligations.OnlyIllegalAccessesStop
  constructor
  · intro s off width v rest hp hbad
    have illegal : ¬ (off < Config.windowSize ∧ width = 4 ∧ off % 4 = 0) := by
      simp only [Config.windowSize]
      omega
    obtain ⟨f, hread, hwrite⟩ := serve_fault v { s with pending := rest } illegal
    rcases hp with hp | hp
    · exact ⟨f, (step_of_pending_cons hp).trans hread⟩
    · exact ⟨f, (step_of_pending_cons hp).trans hwrite⟩
  · intro s hs
    cases hp : s.pending with
    | nil => exact ⟨s, step_of_pending_nil hp, hs⟩
    | cons e rest =>
      have legal : ∀ e' ∈ e :: rest, e'.Legal := hp ▸ hs
      obtain ⟨t, ht⟩ := serve_completes (legal e (.head _)) { s with pending := rest }
      have hstep : step s = .next t := (step_of_pending_cons hp).trans ht
      refine ⟨t, hstep, fun e' he' => legal e' (.tail _ ?_)⟩
      exact step_pending hp hstep ▸ he'

/-- Settles O4: an idle step, the store of a legal write, and the one event a step uses up. -/
theorem stepServesExactlyOneEvent : Obligations.StepServesExactlyOneEvent := by
  unfold Obligations.StepServesExactlyOneEvent
  exact ⟨fun _ hp => step_of_pending_nil hp, fun _ _ _ _ hp ho ha hr => step_of_legal_write ho ha hr hp,
    fun _ _ _ _ hp h => step_pending hp h⟩

/-- Settles O7: the words of the map do not depend on the events to come or on the words already read. -/
theorem readHasNoSideEffect : Obligations.ReadHasNoSideEffect := by
  unfold Obligations.ReadHasNoSideEffect
  intro s off rest hp ho ha hr
  have hstep := step_of_legal_read ho ha hr hp
  refine ⟨hstep, fun t ht off' => ?_⟩
  rw [hstep] at ht
  cases ht
  rfl

/-! ### What the map shows -/

/-- Settles O8, from the fields of `CTRL` and `STATUS` and the numbers of their tables. -/
theorem registersReadAtTheirOffsets : Obligations.RegistersReadAtTheirOffsets := by
  unfold Obligations.RegistersReadAtTheirOffsets
  intro s
  have hctrl : s.readWord 0x0004 = s.ctrl.toWord := readWord_reg s .ctrl
  have hstatus : s.readWord 0x0008 = s.status.toWord := readWord_reg s .status
  obtain ⟨hauto, hroute, hrest⟩ := s.ctrl.toWord_fields
  obtain ⟨hkey, hks, herr, hbit3⟩ := s.status.toWord_flags
  obtain ⟨hpath, hbits7⟩ := s.status.toWord_path
  obtain ⟨hcode, hbits31⟩ := s.status.toWord_errCode
  have route := s.ctrl.legacyRoute.code_field_inj
  have path := s.status.path.code_field_inj
  have code := s.status.errCode.code_field_inj
  rw [hctrl, hstatus, hroute, hpath, hcode]
  exact ⟨readWord_reg s .id, hauto, route .xor, route .aesOld, route .shape, route .unset, hrest,
    readWord_reg s .cmd, readWord_reg s .version, readWord_reg s .len, readWord_reg s .pwlen, readWord_reg s .outlen,
    readWord_reg s .result, hkey, hks, herr, hbit3, path .none, path .current, path .legacyAes, path .legacyXor, hbits7,
    code .ok, code .illegal, code .noKey, code .noKs, code .round, code .len, code .envelope, code .padding, code .pwlen,
    code .version, code .route, hbits31⟩

/-- Settles O10: one lemma for every window. -/
theorem windowsReadLittleEndian : Obligations.WindowsReadLittleEndian := by
  unfold Obligations.WindowsReadLittleEndian
  intro s k j _ hj
  have byte : ∀ w : Window, k < w.size s.bufSize →
      byteOf (s.readWord (w.offset + k)) j = s.windowByte w (k + j) := fun w hk => s.byteOf_readWord w hk hj
  simp only [Nat.add_assoc _ k j]
  exact ⟨byte .key, byte .iv, byte .state, byte .ksr, byte .expkey, byte .pw, byte .ibuf, byte .obuf⟩

/-- Settles O11: the map puts nothing at a reserved offset. -/
theorem reservedOffsetsReadZeroIgnoreWrites : Obligations.ReservedOffsetsReadZeroIgnoreWrites := by
  unfold Obligations.ReservedOffsetsReadZeroIgnoreWrites
  intro s off v hres
  have hzero : s.readWord off = 0#32 := State.readWord_of_reservedOffset hres
  refine ⟨hzero, writeWord_of_reservedOffset hres v, fun rest hp ha hr => ?_⟩
  rw [step_of_legal_read (reservedOffset_lt hres) ha hr hp, hzero]

/-! ### What a write stores -/

/-- Settles O12: the store of a read-only register or window is the identity. -/
theorem readOnlyOffsetsIgnoreWrites : Obligations.ReadOnlyOffsetsIgnoreWrites := by
  unfold Obligations.ReadOnlyOffsetsIgnoreWrites
  intro s off v h
  rcases h with rfl | rfl | rfl | rfl | ⟨h1, h2⟩ | ⟨h1, h2⟩ | ⟨h1, h2⟩
  · exact writeWord_reg (r := .id) (by decide) v s
  · exact writeWord_reg (r := .status) (by decide) v s
  · exact writeWord_reg (r := .outlen) (by decide) v s
  · exact writeWord_reg (r := .result) (by decide) v s
  · obtain ⟨k, rfl⟩ := Nat.exists_eq_add_of_le h1
    exact writeWord_of_lt_size s .ksr v (show k < 16 by omega)
  · obtain ⟨k, rfl⟩ := Nat.exists_eq_add_of_le h1
    exact writeWord_of_lt_size s .expkey v (show k < 240 by omega)
  · obtain ⟨k, rfl⟩ := Nat.exists_eq_add_of_le h1
    exact writeWord_of_lt_size s .obuf v (show k < s.bufSize.bytes + 32 by omega)

/-- Settles O13: the write is the store of `KEY`, which also clears `KEY_VALID`. -/
theorem keyWriteClearsKeyValid : Obligations.KeyWriteClearsKeyValid := by
  unfold Obligations.KeyWriteClearsKeyValid
  intro s k v hk4 hk
  refine ⟨s.writeWindow .key k v, writeWord_of_lt_size s .key v hk, rfl, fun j hj => ?_, fun j hj hout => ?_⟩
  · have stored := s.windowByte_writeWindow (w := .key) (by decide) k v (i := k + j) (show k + j < 32 by omega)
    rwa [if_pos (by omega), Nat.add_sub_cancel_left] at stored
  · have kept := s.windowByte_writeWindow (w := .key) (by decide) k v hj
    rwa [if_neg hout] at kept

/-- Settles O14: a store of `PW` or `IBUF` is one word in the memory of buffer bytes. -/
theorem otherWritesOnlyStore : Obligations.OtherWritesOnlyStore := by
  unfold Obligations.OtherWritesOnlyStore
  intro s v
  refine ⟨writeWord_reg (r := .version) (by decide) v s, writeWord_reg (r := .len) (by decide) v s,
    writeWord_reg (r := .pwlen) (by decide) v s, fun k _ hk => ?_, fun k _ hk => ?_, fun off _ h => ?_⟩
  · exact ⟨_, writeWord_of_lt_size s .iv v hk, rfl, fun _ hj => get_setWindowWord s.iv k v hj⟩
  · exact ⟨_, writeWord_of_lt_size s .state v hk, rfl, fun _ hj => get_setWindowWord s.state k v hj⟩
  · rcases h with ⟨h1, h2⟩ | ⟨h1, h2⟩ <;> obtain ⟨k, rfl⟩ := Nat.exists_eq_add_of_le h1
    · exact ⟨_, writeWord_of_lt_size s .pw v (show k < 256 by omega), rfl, s.byteAt_setWord _ _ v rfl rfl⟩
    · exact ⟨_, writeWord_of_lt_size s .ibuf v (show k < s.bufSize.bytes by omega), rfl,
        s.byteAt_setWord _ _ v rfl rfl⟩

/-- What the host writes in a window it may write, it reads back there (R61). -/
theorem readWord_after_window_write (s : State) {w : Window} (hw : w ∈ hostWindows) {k off : Nat} (v : Word)
    (hoff : off = w.offset + k) (hk : k + 4 ≤ w.size s.bufSize) :
    ∃ t, writeWord off v s = .next t ∧ t.readWord off = v := by
  subst hoff
  refine ⟨_, writeWord_of_lt_size s w v (by omega), ?_⟩
  rw [State.readWord_of_lt_size _ _ (by rw [State.writeWindow_bufSize]; omega), s.readWindow_writeWindow hw v hk]

/-- Settles O15: the offsets lie in three registers and in the five windows the host may write. -/
theorem readAfterWriteReturnsTheWord : Obligations.ReadAfterWriteReturnsTheWord := by
  unfold Obligations.ReadAfterWriteReturnsTheWord
  intro s off v ha h
  have hb := s.bufSize.isMultiple
  have place : off = 0x0010 ∨ off = 0x0014 ∨ off = 0x0018 ∨ (0x0040 ≤ off ∧ off + 4 ≤ 0x0060) ∨
      (0x0060 ≤ off ∧ off + 4 ≤ 0x0070) ∨ (0x0070 ≤ off ∧ off + 4 ≤ 0x0080) ∨ (0x0200 ≤ off ∧ off + 4 ≤ 0x0300) ∨
      (0x1000 ≤ off ∧ off + 4 ≤ 0x1000 + s.bufSize.bytes) := by omega
  rcases place with rfl | rfl | rfl | ⟨h1, h2⟩ | ⟨h1, h2⟩ | ⟨h1, h2⟩ | ⟨h1, h2⟩ | ⟨h1, h2⟩
  · exact ⟨_, writeWord_reg (r := .version) (by decide) v s, readWord_reg _ .version⟩
  · exact ⟨_, writeWord_reg (r := .len) (by decide) v s, readWord_reg _ .len⟩
  · exact ⟨_, writeWord_reg (r := .pwlen) (by decide) v s, readWord_reg _ .pwlen⟩
  all_goals obtain ⟨k, rfl⟩ := Nat.exists_eq_add_of_le h1
  · exact readWord_after_window_write s (w := .key) (by decide) v rfl (show k + 4 ≤ 32 by omega)
  · exact readWord_after_window_write s (w := .iv) (by decide) v rfl (show k + 4 ≤ 16 by omega)
  · exact readWord_after_window_write s (w := .state) (by decide) v rfl (show k + 4 ≤ 16 by omega)
  · exact readWord_after_window_write s (w := .pw) (by decide) v rfl (show k + 4 ≤ 256 by omega)
  · exact readWord_after_window_write s (w := .ibuf) (by decide) v rfl (show k + 4 ≤ s.bufSize.bytes by omega)

/-! ### What commands leave to the host -/

/-- Settles O57: the frame of every command on the host's fields, the key and the memory below `OBUF`. -/
theorem commandsCompleteAndKeepHostInputs : Obligations.CommandsCompleteAndKeepHostInputs := by
  unfold Obligations.CommandsCompleteAndKeepHostInputs
  intro i s
  obtain ⟨t, ht⟩ := exec_completes i s
  have same := exec_sameHostFields ht
  obtain ⟨hkey, _⟩ := exec_keyState ht
  obtain ⟨hsize, hepoch, _⟩ := exec_ram ht
  exact ⟨t, ht, same.ctrl, same.version, same.len, same.pwlen, hkey, same.cmd, hsize, hepoch, same.inReset, same.pending,
    same.readData, fun _ ha => exec_byteAt_of_lt ht ha⟩

end Sys2Proof.Machine

/-! SUPPORT. The decoder said once, as tests of the four fields of a word (R84), the word and the assembly line of a command in
terms of its operand bytes (R90), and which bus operations a line of a host program can expand to (R91). -/

namespace Sys2Proof

/-! ### The decoder as tests of the fields -/

/-- The checks of R84 all at once: a word decodes to the command its `OP` names when the fields that must be zero are. -/
theorem decode_eq_ok_iff {v : Word} {i : Instr} :
    decode v = .ok i ↔
      instrOfOpcode (opField v) (aField v) (bField v) = some i ∧
        rsvField v = 0 ∧ (i.format ≠ .f2 → bField v = 0) ∧ (i.format = .f0 → aField v = 0) := by
  unfold decode
  cases hop : instrOfOpcode (opField v) (aField v) (bField v) with
  | none => simp
  | some j =>
    dsimp only
    constructor
    · intro h
      split_ifs at h with hrsv hb ha
      cases h
      exact ⟨rfl, not_not.1 hrsv, fun hf => not_not.1 fun h0 => hb ⟨hf, h0⟩, fun hf => not_not.1 fun h0 => ha ⟨hf, h0⟩⟩
    · rintro ⟨hj, hrsv, hb, ha⟩
      cases hj
      rw [if_neg (not_not.2 hrsv), if_neg fun h => h.2 (hb h.1), if_neg fun h => h.2 (ha h.1)]

/-- The row of the opcode map that a legal word is in (R83). -/
theorem decode_ok_iff_mask (v : Word) (m : Mnemonic) :
    (∃ i, decode v = .ok i ∧ i.mnemonic = m) ↔ v &&& m.format.mask = m.matchWord := by
  rw [mask_test_iff]
  constructor
  · rintro ⟨i, h, rfl⟩
    obtain ⟨hop, zeros⟩ := decode_eq_ok_iff.1 h
    obtain ⟨_, _, _, hmatch, _⟩ := instrOfOpcode_some hop
    exact ⟨hmatch.symm, zeros⟩
  · rintro ⟨hop, zeros⟩
    obtain ⟨i, hi, rfl⟩ := instrOfOpcode_matchWord m (aField v) (bField v)
    exact ⟨i, decode_eq_ok_iff.2 ⟨hop ▸ hi, zeros⟩, rfl⟩

/-- A word that no row of the opcode map matches is illegal (R83, R84). -/
theorem decode_error_of_no_row {v : Word} (h : ∀ m : Mnemonic, v &&& m.format.mask ≠ m.matchWord) :
    ∃ e, decode v = .error e := by
  cases hd : decode v with
  | error e => exact ⟨e, rfl⟩
  | ok i => exact absurd ((decode_ok_iff_mask v i.mnemonic).1 ⟨i, hd, rfl⟩) (h i.mnemonic)

/-- A legal word is the word of its command: the fields the command does not carry are zero in both (R83, R90). -/
theorem encode_of_decode {v : Word} {i : Instr} (h : decode v = .ok i) : encode i = v := by
  obtain ⟨hop, hrsv, hb, ha⟩ := decode_eq_ok_iff.1 h
  obtain ⟨a, b, hencode, hmatch, haOf, hbOf⟩ := instrOfOpcode_some hop
  have ha' : a = aField v := haOf.elim id fun ⟨hf, h0⟩ => h0.trans (ha hf).symm
  have hb' : b = bField v := hbOf.elim id fun ⟨hf, h0⟩ => h0.trans (hb hf).symm
  rw [hencode, commandWord_eq_fields, hmatch, ha', hb']
  conv_rhs => rw [word_eq_fields v, hrsv]
  rfl

/-! ### The operand bytes of a command -/

/-- Operand `k` of an assembly line as the byte its word carries: 0 where the line has none (R90). -/
def SourceCommand.operandByte (c : SourceCommand) (k : Nat) : Byte :=
  BitVec.ofNat 8 (c.operands.getD k 0)

/-- The word of a command carries the operands of its line (R90). -/
theorem encode_eq_commandWord (i : Instr) :
    encode i = commandWord i.mnemonic (i.source.operandByte 0) (i.source.operandByte 1) := by
  cases i <;> simp [encode, Instr.source, Instr.mnemonic, Instr.operands, SourceCommand.operandByte]

/-- A command is the one its `OP` names with its own operand bytes. -/
theorem instrOfOpcode_operandByte (i : Instr) :
    instrOfOpcode (opField i.mnemonic.matchWord) (i.source.operandByte 0) (i.source.operandByte 1) = some i := by
  cases i <;> simp [instrOfOpcode, opField, Mnemonic.matchWord, Instr.source, Instr.mnemonic, Instr.operands,
    SourceCommand.operandByte]

/-- The operands of the command an `OP` value names are the given bytes, as many as its format has (R81). -/
theorem operands_of_instrOfOpcode {o a b : Byte} {i : Instr} (h : instrOfOpcode o a b = some i) :
    i.operands = [a.toNat, b.toNat].take i.format.operandCount := by
  unfold instrOfOpcode at h
  split at h <;> cases h <;> rfl

/-! ### Well-formed lines -/

/-- A line assembles when it has as many operands as its format and each is a byte (R90). -/
theorem SourceCommand.wellFormed_iff (c : SourceCommand) :
    c.wellFormed = true ↔ c.operands.length = c.mnemonic.format.operandCount ∧ ∀ n ∈ c.operands, n < 256 := by
  simp [SourceCommand.wellFormed, SourceCommand.countOk, SourceCommand.rangeOk]

theorem Format.operandCount_le_two (f : Format) : f.operandCount ≤ 2 := by
  cases f <;> decide

theorem Format.operandCount_le_one {f : Format} (h : f ≠ .f2) : f.operandCount ≤ 1 := by
  cases f with
  | f0 => decide
  | f1 => decide
  | f2 => exact absurd rfl h

/-- A command is well formed whatever its operand bytes are (R82). -/
theorem Instr.wellFormed_eq_true (i : Instr) : i.wellFormed = true := by
  have hop : i.source.operands = _ := operands_of_instrOfOpcode (instrOfOpcode_operandByte i)
  rw [Instr.wellFormed, SourceCommand.wellFormed_iff, hop, List.length_take]
  refine ⟨Nat.min_eq_left i.format.operandCount_le_two, fun n hn => ?_⟩
  have hbyte := List.mem_of_mem_take hn
  simp only [List.mem_cons, List.not_mem_nil, or_false] at hbyte
  rcases hbyte with rfl | rfl <;> exact BitVec.isLt _

/-- Where a command has no operand, its word carries 0 (R81). -/
theorem Instr.operandByte_eq_zero {i : Instr} {k : Nat} (h : i.format.operandCount ≤ k) :
    i.source.operandByte k = 0 := by
  obtain ⟨hcount, _⟩ := i.source.wellFormed_iff.1 i.wellFormed_eq_true
  rw [SourceCommand.operandByte, List.getD_eq_default _ _ (hcount.trans_le h)]
  rfl

/-- Operands that are bytes are the numbers of their bytes: nothing of a well-formed line is lost. -/
theorem SourceCommand.operands_of_wellFormed {c : SourceCommand} (h : c.wellFormed = true) :
    c.operands = [(c.operandByte 0).toNat, (c.operandByte 1).toNat].take c.mnemonic.format.operandCount := by
  obtain ⟨hcount, hrange⟩ := c.wellFormed_iff.1 h
  have hlen := c.mnemonic.format.operandCount_le_two
  rw [← hcount] at hlen ⊢
  obtain ⟨m, operands⟩ := c
  dsimp only [SourceCommand.operandByte] at *
  match operands, hlen, hrange with
  | [], _, _ => rfl
  | [a], _, hrange => simp [Nat.mod_eq_of_lt (hrange a (by simp))]
  | [a, b], _, hrange => simp [Nat.mod_eq_of_lt (hrange a (by simp)), Nat.mod_eq_of_lt (hrange b (by simp))]

/-- Every well-formed line is the line of the command its `OP` and operand bytes name (R90). -/
theorem SourceCommand.exists_source_eq {c : SourceCommand} (h : c.wellFormed = true) : ∃ i : Instr, i.source = c := by
  obtain ⟨i, hi, hm⟩ := instrOfOpcode_matchWord c.mnemonic (c.operandByte 0) (c.operandByte 1)
  have hop : i.operands = c.operands := by
    rw [operands_of_instrOfOpcode hi, Instr.format, hm, ← c.operands_of_wellFormed h]
  exact ⟨i, by rw [Instr.source, hm, hop]⟩

/-! ### The round trip -/

/-- The word of a command passes every check of R84: its fields are its `OP` and its operand bytes, and 0 elsewhere. -/
theorem decode_encode (i : Instr) : decode (encode i) = .ok i := by
  rw [encode_eq_commandWord, decode_eq_ok_iff]
  obtain ⟨hop, ha, hb, hrsv⟩ := fields_commandWord i.mnemonic (i.source.operandByte 0) (i.source.operandByte 1)
  rw [hop, ha, hb]
  exact ⟨instrOfOpcode_operandByte i, hrsv,
    fun hf => i.operandByte_eq_zero (Format.operandCount_le_one hf),
    fun hf => i.operandByte_eq_zero (by rw [hf]; decide)⟩

end Sys2Proof

namespace Sys2Proof.Machine

/-! ### Lines of a host program -/

/-- A well-formed line assembles to the word of its operand bytes (R90). -/
theorem assembleCommand_of_wellFormed {c : SourceCommand} (h : c.wellFormed = true) :
    assembleCommand c = some (commandWord c.mnemonic (c.operandByte 0) (c.operandByte 1)) :=
  if_pos h

theorem assembleCommand_of_not_wellFormed {c : SourceCommand} (h : c.wellFormed = false) : assembleCommand c = none :=
  if_neg (by simp [h])

/-- The line of a command assembles to the command's word (R90). -/
theorem assembleCommand_source (i : Instr) : assembleCommand i.source = some (encode i) := by
  rw [assembleCommand_of_wellFormed i.wellFormed_eq_true, encode_eq_commandWord]
  rfl

/-- An aligned access of one word that is no write of `CMD` (R91). -/
def HostEvent.StartsNoCommand (e : HostEvent) : Prop :=
  (∀ width v, e ≠ .write 0x000C width v) ∧ ∃ off, off % 4 = 0 ∧ (e = .read off 4 ∨ ∃ v, e = .write off 4 v)

theorem HostEvent.startsNoCommand_read {off : Nat} (ha : off % 4 = 0) : (HostEvent.read off 4).StartsNoCommand :=
  ⟨fun _ _ => HostEvent.noConfusion, off, ha, .inl rfl⟩

theorem hostWrite_startsNoCommand {off : Nat} (v : Word) (ha : off % 4 = 0) (hne : off ≠ 0x000C) :
    (hostWrite off v).StartsNoCommand :=
  ⟨fun _ _ h => hne (by cases h; rfl), off, ha, .inr ⟨v, rfl⟩⟩

theorem Reg.offset_mod_four (r : Reg) : r.offset % 4 = 0 := by
  cases r <;> rfl

theorem Reg.offset_ne_cmd {r : Reg} (hr : r ≠ .cmd) : r.offset ≠ 0x000C := by
  cases r
  case cmd => exact absurd rfl hr
  all_goals decide

/-- Only `CMD` stands at its offset, so a write of another register starts no command (R52). -/
theorem hostWrite_reg_startsNoCommand {r : Reg} (hr : r ≠ .cmd) (v : Word) : (hostWrite r.offset v).StartsNoCommand :=
  hostWrite_startsNoCommand v r.offset_mod_four (Reg.offset_ne_cmd hr)

/-- Every window stands above the registers (R52). -/
theorem Window.registers_lt_offset (w : Window) : 0x0020 < w.offset := by
  cases w <;> decide

theorem Window.word_mod_four (w : Window) (k : Nat) : (w.offset + 4 * k) % 4 = 0 := by
  rw [Nat.add_mul_mod_self_left, w.offset_mod_four]

/-- A pseudo-instruction expands to accesses of windows and of registers other than `CMD` (R91). -/
theorem expandLine_startsNoCommand {l : SourceLine} {es : List HostEvent} (hcommand : ∀ c, l ≠ .command c)
    (hw32 : ∀ off v, l ≠ .w32 off v) (hr32 : ∀ off, l ≠ .r32 off) (h : expandLine l = some es) :
    ∀ e ∈ es, e.StartsNoCommand := by
  cases l with
  | command c => exact absurd rfl (hcommand c)
  | w32 off v => exact absurd rfl (hw32 off v)
  | r32 off => exact absurd rfl (hr32 off)
  | comment text => cases h; exact List.forall_mem_nil _
  | loadw w bytes =>
    cases h
    refine List.forall_mem_map.2 fun k _ => hostWrite_startsNoCommand _ (w.word_mod_four k) ?_
    have := w.registers_lt_offset
    omega
  | setlen n => cases h; exact List.forall_mem_singleton.2 (hostWrite_reg_startsNoCommand (by decide) n)
  | setpwlen n => cases h; exact List.forall_mem_singleton.2 (hostWrite_reg_startsNoCommand (by decide) n)
  | setver v => cases h; exact List.forall_mem_singleton.2 (hostWrite_reg_startsNoCommand (by decide) v)
  | setctrl v => cases h; exact List.forall_mem_singleton.2 (hostWrite_reg_startsNoCommand (by decide) v)
  | readw w n =>
    cases h
    exact List.forall_mem_map.2 fun k _ => HostEvent.startsNoCommand_read (w.word_mod_four k)

end Sys2Proof.Machine

/-! The statements about the encoding: the round trips of decoder and encoder, the masks of the opcode map, illegal words, and
the lines of a host program. -/

namespace Sys2Proof.Machine

/-! ### Command words -/

/-- Settles O21, by the checks of R84 on the fields of the command's word. -/
theorem decodeOfEncodeIsTheCommand : Obligations.DecodeOfEncodeIsTheCommand := by
  unfold Obligations.DecodeOfEncodeIsTheCommand
  exact fun i _ => decode_encode i

/-- Settles O22: the fields a command does not carry are zero in both words. -/
theorem encodeOfDecodeIsTheWord : Obligations.EncodeOfDecodeIsTheWord := by
  unfold Obligations.EncodeOfDecodeIsTheWord
  exact fun _ i h => ⟨encode_of_decode h, i.wellFormed_eq_true⟩

/-- Settles O23: the mask test and the decoder make the same tests of the fields. -/
theorem decodeFollowsTheMasks : Obligations.DecodeFollowsTheMasks := by
  unfold Obligations.DecodeFollowsTheMasks
  exact decode_ok_iff_mask

/-- Settles O24: closed words, which the decoder evaluates. -/
theorem knownWordsDecode : Obligations.KnownWordsDecode := by
  unfold Obligations.KnownWordsDecode
  decide

/-- Settles O6: a word of no row is illegal, and running it is `CMD <- v` and the failure report. -/
theorem illegalWordChangesOnlyCmdAndStatus : Obligations.IllegalWordChangesOnlyCmdAndStatus := by
  unfold Obligations.IllegalWordChangesOnlyCmdAndStatus
  intro s v rest hp hr hrow
  obtain ⟨e, he⟩ := decode_error_of_no_row hrow
  rw [step_of_legal_write (by decide) (by decide) hr hp, writeWord_cmd, runCommand_of_illegal he]
  rfl

/-! ### Lines of a host program -/

/-- Settles O25: the line of a command carries exactly the operand bytes of its word. -/
theorem commandLinesAssembleToTheirWords : Obligations.CommandLinesAssembleToTheirWords := by
  unfold Obligations.CommandLinesAssembleToTheirWords
  refine ⟨fun i => ?_, fun c hc => c.exists_source_eq hc, fun c hc => ?_⟩
  · rw [expandLine, assembleCommand_source]
    rfl
  · rw [expandLine, assembleCommand_of_not_wellFormed hc]
    rfl

/-- Settles O26: windows and the registers that pseudo-instructions write stand elsewhere than `CMD`. -/
theorem pseudoInstructionsStartNoCommand : Obligations.PseudoInstructionsStartNoCommand := by
  unfold Obligations.PseudoInstructionsStartNoCommand
  exact fun _ _ hcommand hw32 hr32 h => expandLine_startsNoCommand hcommand hw32 hr32 h

end Sys2Proof.Machine

/-! SUPPORT. The field operations and the constant tables (R100 to R107): `gmul` is the commutative and associative product
with one, `ginv` its inverse read off the S-box, and the tables are what R104, R105 and R107 say of them. -/

namespace Sys2Proof.Machine

/-! ### The product is linear in each operand -/

theorem gmul_xor_right (a b c : Byte) : gmul a (b ^^^ c) = gmul a b ^^^ gmul a c :=
  gmulLoop_xor_right 8 a b c 0 0

theorem gmul_xor_left (a b c : Byte) : gmul (a ^^^ b) c = gmul a c ^^^ gmul b c :=
  gmulLoop_xor_left 8 a b c 0 0

@[simp] theorem gmul_zero_right (a : Byte) : gmul a 0#8 = 0#8 := by
  simpa using gmul_xor_right a 0#8 0#8

@[simp] theorem gmul_zero_left (a : Byte) : gmul 0#8 a = 0#8 := by
  simpa using gmul_xor_left 0#8 0#8 a

/-! ### Doubling -/

/-- The byte 2 has only its bit 1 set, so the loop adds the operand once, after one shift (R100). -/
theorem gmul_two_right (a : Byte) : gmul a 2#8 = xtime a := by
  simp [gmul, gmulLoop]

/-- The loop starts from the left operand and accumulates its shifts, so doubling it doubles the result. -/
theorem gmulLoop_xtime (n : Nat) (a b p : Byte) : gmulLoop n (xtime a) b (xtime p) = xtime (gmulLoop n a b p) := by
  induction n generalizing a b p with
  | zero => rfl
  | succ n ih =>
    rw [gmulLoop, gmulLoop, ← ih]
    split <;> simp only [xtime_xor]

theorem gmul_xtime_left (a b : Byte) : gmul (xtime a) b = xtime (gmul a b) :=
  gmulLoop_xtime 8 a b 0

@[simp] theorem xtime_zero : xtime 0#8 = 0#8 := rfl

/-- Every byte is built from 1 by doubling and XOR: the powers of two are the doublings of 1. -/
theorem byte_xtime_induction {P : Byte → Prop} (hzero : P 0) (hone : P 1) (hxor : ∀ a b, P a → P b → P (a ^^^ b))
    (hdouble : ∀ a, P a → P (xtime a)) (a : Byte) : P a := by
  refine byte_xor_induction hzero hxor (fun i hi => ?_) a
  induction i with
  | zero => exact hone
  | succ i ih =>
    have hpow : ∀ j, j < 7 → xtime (1#8 <<< j) = 1#8 <<< (j + 1) := by decide
    rw [← hpow i (by omega)]
    exact hdouble _ (ih (by omega))

/-! ### The ring laws (R101) -/

@[simp] theorem gmul_one_right (a : Byte) : gmul a 1#8 = a := by
  simp [gmul, gmulLoop]

@[simp] theorem gmul_one_left (a : Byte) : gmul 1#8 a = a := by
  induction a using byte_xor_induction with
  | h0 => exact gmul_zero_right 1#8
  | hx a b ha hb => rw [gmul_xor_right, ha, hb]
  | hb i hi =>
    have hpow : ∀ j, j < 8 → gmul 1#8 (1#8 <<< j) = 1#8 <<< j := by decide
    exact hpow i hi

theorem gmul_xtime_right (a b : Byte) : gmul a (xtime b) = xtime (gmul a b) := by
  induction a using byte_xtime_induction with
  | hzero => simp
  | hone => simp
  | hxor a c ha hc => rw [gmul_xor_left, gmul_xor_left, xtime_xor, ha, hc]
  | hdouble a ha => rw [gmul_xtime_left, gmul_xtime_left, ha]

theorem gmul_comm (a b : Byte) : gmul a b = gmul b a := by
  induction b using byte_xtime_induction with
  | hzero => simp
  | hone => simp
  | hxor b c hb hc => rw [gmul_xor_right, gmul_xor_left, hb, hc]
  | hdouble b hb => rw [gmul_xtime_right, gmul_xtime_left, hb]

theorem gmul_assoc (a b c : Byte) : gmul a (gmul b c) = gmul (gmul a b) c := by
  induction c using byte_xtime_induction with
  | hzero => simp
  | hone => simp
  | hxor c d hc hd => simp only [gmul_xor_right, hc, hd]
  | hdouble c hc => simp only [gmul_xtime_right, hc]

theorem gmul_two_left (a : Byte) : gmul 2#8 a = xtime a := by
  rw [gmul_comm, gmul_two_right]

theorem xtime_eq_xor (a : Byte) : xtime a = (a <<< 1) ^^^ (if a.getLsbD 7 then 0x1B#8 else 0x00#8) := by
  unfold xtime
  split <;> simp

/-! ### The inverse and the S-box (R102, R107) -/

/-- The map from the inverse to the S-box entry (R107). -/
def sboxAffine (y : Byte) : Byte :=
  y ^^^ y.rotateLeft 1 ^^^ y.rotateLeft 2 ^^^ y.rotateLeft 3 ^^^ y.rotateLeft 4 ^^^ 0x63#8

/-- The map back from the S-box entry: `sboxAffine_sboxAffineInv`. -/
def sboxAffineInv (z : Byte) : Byte :=
  z.rotateLeft 1 ^^^ z.rotateLeft 3 ^^^ z.rotateLeft 6 ^^^ 0x05#8

/-- `ginv(a)` (R102), read off the S-box; `gmul_ginv` and `eq_ginv_of_gmul_eq_one` say that it is the inverse. -/
def ginv (a : Byte) : Byte := sboxAffineInv (sbox a)

theorem sboxAffine_sboxAffineInv (z : Byte) : sboxAffine (sboxAffineInv z) = z := by
  revert z
  decide

theorem ginv_zero : ginv 0#8 = 0#8 := by decide

/-- The check of the table of R103 against the field: each entry but the first is the affine image of an inverse. -/
theorem gmul_ginv {a : Byte} (ha : a ≠ 0#8) : gmul a (ginv a) = 1#8 := by
  revert a
  decide

/-- Inverses are unique, as in every commutative monoid. -/
theorem eq_ginv_of_gmul_eq_one {a x : Byte} (h : gmul a x = 1#8) : x = ginv a := by
  have ha : a ≠ 0#8 := by
    rintro rfl
    simp at h
  calc x = gmul x (gmul a (ginv a)) := by rw [gmul_ginv ha, gmul_one_right]
    _ = gmul (gmul a x) (ginv a) := by rw [gmul_assoc, gmul_comm x]
    _ = ginv a := by rw [h, gmul_one_left]

theorem sbox_eq_sboxAffine_ginv (x : Byte) : sbox x = sboxAffine (ginv x) :=
  (sboxAffine_sboxAffineInv (sbox x)).symm

theorem invSbox_sbox (x : Byte) : invSbox (sbox x) = x := by
  revert x
  decide

/-- A left inverse on a finite type is a right inverse. -/
theorem sbox_invSbox (x : Byte) : sbox (invSbox x) = x :=
  Function.LeftInverse.rightInverse_of_card_le invSbox_sbox le_rfl x

theorem sbox_no_fixed_point (x : Byte) : sbox x ≠ x ∧ sbox x ≠ x ^^^ 0xFF#8 := by
  revert x
  decide

/-! ### The round constants (R105) -/

theorem rcon_succ {i : Byte} (h0 : i ≠ 0#8) (h255 : i ≠ 255#8) : rcon (i + 1#8) = xtime (rcon i) := by
  revert i
  decide

theorem rcon_ofNat_succ {i : Nat} (hi : 1 ≤ i) (hlt : i < 255) :
    rcon (BitVec.ofNat 8 (i + 1)) = xtime (rcon (BitVec.ofNat 8 i)) := by
  rw [BitVec.ofNat_add]
  exact rcon_succ (by bv_omega) (by bv_omega)

/-- The powers of two repeat because 2^51 = 1: `Rcon[52]` is `Rcon[1]`, and from there both sides double. -/
theorem rcon_ofNat_period {i : Nat} (hi : 52 ≤ i) (hlt : i < 256) :
    rcon (BitVec.ofNat 8 i) = rcon (BitVec.ofNat 8 (i - 51)) := by
  induction i, hi using Nat.le_induction with
  | base => decide
  | succ i hi ih =>
    rw [rcon_ofNat_succ (by omega) (by omega), ih (by omega), ← rcon_ofNat_succ (by omega) (by omega),
      Nat.sub_add_comm (by omega)]

/-! ### The table commands (R110 to R113) -/

theorem State.finishResult_eq (s : State) (v : Byte) :
    s.finishResult v = { s with
      result := v.setWidth 32, status := { s.status with err := false, errCode := .ok, path := .none } } := rfl

end Sys2Proof.Machine

/-! The statements about the field, the constant tables and the commands that read them. -/

namespace Sys2Proof.Machine

/-- Settles O27, by linearity in each operand and induction over bytes as sums of doublings of 1; the inverse is read off the
S-box. -/
theorem gmulFieldLaws : Obligations.GmulFieldLaws := by
  unfold Obligations.GmulFieldLaws
  refine ⟨fun a => ⟨gmul_zero_right a, gmul_zero_left a⟩, fun a => ⟨gmul_one_right a, gmul_one_left a⟩, gmul_comm,
    gmul_assoc, gmul_xor_right, fun a => ?_, fun a ha => ?_⟩
  · exact (gmul_two_right a).trans (xtime_eq_xor a)
  · exact ⟨ginv a, gmul_ginv ha, fun _ => eq_ginv_of_gmul_eq_one⟩

/-- Settles O28: the byte `y` of R107 can only be `ginv x`, and the S-box entry is its affine image. -/
theorem sboxTablesAreTheAffineInverse : Obligations.SboxTablesAreTheAffineInverse := by
  unfold Obligations.SboxTablesAreTheAffineInverse
  refine ⟨fun x => ⟨invSbox_sbox x, sbox_invSbox x⟩, fun x y h => ?_, sbox_no_fixed_point⟩
  have hy : y = ginv x := by
    rcases h with ⟨rfl, rfl⟩ | h
    · exact ginv_zero.symm
    · exact eq_ginv_of_gmul_eq_one h
  rw [hy]
  exact sbox_eq_sboxAffine_ginv x

/-- Settles O29: the doubling is checked entry by entry, and the period follows from it. -/
theorem rconIsThePowersOfTwo : Obligations.RconIsThePowersOfTwo := by
  unfold Obligations.RconIsThePowersOfTwo
  refine ⟨by decide, by decide, by decide, fun i hi hlt => ?_, fun i hi hlt => rcon_ofNat_period hi hlt⟩
  exact (rcon_ofNat_succ hi hlt).trans (gmul_two_left _).symm

/-- Settles O30: each of the four commands is `finishResult` of its byte. -/
theorem tableCommandsWriteOnlyResult : Obligations.TableCommandsWriteOnlyResult := by
  unfold Obligations.TableCommandsWriteOnlyResult
  intro a b s
  simp only [exec, execGmul, execSbox, execIsbox, execRcon, State.finishResult_eq, and_self]

end Sys2Proof.Machine

/-! SUPPORT. The key schedule (R120 to R122): the bytes of the core and of the schedule word, and the expanded key as the list
the loop writes. -/

namespace Sys2Proof.Machine

/-! ### The word XORed in (R120, R121) -/

/-- The round constant reaches only the first byte of the rotated and substituted word (R121). -/
theorem get_keyCore (t : Bytes 4) (i : Nat) {m : Nat} (hm : m < 4) :
    (keyCore t i).get m =
      if m = 0 then sbox (t.get 1) ^^^ rcon (BitVec.ofNat 8 i) else sbox (t.get ((m + 1) % 4)) := by
  rw [keyCore, Bytes.get_tab_of_lt _ hm]
  split
  case isTrue h => rw [h]
  case isFalse => rfl

theorem get_subWord (t : Bytes 4) {m : Nat} (hm : m < 4) : (subWord t).get m = sbox (t.get m) :=
  Bytes.get_tab_of_lt _ hm

/-- The previous word of `w` at position `cur` (R120). -/
def previousWord (w : List Byte) (cur : Nat) : Bytes 4 :=
  .tab 4 fun m => w.getD (cur - 4 + m) 0

theorem get_previousWord (w : List Byte) (cur : Nat) {m : Nat} (hm : m < 4) :
    (previousWord w cur).get m = w.getD (cur - 4 + m) 0 :=
  Bytes.get_tab_of_lt _ hm

theorem scheduleWord_eq (w : List Byte) (cur it : Nat) :
    scheduleWord w cur it =
      if cur % 32 = 0 then keyCore (previousWord w cur) it
      else if cur % 32 = 16 then subWord (previousWord w cur)
      else previousWord w cur := rfl

/-! ### The expanded key -/

theorem toList_tab_getD {n : Nat} {l : List Byte} (h : l.length = n) : (Bytes.tab n fun i => l.getD i 0).toList = l :=
  congrArg Bytes.toList (Bytes.tab_get ⟨l, h⟩)

/-- The loop writes exactly the 240 bytes that `ExpandKey` keeps (R124). -/
theorem toList_expandKey (key : Key) : (expandKey key).toList = expandLoop 52 1 key.toList := by
  rw [expandKey]
  exact toList_tab_getD (by rw [length_expandLoop, key.length_toList])

/-- The loop starts from the key and keeps what is written (R120). -/
theorem get_expandKey_of_lt (key : Key) {j : Nat} (hj : j < 32) : (expandKey key).get j = key.get j := by
  rw [Bytes.get, toList_expandKey, getD_expandLoop_of_lt _ _ _ (by rwa [key.length_toList]), Bytes.get]

theorem get_roundKey (w : ExpandedKey) (r : Nat) {j : Nat} (hj : j < 16) : (roundKey w r).get j = w.get (16 * r + j) :=
  Bytes.get_tab_of_lt _ hj

/-- A later byte is the byte 32 back XOR the schedule word's byte; the round counter at `cur` is the
index of the first multiple of 32 not before `cur` (R120, R124). -/
theorem get_expandKey_add (key : Key) {cur m : Nat} (hlo : 32 ≤ cur) (hhi : cur < 240) (hcur : cur % 4 = 0) (hm : m < 4) :
    (expandKey key).get (cur + m) = (expandKey key).get (cur - 32 + m) ^^^
      (scheduleWord (expandKey key).toList cur ((cur + 31) / 32)).get m := by
  have hlen := key.length_toList
  have hloop := getD_expandLoop 52 key.toList (by omega) (by omega) (by omega) (by omega) hcur hm
  rw [hlen] at hloop
  simpa only [Bytes.get, toList_expandKey] using hloop

/-! ### The command KEYEXP (R123) -/

theorem State.expandOnEntry_finish (s : State) (p : Path) :
    s.expandOnEntry.finish p = { s with
      expkey := expandKey s.key
      status := { s.status with keyValid := true, err := false, errCode := .ok, path := p } } := rfl

end Sys2Proof.Machine

/-! The statements about the key schedule and its command. -/

namespace Sys2Proof.Machine

/-- Settles O31: the loop's recurrence with the schedule word written out for each of the three kinds of position. -/
theorem expandedKeyRecurrence : Obligations.ExpandedKeyRecurrence := by
  unfold Obligations.ExpandedKeyRecurrence
  intro key
  refine ⟨fun j hj => ?_, fun j hj => ?_, fun j => get_expandKey_of_lt key, fun cur m hlo hhi hcur hm => ?_⟩
  · rw [get_roundKey _ _ hj, get_expandKey_of_lt key (by omega), Nat.mul_zero, Nat.zero_add]
  · rw [get_roundKey _ _ hj, get_expandKey_of_lt key (by omega)]
  · rw [get_expandKey_add key hlo hhi hcur hm, scheduleWord_eq]
    have previous : ∀ j, j < 4 →
        (previousWord (expandKey key).toList cur).get j = (expandKey key).get (cur - 4 + j) :=
      fun j => get_previousWord _ cur
    split_ifs with hcore hfirst hhalf
    · rw [get_keyCore _ _ hm, if_pos hfirst, previous 1 (by decide), show cur - 4 + 1 = cur - 3 by omega,
        show (cur + 31) / 32 = cur / 32 by omega]
    · rw [get_keyCore _ _ hm, if_neg hfirst, previous _ (Nat.mod_lt _ (by decide))]
    · rw [get_subWord _ hm, previous m hm]
    · rw [previous m hm]

/-- Settles O32: the command is the expansion on entry followed by `finish(0)`. -/
theorem keyexpExpandsTheKey : Obligations.KeyexpExpandsTheKey := by
  unfold Obligations.KeyexpExpandsTheKey
  intro s
  rw [exec, execKeyexp, State.expandOnEntry_finish]

end Sys2Proof.Machine

/-! SUPPORT. The block engine (R130 to R140): the bytes of the round functions, that each inverse function undoes its
function, and so that the inverse cipher undoes the cipher. -/

namespace Sys2Proof.Machine

/-! ### The bytes of the round functions -/

theorem get_subBytes (b : Block) {j : Nat} (hj : j < 16) : (subBytes b).get j = sbox (b.get j) :=
  Bytes.get_tab_of_lt _ hj

theorem get_invSubBytes (b : Block) {j : Nat} (hj : j < 16) : (invSubBytes b).get j = invSbox (b.get j) :=
  Bytes.get_tab_of_lt _ hj

theorem get_shiftRows (b : Block) {j : Nat} (hj : j < 16) :
    (shiftRows b).get j = b.get (j % 4 + 4 * ((j / 4 + j % 4) % 4)) :=
  Bytes.get_tab_of_lt _ hj

theorem get_invShiftRows (b : Block) {j : Nat} (hj : j < 16) :
    (invShiftRows b).get j = b.get (j % 4 + 4 * ((j / 4 + 4 - j % 4) % 4)) :=
  Bytes.get_tab_of_lt _ hj

theorem get_addRoundKey (b : Block) (w : ExpandedKey) (r : Nat) {j : Nat} (hj : j < 16) :
    (addRoundKey b w r).get j = b.get j ^^^ w.get (16 * r + j) := by
  rw [addRoundKey, Bytes.get_xor, get_roundKey w r hj]

/-! ### Two column mixes, one after the other -/

/-- Entry `(i, k)` of the matrix product `m · n` over the field. -/
def matrixProductEntry (m n : Matrix4) (i k : Nat) : Byte :=
  gmul (matrixEntry m i 0) (matrixEntry n 0 k) ^^^ gmul (matrixEntry m i 1) (matrixEntry n 1 k) ^^^
    gmul (matrixEntry m i 2) (matrixEntry n 2 k) ^^^ gmul (matrixEntry m i 3) (matrixEntry n 3 k)

/-- `gmul` distributes over XOR and is associative, so two mixes are one mix with the product matrix. -/
theorem get_mixWith_mixWith (m n : Matrix4) (b : Block) {c i : Nat} (hc : c < 4) (hi : i < 4) :
    (mixWith m (mixWith n b)).get (4 * c + i) =
      gmul (matrixProductEntry m n i 0) (b.get (4 * c)) ^^^ gmul (matrixProductEntry m n i 1) (b.get (4 * c + 1)) ^^^
        gmul (matrixProductEntry m n i 2) (b.get (4 * c + 2)) ^^^
          gmul (matrixProductEntry m n i 3) (b.get (4 * c + 3)) := by
  have inner0 := get_mixWith n b hc (i := 0) (by decide)
  rw [Nat.add_zero] at inner0
  rw [get_mixWith m _ hc hi, inner0, get_mixWith n b hc (i := 1) (by decide), get_mixWith n b hc (i := 2) (by decide),
    get_mixWith n b hc (i := 3) (by decide)]
  simp only [matrixProductEntry, gmul_xor_left, gmul_xor_right, gmul_assoc]
  ac_rfl

/-- "`InvMDS` is the inverse of `MDS`: their product is the identity matrix" (R106). -/
theorem matrixProductEntry_invMds_mds :
    ∀ i < 4, ∀ k < 4, matrixProductEntry invMds mds i k = if i = k then 1#8 else 0#8 := by
  decide

/-! ### Each inverse function undoes its function (R132, R134, R136, R137) -/

@[simp] theorem invSubBytes_subBytes (b : Block) : invSubBytes (subBytes b) = b :=
  Bytes.ext_get fun j hj => by rw [get_invSubBytes _ hj, get_subBytes _ hj, invSbox_sbox]

@[simp] theorem invShiftRows_shiftRows (b : Block) : invShiftRows (shiftRows b) = b :=
  Bytes.ext_get fun j hj => by
    rw [get_invShiftRows _ hj, get_shiftRows _ (by omega)]
    congr 1
    omega

@[simp] theorem invMixColumns_mixColumns (b : Block) : invMixColumns (mixColumns b) = b :=
  Bytes.ext_get fun j hj => by
    obtain ⟨c, i, hc, hi, rfl⟩ : ∃ c i, c < 4 ∧ i < 4 ∧ j = 4 * c + i := ⟨j / 4, j % 4, by omega, by omega, by omega⟩
    rw [invMixColumns, mixColumns, get_mixWith_mixWith _ _ _ hc hi]
    have entry := matrixProductEntry_invMds_mds i hi
    rw [entry 0 (by decide), entry 1 (by decide), entry 2 (by decide), entry 3 (by decide)]
    interval_cases i <;> simp

@[simp] theorem addRoundKey_addRoundKey (b : Block) (w : ExpandedKey) (r : Nat) :
    addRoundKey (addRoundKey b w r) w r = b :=
  Bytes.xor_xor_cancel _ _

/-! ### The inverse cipher undoes the cipher (R140) -/

@[simp] theorem invRound_fullRound (w : ExpandedKey) (r : Nat) (b : Block) : invRound w r (fullRound w r b) = b := by
  simp only [invRound, fullRound, addRoundKey_addRoundKey, invMixColumns_mixColumns, invShiftRows_shiftRows,
    invSubBytes_subBytes]

@[simp] theorem invRounds_fullRounds (w : ExpandedKey) (n : Nat) (b : Block) : invRounds w n (fullRounds w n b) = b := by
  induction n with
  | zero => rfl
  | succ n ih => rw [fullRounds, invRounds, invRound_fullRound, ih]

/-- The central law, for every expanded key. -/
theorem invCipher_cipher (b : Block) (w : ExpandedKey) : invCipher (cipher b w) w = b := by
  rw [invCipher, cipher, addRoundKey_addRoundKey, invShiftRows_shiftRows, invSubBytes_subBytes, invRounds_fullRounds,
    addRoundKey_addRoundKey]

end Sys2Proof.Machine

/-! SUPPORT. The commands of the block engine (R141 to R149): how each ends, and what a sequence of them leaves in `STATE`. -/

namespace Sys2Proof.Machine

/-! ### How the commands end -/

theorem State.finishBlock_eq (s : State) (b : Block) :
    s.finishBlock b = { s with
      state := b, status := { s.status with err := false, errCode := .ok, path := .none } } := rfl

theorem State.raiseError_eq (s : State) (c : ErrCode) (p : Path) :
    s.raiseError c p = { s with status := { s.status with err := true, errCode := c, path := p } } := rfl

@[simp] theorem State.finishBlock_state (s : State) (b : Block) : (s.finishBlock b).state = b := rfl
@[simp] theorem State.finishBlock_expkey (s : State) (b : Block) : (s.finishBlock b).expkey = s.expkey := rfl
@[simp] theorem State.finishBlock_finishBlock (s : State) (a b : Block) :
    (s.finishBlock a).finishBlock b = s.finishBlock b := rfl

theorem exec_ark_of_lt {a : Byte} (ha : 14 < a.toNat) (s : State) : exec (.ark a) s = .next (s.raiseError .round .none) :=
  if_pos ha

section KeyMissing

variable {s : State} (hk : s.status.keyValid = false)
include hk

theorem exec_ark_of_noKey {a : Byte} (ha : a.toNat ≤ 14) : exec (.ark a) s = .next (s.raiseError .noKey .none) :=
  (if_neg (Nat.not_lt.2 ha)).trans (if_pos hk)

theorem exec_encblk_of_noKey : exec .encblk s = .next (s.raiseError .noKey .none) :=
  if_pos hk

theorem exec_decblk_of_noKey : exec .decblk s = .next (s.raiseError .noKey .none) :=
  if_pos hk

end KeyMissing

section KeyValid

variable {s : State} (hk : s.status.keyValid = true)
include hk

theorem exec_ark_of_keyValid {a : Byte} (ha : a.toNat ≤ 14) :
    exec (.ark a) s = .next (s.finishBlock (addRoundKey s.state s.expkey a.toNat)) :=
  (if_neg (Nat.not_lt.2 ha)).trans (if_neg (by simp [hk]))

theorem exec_encblk_of_keyValid : exec .encblk s = .next (s.finishBlock (cipher s.state s.expkey)) :=
  if_neg (by simp [hk])

theorem exec_decblk_of_keyValid : exec .decblk s = .next (s.finishBlock (invCipher s.state s.expkey)) :=
  if_neg (by simp [hk])

end KeyValid

/-! ### Sequences of commands that transform `STATE` -/

/-- Run with a valid key, the commands complete, and together they do to `STATE` what `f` does to a block under `EXPKEY`. -/
def TransformState (is : List Instr) (f : ExpandedKey → Block → Block) : Prop :=
  ∀ s : State, s.status.keyValid = true → execAll is s = .next (s.finishBlock (f s.expkey s.state))

theorem transformState_singleton {i : Instr} {f : ExpandedKey → Block → Block}
    (h : ∀ s : State, s.status.keyValid = true → exec i s = .next (s.finishBlock (f s.expkey s.state))) :
    TransformState [i] f :=
  fun s hk => execAll_cons_next (h s hk) []

theorem TransformState.append {is js : List Instr} {f g : ExpandedKey → Block → Block} (hf : TransformState is f)
    (hg : TransformState js g) : TransformState (is ++ js) fun w b => g w (f w b) := by
  intro s hk
  have second := hg (s.finishBlock (f s.expkey s.state)) hk
  rw [State.finishBlock_state, State.finishBlock_expkey, State.finishBlock_finishBlock] at second
  exact (execAll_append_next (hf s hk) js).trans second

theorem transformState_subb : TransformState [.subb] fun _ b => subBytes b :=
  transformState_singleton fun _ _ => rfl
theorem transformState_isubb : TransformState [.isubb] fun _ b => invSubBytes b :=
  transformState_singleton fun _ _ => rfl
theorem transformState_shrows : TransformState [.shrows] fun _ b => shiftRows b :=
  transformState_singleton fun _ _ => rfl
theorem transformState_ishrows : TransformState [.ishrows] fun _ b => invShiftRows b :=
  transformState_singleton fun _ _ => rfl
theorem transformState_mixcol : TransformState [.mixcol] fun _ b => mixColumns b :=
  transformState_singleton fun _ _ => rfl
theorem transformState_imixcol : TransformState [.imixcol] fun _ b => invMixColumns b :=
  transformState_singleton fun _ _ => rfl

theorem transformState_ark {r : Nat} (hr : r ≤ 14) :
    TransformState [.ark (BitVec.ofNat 8 r)] fun w b => addRoundKey b w r := by
  have toNat_r : (BitVec.ofNat 8 r).toNat = r := (BitVec.toNat_ofNat _ _).trans (Nat.mod_eq_of_lt (by omega))
  exact transformState_singleton fun s hk => by rw [exec_ark_of_keyValid hk (by rwa [toNat_r]), toNat_r]

/-! ### The step commands of the two ciphers (R138, R139) -/

theorem transformState_fullRound {r : Nat} (hr : r ≤ 14) :
    TransformState [.subb, .shrows, .mixcol, .ark (BitVec.ofNat 8 r)] (fullRound · r) :=
  ((transformState_subb.append transformState_shrows).append transformState_mixcol).append (transformState_ark hr)

theorem transformState_invRound {r : Nat} (hr : r ≤ 14) :
    TransformState [.ark (BitVec.ofNat 8 r), .imixcol, .ishrows, .isubb] (invRound · r) :=
  (((transformState_ark hr).append transformState_imixcol).append transformState_ishrows).append transformState_isubb

/-- The initial `ARK 0` and the full rounds `1` to `n`. -/
theorem transformState_fullRounds {n : Nat} (hn : n ≤ 13) :
    TransformState ([.ark 0] ++
        (List.range n).flatMap fun r => [.subb, .shrows, .mixcol, .ark (BitVec.ofNat 8 (r + 1))])
      fun w b => fullRounds w n (addRoundKey b w 0) := by
  induction n with
  | zero => exact transformState_ark (Nat.zero_le _)
  | succ n ih =>
    rw [List.range_succ, List.flatMap_append, ← List.append_assoc, List.flatMap_singleton]
    exact (ih (by omega)).append (transformState_fullRound (by omega))

/-- The mirrored rounds `n` down to `1` and the final `ARK 0`. -/
theorem transformState_invRounds {n : Nat} (hn : n ≤ 13) :
    TransformState (((List.range n).flatMap fun r => [.ark (BitVec.ofNat 8 (n - r)), .imixcol, .ishrows, .isubb]) ++
        [.ark 0])
      fun w b => addRoundKey (invRounds w n b) w 0 := by
  induction n with
  | zero => exact transformState_ark (Nat.zero_le _)
  | succ n ih =>
    rw [List.range_succ_eq_map, List.flatMap_cons, List.flatMap_map, List.append_assoc]
    simp only [Nat.succ_eq_add_one, Nat.add_sub_add_right]
    exact (transformState_invRound (by omega)).append (ih (by omega))

theorem transformState_cipherSteps : TransformState cipherSteps fun w b => cipher b w :=
  (transformState_fullRounds le_rfl).append
    ((transformState_subb.append transformState_shrows).append (transformState_ark le_rfl))

theorem transformState_invCipherSteps : TransformState invCipherSteps fun w b => invCipher b w := by
  rw [invCipherSteps, List.append_assoc]
  exact (((transformState_ark le_rfl).append transformState_ishrows).append transformState_isubb).append
    (transformState_invRounds le_rfl)

end Sys2Proof.Machine

/-! The statements about the block engine and its commands. -/

namespace Sys2Proof.Machine

/-! ### The round functions and the ciphers -/

/-- Settles O33: the three functions are tables of bytes, and a byte XORed twice comes back. -/
theorem lanewiseRoundSteps : Obligations.LanewiseRoundSteps := by
  unfold Obligations.LanewiseRoundSteps
  intro b w r j hj
  exact ⟨get_subBytes b hj, get_invSubBytes b hj, get_addRoundKey b w r hj, addRoundKey_addRoundKey b w r⟩

/-- Settles O34: the two permutations are read off the definitions index by index. -/
theorem rowShiftsArePermutations : Obligations.RowShiftsArePermutations := by
  unfold Obligations.RowShiftsArePermutations
  exact fun b => ⟨rfl, rfl, invShiftRows_shiftRows b⟩

/-- Settles O35: each byte of a column is its row of the matrix, and the product of the two matrices is the identity. -/
theorem columnMixesByCoefficient : Obligations.ColumnMixesByCoefficient := by
  unfold Obligations.ColumnMixesByCoefficient
  refine ⟨fun b c hc => ?_, invMixColumns_mixColumns⟩
  have mix {i : Nat} (hi : i < 4) := get_mixWith mds b hc hi
  have unmix {i : Nat} (hi : i < 4) := get_mixWith invMds b hc hi
  refine ⟨?_, ?_, ?_, ?_, ?_, ?_, ?_, ?_⟩
  · simpa [mixColumns, matrixEntry, mds] using mix (i := 0) (by decide)
  · simpa [mixColumns, matrixEntry, mds] using mix (i := 1) (by decide)
  · simpa [mixColumns, matrixEntry, mds] using mix (i := 2) (by decide)
  · simpa [mixColumns, matrixEntry, mds] using mix (i := 3) (by decide)
  · simpa [invMixColumns, matrixEntry, invMds] using unmix (i := 0) (by decide)
  · simpa [invMixColumns, matrixEntry, invMds] using unmix (i := 1) (by decide)
  · simpa [invMixColumns, matrixEntry, invMds] using unmix (i := 2) (by decide)
  · simpa [invMixColumns, matrixEntry, invMds] using unmix (i := 3) (by decide)

/-- Settles O36: the law holds for every expanded key, so for that of `k`. -/
theorem inverseCipherUndoesCipher : Obligations.InverseCipherUndoesCipher := by
  unfold Obligations.InverseCipherUndoesCipher
  exact fun b k => invCipher_cipher b (expandKey k)

/-! ### The commands -/

/-- Settles O37: each of the six commands is `finishBlock` of its round function. -/
theorem roundStepCommandsTransformState : Obligations.RoundStepCommandsTransformState := by
  unfold Obligations.RoundStepCommandsTransformState
  intro s
  simp only [exec, execSubb, execIsubb, execShrows, execIshrows, execMixcol, execImixcol, State.finishBlock_eq, and_self]

/-- Settles O38, by the three ways `ARK` can end. -/
theorem arkAddsTheRoundKey : Obligations.ArkAddsTheRoundKey := by
  unfold Obligations.ArkAddsTheRoundKey
  intro a s
  refine ⟨fun ha hk => ?_, fun ha => ?_, fun ha hk => ?_⟩
  · rw [exec_ark_of_keyValid hk ha, State.finishBlock_eq]
  · rw [exec_ark_of_lt ha, State.raiseError_eq]
  · rw [exec_ark_of_noKey hk ha, State.raiseError_eq]

/-- Settles O39: a block command and its step commands both finish with the cipher of `STATE`. -/
theorem blockCommandsCipherState : Obligations.BlockCommandsCipherState := by
  unfold Obligations.BlockCommandsCipherState
  intro s
  refine ⟨fun hk => ⟨?_, ?_, ?_, ?_⟩, fun hk i hi => ?_⟩
  · rw [exec_encblk_of_keyValid hk, State.finishBlock_eq]
  · rw [exec_decblk_of_keyValid hk, State.finishBlock_eq]
  · rw [exec_encblk_of_keyValid hk, transformState_cipherSteps s hk]
  · rw [exec_decblk_of_keyValid hk, transformState_invCipherSteps s hk]
  · rcases hi with rfl | rfl
    · rw [exec_encblk_of_noKey hk, State.raiseError_eq]
    · rw [exec_decblk_of_noKey hk, State.raiseError_eq]

/-- Settles O40: the two block commands are two transformations of `STATE`, and the second undoes the first. -/
theorem encblkThenDecblkRestoresState : Obligations.EncblkThenDecblkRestoresState := by
  unfold Obligations.EncblkThenDecblkRestoresState
  intro s hk
  have encblk : TransformState [.encblk] fun w b => cipher b w :=
    transformState_singleton fun _ => exec_encblk_of_keyValid
  have decblk : TransformState [.decblk] fun w b => invCipher b w :=
    transformState_singleton fun _ => exec_decblk_of_keyValid
  calc execAll [.encblk, .decblk] s
    _ = .next (s.finishBlock (invCipher (cipher s.state s.expkey) s.expkey)) := encblk.append decblk s hk
    _ = .next (s.finishBlock s.state) := by rw [invCipher_cipher]

end Sys2Proof.Machine

/-! SUPPORT. The stream wrappers (R160 to R179): which length the last byte of a padded string decides, how the keystream
primitives end, and the state each wrapper leaves, field by field and byte by byte. -/

namespace Sys2Proof.Machine

/-! ### Padding -/

/-- Only the last byte of a padded string of at least one block decides (R161, U6). -/
theorem unpadLen_eq {q : List Byte} {n : Byte} (hl : 16 ≤ q.length) (hn : q.getD (q.length - 1) 0 = n) :
    unpadLen q = if 1 ≤ n.toNat ∧ n.toNat ≤ 16 then some (q.length - n.toNat) else none := by
  unfold unpadLen
  rw [hn]
  by_cases good : 1 ≤ n.toNat ∧ n.toNat ≤ 16
  · rw [if_pos good, if_neg (by omega), if_neg (by omega)]
  · rw [if_neg good, if_pos (by omega)]

/-- The pad byte is a number of 1 to 16, so a byte holds it (R160). -/
theorem toNat_padByte (l : Nat) : (BitVec.ofNat 8 (16 - l % 16)).toNat = 16 - l % 16 := by
  rw [BitVec.toNat_ofNat]
  omega

theorem unpadLen_padCur (p : List Byte) : unpadLen (padCur p) = some p.length := by
  have hl := length_padCur p
  have last : (padCur p).getD ((padCur p).length - 1) 0 = BitVec.ofNat 8 (16 - p.length % 16) := by
    rw [getD_padCur p (by omega), if_neg (by omega)]
  rw [unpadLen_eq (by omega) last, toNat_padByte, if_pos (by omega)]
  congr 1
  omega

/-! ### The keystream primitives (R170 to R172) -/

theorem State.finish_eq (s : State) (p : Path) :
    s.finish p = { s with status := { s.status with err := false, errCode := .ok, path := p } } := rfl

/-- `KSNEXT` with both flags: the keystream's next block goes to `KSR`. -/
theorem exec_ksnext_of_valid {s : State} (hk : s.status.keyValid = true) (hv : s.status.ksValid = true) :
    exec .ksnext s = .next ({ s with ksr := cipher s.ksr s.expkey }.finish .none) :=
  (if_neg (by simp [hk])).trans (if_neg (by simp [hv]))

theorem exec_ksnext_of_noKey {s : State} (hk : s.status.keyValid = false) :
    exec .ksnext s = .next (s.raiseError .noKey .none) :=
  if_pos hk

theorem exec_ksnext_of_noKs {s : State} (hk : s.status.keyValid = true) (hv : s.status.ksValid = false) :
    exec .ksnext s = .next (s.raiseError .noKs .none) :=
  (if_neg (by simp [hk])).trans (if_pos hv)

theorem exec_ksxor_of_valid {s : State} (hv : s.status.ksValid = true) :
    exec .ksxor s = .next (s.finishBlock (s.state.xor s.ksr)) :=
  if_neg (by simp [hv])

theorem exec_ksxor_of_noKs {s : State} (hv : s.status.ksValid = false) :
    exec .ksxor s = .next (s.raiseError .noKs .none) :=
  if_pos hv

/-- `n + 1` times `KSNEXT` walks from `KSR` to keystream block `n` (R163, R171). -/
theorem execAll_ksnext (n : Nat) {s : State} (hk : s.status.keyValid = true) (hv : s.status.ksValid = true) :
    execAll (List.replicate (n + 1) .ksnext) s =
      .next ({ s with ksr := keystreamBlock s.ksr s.expkey n }.finish .none) := by
  induction n generalizing s with
  | zero => exact execAll_cons_next (exec_ksnext_of_valid hk hv) []
  | succ n ih =>
    have rest := ih (s := { s with ksr := cipher s.ksr s.expkey }.finish .none) hk hv
    rw [List.replicate_succ, execAll_cons_next (exec_ksnext_of_valid hk hv), rest, State.finish_ksr, State.finish_expkey,
      keystreamBlock_cipher]
    rfl

/-! ### The pre-checks of the buffer commands -/

theorem exec_decCur (s : State) : exec .decCur s = .next ((streamDec s).conclude .none) := rfl
theorem exec_decOld (s : State) : exec .decOld s = .next ((streamDec s).conclude .none) := rfl
theorem exec_xorc (s : State) : exec .xorc s = .next ((xorRun s).conclude .none) := rfl

theorem streamEnc_of_overlong {s : State} (h : s.bufSize.bytes < s.len.toNat) (padfn : List Byte → List Byte) :
    streamEnc padfn s = s.failBuf .len :=
  if_pos h

theorem streamDec_of_overlong {s : State} (h : s.bufSize.bytes < s.len.toNat) : streamDec s = s.failBuf .len :=
  if_pos h

theorem xorRun_of_overlong {s : State} (h : s.bufSize.bytes < s.len.toNat) : xorRun s = s.failBuf .len :=
  if_pos h

theorem exec_decrypt_of_overlong {s : State} (h : s.bufSize.bytes < s.len.toNat) :
    exec .decrypt s = .next ((s.failBuf .len).conclude .none) :=
  if_pos h

theorem streamDec_of_badEnvelope {s : State} (hl : s.len.toNat ≤ s.bufSize.bytes)
    (h : s.len.toNat < 32 ∨ s.len.toNat % 16 ≠ 0) : streamDec s = s.failBuf .envelope :=
  (if_neg (Nat.not_lt.2 hl)).trans (if_pos h)

theorem xorRun_of_badPwlen {s : State} (hl : s.len.toNat ≤ s.bufSize.bytes)
    (h : s.pwlen.toNat = 0 ∨ Config.pwMax < s.pwlen.toNat) : xorRun s = s.failBuf .pwlen :=
  (if_neg (Nat.not_lt.2 hl)).trans (if_pos h)

/-- A failed pre-check writes `OUTLEN` and the report (R234). -/
theorem State.failBuf_conclude (s : State) (c : ErrCode) (p : Path) :
    (s.failBuf c).conclude p = { s with
      outlen := 0, status := { s.status with err := true, errCode := c, path := p } } := rfl

/-! ### `StreamEnc` without its pre-check (R175) -/

theorem State.chooseIv_of_autoIv_true {s : State} (h : s.ctrl.autoIv = true) : s.chooseIv = s.drawIv := by
  simp [State.chooseIv, h]

/-- The state an encrypt command leaves. -/
def State.encrypted (s : State) (p : Path) : State :=
  (s.chooseIv.expandOnEntry.encryptStream (padCur (s.ibufBytes s.len.toNat))).finish p

theorem exec_eq_encrypted {i : Instr} {p : Path} {s : State} (hr : RunsStreamEnc i p)
    (hl : s.len.toNat ≤ s.bufSize.bytes) : exec i s = .next (s.encrypted p) := by
  rw [exec_of_runsStreamEnc s hr]
  rcases streamEnc_conclude s p with ⟨h, _⟩ | ⟨_, h⟩
  · omega
  · rw [h, State.encrypted]

theorem State.encrypted_iv (s : State) (p : Path) :
    (s.encrypted p).iv = if s.ctrl.autoIv then s.nextDraw else s.iv :=
  s.chooseIv_iv

theorem State.encrypted_expkey (s : State) (p : Path) : (s.encrypted p).expkey = expandKey s.key := by
  simp [State.encrypted]

theorem State.encrypted_status (s : State) (p : Path) : (s.encrypted p).status = ⟨true, true, false, p, .ok⟩ := rfl

/-- The padded plaintext is the whole blocks of the input and one block more (R160). -/
theorem State.length_paddedInput (s : State) :
    (padCur (s.ibufBytes s.len.toNat)).length = 16 * (s.len.toNat / 16 + 1) := by
  rw [length_padCur, State.length_ibufBytes]

theorem State.encrypted_ksr (s : State) (p : Path) :
    (s.encrypted p).ksr = keystreamBlock (s.encrypted p).iv (s.encrypted p).expkey (s.len.toNat / 16) := by
  have blocks : (padCur (s.ibufBytes s.len.toNat)).length / 16 = s.len.toNat / 16 + 1 := by
    rw [s.length_paddedInput]
    omega
  rw [State.encrypted, State.finish_ksr, State.encryptStream_ksr, blocks, streamLoop_last]
  rfl

theorem State.toNat_encrypted_outlen {s : State} (hl : s.len.toNat ≤ s.bufSize.bytes) (p : Path) :
    (s.encrypted p).outlen.toNat = 16 + 16 * (s.len.toNat / 16 + 1) := by
  have := s.bufSize.atMost
  rw [State.encrypted, State.finish_outlen, State.encryptStream_outlen, s.length_paddedInput, BitVec.toNat_ofNat]
  omega

/-- The memory after an encrypt: the IV, the padded plaintext XOR the keystream, and everything else as it was. -/
theorem State.encrypted_bytes (s : State) (p : Path) :
    (∀ j, j < 16 → (s.encrypted p).byteAt (0x2000 + j) = (s.encrypted p).iv.get j) ∧
    (∀ k, k < 16 * (s.len.toNat / 16 + 1) → (s.encrypted p).byteAt (0x2010 + k) =
      (padCur (s.ibufBytes s.len.toNat)).getD k 0 ^^^
        (keystreamBlock (s.encrypted p).iv (s.encrypted p).expkey (k / 16)).get (k % 16)) ∧
    ∀ a, ¬ (0x2000 ≤ a ∧ a < 0x2010 + 16 * (s.len.toNat / 16 + 1)) → (s.encrypted p).byteAt a = s.byteAt a := by
  have hl := s.length_paddedInput
  obtain ⟨hiv, htext, hframe⟩ :=
    s.chooseIv.expandOnEntry.encryptStream_bytes (padCur (s.ibufBytes s.len.toNat)) (by omega)
  rw [hl] at htext hframe
  exact ⟨hiv, htext, fun a ha => (hframe a ha).trans (State.byteAt_of_ram_epoch (by simp) (by simp) a)⟩

/-- A byte of the padded plaintext is a byte of `IBUF` or a pad byte. -/
theorem State.getD_paddedInput (s : State) {k : Nat} (hk : k < 16 * (s.len.toNat / 16 + 1)) :
    (padCur (s.ibufBytes s.len.toNat)).getD k 0 =
      if k < s.len.toNat then s.byteAt (0x1000 + k) else BitVec.ofNat 8 (16 - s.len.toNat % 16) := by
  rw [getD_padCur _ (by rwa [s.length_paddedInput]), State.length_ibufBytes]
  by_cases h : k < s.len.toNat
  · rw [if_pos h, if_pos h, State.ibufBytes, State.getD_bytesAt s h, Config.ibufBase]
  · rw [if_neg h, if_neg h]

/-! ### `StreamDec` without its pre-checks (R176) -/

/-- `StreamDec` up to its late check: the state it leaves but for `OUTLEN` and the report, and the padded plaintext. -/
def State.decrypted (s : State) : State × List Byte :=
  s.expandOnEntry.decryptStream (s.ibufBytes s.len.toNat)

/-- The last byte of the padded plaintext, as it stands in `OBUF`. -/
def State.lastPlainByte (s : State) : Byte :=
  s.decrypted.1.byteAt (0x2000 + (s.len.toNat - 17))

/-- The late check of `StreamDec` and what follows it. -/
def lateCheck (d : State × List Byte) : Ending :=
  match unpadLen d.2 with
  | none => d.1.failBuf .padding
  | some m => .done { d.1 with outlen := BitVec.ofNat 32 m }

theorem streamDec_eq_lateCheck {s : State} (hl : s.len.toNat ≤ s.bufSize.bytes)
    (henv : ¬ (s.len.toNat < 32 ∨ s.len.toNat % 16 ≠ 0)) : streamDec s = lateCheck s.decrypted :=
  (if_neg (Nat.not_lt.2 hl)).trans (if_neg henv)

section WellFormedEnvelope

variable {s : State} (h32 : 32 ≤ s.len.toNat) (h16 : s.len.toNat % 16 = 0)
include h32 h16

/-- What `StreamDec` leaves in `OBUF`: the envelope's blocks XOR the keystream of its IV, and no other byte changed (R163,
R164). -/
theorem State.decrypted_bytes :
    s.decrypted.2.length = s.len.toNat - 16 ∧
    (∀ k, k < s.len.toNat - 16 → s.decrypted.1.byteAt (0x2000 + k) = s.decrypted.2.getD k 0) ∧
    (∀ k, k < s.len.toNat - 16 → s.decrypted.2.getD k 0 = s.byteAt (0x1010 + k) ^^^
      (keystreamBlock (.tab 16 fun j => s.byteAt (0x1000 + j)) (expandKey s.key) (k / 16)).get (k % 16)) ∧
    s.decrypted.1.ksr =
      keystreamBlock (.tab 16 fun j => s.byteAt (0x1000 + j)) (expandKey s.key) (s.len.toNat / 16 - 2) ∧
    ∀ a, ¬ (0x2000 ≤ a ∧ a < 0x2000 + (s.len.toNat - 16)) → s.decrypted.1.byteAt a = s.byteAt a := by
  obtain ⟨hlen, htext, hksr, hobuf, hframe⟩ :=
    s.expandOnEntry.decryptStream_bytes (s.ibufBytes s.len.toNat) (by simpa) (by simpa)
  rw [envelopeIv_ibufBytes s (by omega)] at htext hksr
  rw [State.length_ibufBytes] at hlen htext hksr hobuf hframe
  refine ⟨hlen, hobuf, fun k hk => ?_, hksr, hframe⟩
  have text := htext k hk
  rwa [State.ibufBytes, State.getD_bytesAt s (by omega), Config.ibufBase, ← Nat.add_assoc] at text

theorem unpadLen_decrypted : unpadLen s.decrypted.2 =
    if 1 ≤ s.lastPlainByte.toNat ∧ s.lastPlainByte.toNat ≤ 16 then some (s.len.toNat - 16 - s.lastPlainByte.toNat)
    else none := by
  obtain ⟨hl, hobuf, _⟩ := State.decrypted_bytes h32 h16
  have last : s.decrypted.2.getD (s.decrypted.2.length - 1) 0 = s.lastPlainByte := by
    rw [State.lastPlainByte, hobuf _ (by omega), hl, Nat.sub_sub]
  rw [unpadLen_eq (by omega) last, hl]

/-- How `StreamDec` ends on a well-formed envelope: the last byte decides `OUTLEN` and the report. -/
theorem streamDec_conclude_of_wellFormed (hl : s.len.toNat ≤ s.bufSize.bytes) (p : Path) :
    ∃ (r : Status) (o : Word), (streamDec s).conclude p = { s.decrypted.1 with status := r, outlen := o } ∧
      (1 ≤ s.lastPlainByte.toNat ∧ s.lastPlainByte.toNat ≤ 16 →
        r = ⟨true, true, false, p, .ok⟩ ∧ o.toNat = s.len.toNat - 16 - s.lastPlainByte.toNat) ∧
      (s.lastPlainByte.toNat = 0 ∨ 16 < s.lastPlainByte.toNat → r = ⟨true, true, true, p, .padding⟩ ∧ o = 0) := by
  rw [streamDec_eq_lateCheck hl (by omega), lateCheck, unpadLen_decrypted h32 h16]
  by_cases good : 1 ≤ s.lastPlainByte.toNat ∧ s.lastPlainByte.toNat ≤ 16
  · rw [if_pos good]
    refine ⟨_, _, rfl, fun _ => ⟨rfl, ?_⟩, fun bad => by omega⟩
    rw [BitVec.toNat_ofNat, Nat.mod_eq_of_lt (by omega)]
  · rw [if_neg good]
    exact ⟨_, _, rfl, fun h => absurd h good, fun _ => ⟨rfl, rfl⟩⟩

end WellFormedEnvelope

/-! ### The decrypt commands and `IV` (R32, R176) -/

theorem lateCheck_conclude_iv (d : State × List Byte) (x : Block) (p : Path) :
    (lateCheck ({ d.1 with iv := x }, d.2)).conclude p = { (lateCheck d).conclude p with iv := x } := by
  unfold lateCheck
  cases unpadLen d.2 <;> rfl

section ChangedIv

variable (s : State) (x : Block) (p : Path)

/-- `StreamDec` does the same whatever `IV` holds. -/
theorem streamDec_conclude_iv :
    (streamDec { s with iv := x }).conclude p = { (streamDec s).conclude p with iv := x } := by
  by_cases hlen : s.bufSize.bytes < s.len.toNat
  · rw [streamDec_of_overlong hlen, streamDec_of_overlong (s := { s with iv := x }) hlen]
    rfl
  have hl : s.len.toNat ≤ s.bufSize.bytes := by omega
  by_cases henv : s.len.toNat < 32 ∨ s.len.toNat % 16 ≠ 0
  · rw [streamDec_of_badEnvelope hl henv, streamDec_of_badEnvelope (s := { s with iv := x }) hl henv]
    rfl
  · rw [streamDec_eq_lateCheck hl henv, streamDec_eq_lateCheck (s := { s with iv := x }) hl henv]
    exact lateCheck_conclude_iv s.decrypted x p

/-- `XorRun` does the same whatever `IV` holds. -/
theorem xorRun_conclude_iv : (xorRun { s with iv := x }).conclude p = { (xorRun s).conclude p with iv := x } := by
  unfold xorRun
  dsimp only
  split_ifs <;> rfl

theorem decryptLegacy_iv : decryptLegacy { s with iv := x } = { decryptLegacy s with iv := x } := by
  have route : route0 s.ctrl.legacyRoute (State.ibufBytes { s with iv := x } s.len.toNat) =
      route0 s.ctrl.legacyRoute (s.ibufBytes s.len.toNat) := rfl
  unfold decryptLegacy
  rw [route]
  cases route0 s.ctrl.legacyRoute (s.ibufBytes s.len.toNat) with
  | none => rfl
  | some r =>
    cases r with
    | aesOld => exact streamDec_conclude_iv s x .legacyAes
    | xor => exact xorRun_conclude_iv s x .legacyXor

/-- `DECRYPT` does the same whatever `IV` holds. -/
theorem exec_decrypt_iv {t : State} (h : exec .decrypt s = .next t) :
    exec .decrypt { s with iv := x } = .next { t with iv := x } := by
  simp only [exec, execDecrypt] at h ⊢
  split_ifs at h ⊢ <;> cases h
  · rfl
  · rfl
  · rw [streamDec_conclude_iv]
  · rw [decryptLegacy_iv]

end ChangedIv

end Sys2Proof.Machine

/-! The statements about padding, the keystream and the stream commands. -/

namespace Sys2Proof.Machine

/-! ### Padding and the keystream -/

/-- Settles O41, from the last byte of a padded string. -/
theorem unpaddingUndoesPadding : Obligations.UnpaddingUndoesPadding := by
  unfold Obligations.UnpaddingUndoesPadding
  refine ⟨fun p => ?_, fun q n hl _ hn => ?_⟩
  · have hl := length_padCur p
    exact ⟨List.drop_left, by omega, by omega, List.take_left, unpadLen_padCur p⟩
  · have last : q.getD (q.length - 1) 0 = n := by
      rw [List.getD_eq_getElem?_getD, ← List.getLast?_eq_getElem?, hn, Option.getD_some]
    rw [unpadLen_eq hl last]
    exact ⟨fun good => if_pos good, fun bad => if_neg (by omega)⟩

/-- Settles O42, by the ways each of the three commands can end. -/
theorem keystreamPrimitives : Obligations.KeystreamPrimitives := by
  unfold Obligations.KeystreamPrimitives
  intro s
  refine ⟨rfl, fun hk hv => ?_, fun hk => ?_, fun hk hv => ?_, fun hv => ?_, fun hv => ?_⟩
  · rw [exec_ksnext_of_valid hk hv, State.finish_eq]
  · rw [exec_ksnext_of_noKey hk, State.raiseError_eq]
  · rw [exec_ksnext_of_noKs hk hv, State.raiseError_eq]
  · rw [exec_ksxor_of_valid hv, State.finishBlock_eq, Bytes.xor]
  · rw [exec_ksxor_of_noKs hv, State.raiseError_eq]

/-- Settles O43: `KSLOAD` makes `KS_VALID` 1 and `KSR` the IV, from which the walk starts. -/
theorem ksnextWalksTheKeystream : Obligations.KsnextWalksTheKeystream := by
  unfold Obligations.KsnextWalksTheKeystream
  intro s n hk
  calc execAll (.ksload :: List.replicate (n + 1) .ksnext) s
    _ = execAll (List.replicate (n + 1) .ksnext) ((s.setKeystream s.iv).finish .none) := execAll_cons_next rfl _
    _ = .next _ := execAll_ksnext n hk rfl

/-! ### The encrypt commands -/

/-- Settles O44, from the fields and the memory of the state an encrypt command leaves. -/
theorem encryptWritesTheEnvelope : Obligations.EncryptWritesTheEnvelope := by
  unfold Obligations.EncryptWritesTheEnvelope
  intro i p s hr hl
  obtain ⟨hiv, htext, _⟩ := s.encrypted_bytes p
  refine ⟨s.encrypted p, (s.encrypted p).iv, (s.encrypted p).expkey, exec_eq_encrypted hr hl, s.encrypted_iv p,
    s.encrypted_expkey p, rfl, rfl, s.encrypted_ksr p, s.encrypted_status p, State.toNat_encrypted_outlen hl p, hiv,
    fun k hk => ?_, fun k hk hlt => ?_⟩
  · rw [htext k (by omega), s.getD_paddedInput (by omega), if_pos hk]
  · rw [htext k hlt, s.getD_paddedInput hlt, if_neg (by omega)]

/-- Settles O45: the IV source is used or not, and the memory outside the envelope reads as before. -/
theorem encryptFrame : Obligations.EncryptFrame := by
  unfold Obligations.EncryptFrame
  intro i p s t hr hl h
  cases (exec_eq_encrypted hr hl).symm.trans h
  rw [State.toNat_encrypted_outlen hl]
  obtain ⟨_, _, hframe⟩ := s.encrypted_bytes p
  have bytes : ∀ a, ¬ (0x2000 ≤ a ∧ a < 0x2000 + (16 + 16 * (s.len.toNat / 16 + 1))) →
      (s.encrypted p).byteAt a = s.byteAt a := fun a ha => hframe a (by omega)
  cases hauto : s.ctrl.autoIv with
  | false =>
    simp only [State.encrypted, State.chooseIv_of_autoIv_false hauto] at bytes ⊢
    exact ⟨rfl, fun _ => ⟨rfl, rfl, rfl⟩, nofun, bytes⟩
  | true =>
    simp only [State.encrypted, State.chooseIv_of_autoIv_true hauto] at bytes ⊢
    exact ⟨rfl, nofun, fun _ => ⟨rfl, rfl⟩, bytes⟩

/-! ### The decrypt commands -/

/-- Settles O46, from how `StreamDec` ends on a well-formed envelope. -/
theorem decryptWritesThePaddedPlaintext : Obligations.DecryptWritesThePaddedPlaintext := by
  unfold Obligations.DecryptWritesThePaddedPlaintext
  intro i p s hr hl h32 h16
  obtain ⟨r, o, hend, hgood, hbad⟩ := streamDec_conclude_of_wellFormed h32 h16 hl p
  obtain ⟨_, hobuf, htext, hksr, _⟩ := State.decrypted_bytes h32 h16
  exact ⟨_, _, _, _, (exec_of_runsStreamDec hl hr).trans (congrArg _ hend), rfl, rfl,
    fun k hk => (hobuf k hk).trans (htext k hk), rfl, rfl, hksr, hgood, hbad⟩

/-- Settles O47: the late check touches `OUTLEN` and the report, and the rest of `StreamDec` the four other places. -/
theorem decryptFrame : Obligations.DecryptFrame := by
  unfold Obligations.DecryptFrame
  intro i p s t hr hl h32 h16 h
  obtain ⟨r, o, hend, _, _⟩ := streamDec_conclude_of_wellFormed h32 h16 hl p
  obtain ⟨_, _, _, _, hframe⟩ := State.decrypted_bytes h32 h16
  rw [exec_of_runsStreamDec hl hr, hend] at h
  cases h
  exact ⟨rfl, hframe⟩

/-- Settles O48: the two paddings are the same bytes, and the two decrypt commands the same procedure. -/
theorem legacyCommandsEqualCurrent : Obligations.LegacyCommandsEqualCurrent := by
  unfold Obligations.LegacyCommandsEqualCurrent
  intro s
  have encCur := exec_of_runsStreamEnc s (i := .encCur) (p := .none) (.inl ⟨rfl, rfl⟩)
  have encOld := exec_of_runsStreamEnc s (i := .encOld) (p := .none) (.inr (.inl ⟨rfl, rfl⟩))
  exact ⟨encOld.trans encCur.symm, (exec_decOld s).trans (exec_decCur s).symm⟩

/-- Settles O50: `IV` is kept by the frame of the buffer commands, and each sub-procedure commutes with a change of it. -/
theorem decryptNeverReadsIv : Obligations.DecryptNeverReadsIv := by
  unfold Obligations.DecryptNeverReadsIv
  intro i s t x hi h
  constructor
  · obtain ⟨hbuffer, hnoDraw⟩ : i.mnemonic ∈ bufferCommands ∧ i.mnemonic ∉ [.encCur, .encOld, .encrypt] := by
      rcases hi with rfl | rfl | rfl <;> decide
    obtain ⟨_, _, _, kept⟩ := (exec_bufferCommand hbuffer h).frame
    obtain ⟨hiv, _⟩ := kept (.inl hnoDraw)
    exact hiv
  · rcases hi with rfl | rfl | rfl
    · cases h
      rw [exec_decCur, streamDec_conclude_iv]
    · cases h
      rw [exec_decOld, streamDec_conclude_iv]
    · exact exec_decrypt_iv s x h

/-! ### Encrypt, then decrypt -/

/-- Settles O49: XOR with the same keystream twice gives the padded input, whose last byte is its pad length. -/
theorem streamRoundTrip : Obligations.StreamRoundTrip := by
  unfold Obligations.StreamRoundTrip
  intro enc dec s t u hcmd hl h hsize hkey hlen hcopy
  have hmul := s.bufSize.isMultiple
  have hmin := s.bufSize.atLeast
  have runs : RunsStreamEnc enc .none ∧ RunsStreamDec dec u .none := by
    rcases hcmd with ⟨rfl, rfl⟩ | ⟨rfl, rfl⟩
    · exact ⟨.inl ⟨rfl, rfl⟩, .inl ⟨rfl, rfl⟩⟩
    · exact ⟨.inr (.inl ⟨rfl, rfl⟩), .inr (.inl ⟨rfl, rfl⟩)⟩
  obtain ⟨t', iv, w, ht, _, hw, _, _, _, _, houtlen, hiv, htext, hpad⟩ :=
    encryptWritesTheEnvelope enc .none s runs.1 (by omega)
  cases h.symm.trans ht
  rw [houtlen] at hcopy
  have hulen : u.len.toNat = 16 + 16 * (s.len.toNat / 16 + 1) := hlen ▸ houtlen
  obtain ⟨v, iv', w', n, hv, hiv', hw', hplain, hn, _, _, hgood, _⟩ :=
    decryptWritesThePaddedPlaintext dec .none u runs.2 (by rw [hulen, hsize]; omega) (by omega) (by omega)
  have same_iv : iv' = iv := by
    rw [hiv', ← iv.tab_get]
    exact Bytes.ext_get fun j hj => by
      rw [Bytes.get_tab_of_lt _ hj, Bytes.get_tab_of_lt _ hj, hcopy j (by omega), hiv j hj]
  have same_key : w' = w := by rw [hw', hw, hkey]
  subst same_iv same_key
  have cipherByte (k : Nat) (hk : k < 16 * (s.len.toNat / 16 + 1)) : u.byteAt (0x1010 + k) = t.byteAt (0x2010 + k) := by
    simpa only [← Nat.add_assoc] using hcopy (16 + k) (by omega)
  have input (k : Nat) (hk : k < s.len.toNat) : v.byteAt (0x2000 + k) = s.byteAt (0x1000 + k) := by
    rw [hplain k (by omega), cipherByte k (by omega), htext k hk, BitVec.xor_assoc, BitVec.xor_self, BitVec.xor_zero]
  have padLength : n.toNat = 16 - s.len.toNat % 16 := by
    rw [hn, hplain _ (by omega), cipherByte _ (by omega), hpad _ (by omega) (by omega), BitVec.xor_assoc,
      BitVec.xor_self, BitVec.xor_zero, toNat_padByte]
  obtain ⟨hstatus, hout⟩ := hgood (by omega)
  exact ⟨v, hv, by rw [hstatus], BitVec.eq_of_toNat_eq (by omega), input⟩

/-! ### The pre-checks -/

/-- Settles O53: each pre-check ends in `failBuf`. -/
theorem bufferPrecheckErrors : Obligations.BufferPrecheckErrors := by
  unfold Obligations.BufferPrecheckErrors
  intro i s p
  refine ⟨fun hlen hrun => ?_, fun hl hr henv => ?_, fun hl hr hpw => ?_⟩
  · rw [← State.failBuf_conclude]
    rcases hrun with hr | ⟨rfl, hi⟩
    · rw [exec_of_runsStreamEnc s hr, streamEnc_of_overlong hlen]
    · simp only [List.mem_cons, List.not_mem_nil, or_false] at hi
      rcases hi with rfl | rfl | rfl | rfl
      · rw [exec_decCur, streamDec_of_overlong hlen]
      · rw [exec_decOld, streamDec_of_overlong hlen]
      · rw [exec_xorc, xorRun_of_overlong hlen]
      · exact exec_decrypt_of_overlong hlen
  · rw [exec_of_runsStreamDec hl hr, streamDec_of_badEnvelope hl henv, State.failBuf_conclude]
  · rw [exec_of_runsXorRun hl hr, xorRun_of_badPwlen hl hpw, State.failBuf_conclude]

end Sys2Proof.Machine

/-! SUPPORT. The XOR cipher byte by byte (R200, R202), and the state `XorRun` leaves (R201). -/

namespace Sys2Proof.Machine

/-! ### The cipher -/

theorem getElem_xorCipher (k t : List Byte) {i : Nat} (h : i < (xorCipher k t).length) :
    (xorCipher k t)[i] = t.getD i 0 ^^^ k.getD (i % k.length) 0 := by
  simp only [xorCipher, List.getElem_map, List.getElem_range]

theorem xorCipher_xorCipher (k t : List Byte) : xorCipher k (xorCipher k t) = t := by
  refine List.ext_getElem (by simp only [length_xorCipher]) fun i h ht => ?_
  rw [getElem_xorCipher, getD_xorCipher k t ht, BitVec.xor_assoc, BitVec.xor_self, BitVec.xor_zero,
    List.getD_eq_getElem _ _ ht]

/-- Byte `i` of the result depends on no byte of the text but byte `i`, which a prefix longer than `i` keeps (R202). -/
theorem take_xorCipher (k t : List Byte) (m : Nat) : (xorCipher k t).take m = xorCipher k (t.take m) := by
  refine List.ext_getElem (by simp only [List.length_take, length_xorCipher]) fun i hi _ => ?_
  have him : i < m := by simp only [List.length_take] at hi; omega
  have same : (t.take m).getD i 0 = t.getD i 0 := by
    simp only [List.getD_eq_getElem?_getD, List.getElem?_take_of_lt him]
  rw [List.getElem_take, getElem_xorCipher, getElem_xorCipher, same]

/-! ### `XorRun` within its limits (R201) -/

/-- The result of `XorRun`: the input XOR the cycled password. -/
def State.xorOutput (s : State) : List Byte :=
  xorCipher (s.pwBytes s.pwlen.toNat) (s.ibufBytes s.len.toNat)

@[simp] theorem State.length_xorOutput (s : State) : s.xorOutput.length = s.len.toNat := by
  rw [State.xorOutput, length_xorCipher, State.length_ibufBytes]

theorem State.getD_xorOutput {s : State} (hp : 1 ≤ s.pwlen.toNat) {k : Nat} (hk : k < s.len.toNat) :
    s.xorOutput.getD k 0 = s.byteAt (0x1000 + k) ^^^ s.byteAt (0x0200 + k % s.pwlen.toNat) := by
  have text : (s.ibufBytes s.len.toNat).getD k 0 = s.byteAt (0x1000 + k) := s.getD_bytesAt hk
  have password : (s.pwBytes s.pwlen.toNat).getD (k % s.pwlen.toNat) 0 = s.byteAt (0x0200 + k % s.pwlen.toNat) :=
    s.getD_bytesAt (Nat.mod_lt k hp)
  rw [State.xorOutput, getD_xorCipher _ _ (by rwa [State.length_ibufBytes]), State.length_pwBytes, text, password]

/-- The state a successful XOR command leaves, with the `PATH` it reports. -/
def State.xored (s : State) (p : Path) : State :=
  { s.writeObuf s.xorOutput with outlen := s.len }.finish p

theorem xorRun_conclude_of_limits {s : State} (hl : s.len.toNat ≤ s.bufSize.bytes) (hp : 1 ≤ s.pwlen.toNat)
    (hmax : s.pwlen.toNat ≤ Config.pwMax) (p : Path) : (xorRun s).conclude p = s.xored p := by
  rcases xorRun_cases s with ⟨h, _⟩ | ⟨_, h, _⟩ | ⟨_, _, _, h⟩
  · omega
  · omega
  · rw [h, BitVec.ofNat_toNat, BitVec.setWidth_eq]
    rfl

theorem State.xored_eq (s : State) (p : Path) :
    s.xored p = { s with
      ram := (s.xored p).ram, outlen := s.len, status := { s.status with err := false, errCode := .ok, path := p } } :=
  rfl

/-- The bytes of memory after a successful XOR command: the result in `OBUF`, and everything else as it was. -/
theorem State.byteAt_xored (s : State) (p : Path) (a : Nat) :
    (s.xored p).byteAt a =
      if 0x2000 ≤ a ∧ a < 0x2000 + s.len.toNat then s.xorOutput.getD (a - 0x2000) 0 else s.byteAt a := by
  rw [State.byteAt_setBytes s (s.xored p) Config.obufBase s.xorOutput rfl rfl, State.length_xorOutput, Config.obufBase]

end Sys2Proof.Machine

/-! The statements about the XOR cipher and its commands. -/

namespace Sys2Proof.Machine

/-- Settles O51: the byte equation gives the other laws byte by byte. -/
theorem xorCipherIsAnInvolution : Obligations.XorCipherIsAnInvolution := by
  unfold Obligations.XorCipherIsAnInvolution
  intro k t _
  exact ⟨length_xorCipher k t, fun _ => getD_xorCipher k t, xorCipher_xorCipher k t, fun m _ => take_xorCipher k t m⟩

/-- Settles O52: within the limits `XorRun` passes both checks and writes its result to `OBUF`. -/
theorem xorRunXorsThePassword : Obligations.XorRunXorsThePassword := by
  unfold Obligations.XorRunXorsThePassword
  intro i p s hrun hl hp hmax
  refine ⟨s.xored p, ?_, s.xored_eq p, fun k hk => ?_, fun a ha => ?_⟩
  · rw [exec_of_runsXorRun hl hrun, xorRun_conclude_of_limits hl hp hmax]
  · rw [State.byteAt_xored, if_pos (by omega), Nat.add_sub_cancel_left, State.getD_xorOutput hp hk]
  · rw [State.byteAt_xored, if_neg ha]

end Sys2Proof.Machine

/-! SUPPORT. The dispatcher (R210 to R216): the signed reading of `VERSION`, when `DECRYPT` refuses, the `PATH` a command
reports, and that no other command than `DECRYPT` reads `VERSION`. -/

namespace Sys2Proof.Machine

/-! ### The signed reading of a word (R7, R25) -/

theorem signed32_neg_iff (w : Word) : signed32 w < 0 ↔ 0x80000000 ≤ w.toNat := by
  have := w.isLt
  unfold signed32
  split <;> omega

theorem signed32_eq_zero_iff (w : Word) : signed32 w = 0 ↔ w = 0 := by
  have := w.isLt
  rw [← BitVec.toNat_inj, show (0 : Word).toNat = 0 from rfl]
  unfold signed32
  split <;> omega

theorem one_le_signed32_iff (w : Word) : 1 ≤ signed32 w ↔ 1 ≤ w.toNat ∧ w.toNat < 0x80000000 := by
  have := w.isLt
  unfold signed32
  split <;> omega

/-! ### When `DECRYPT` refuses before routing (R212, R214) -/

theorem exec_decrypt_of_negative {s : State} (hl : s.len.toNat ≤ s.bufSize.bytes) (hv : signed32 s.version < 0) :
    exec .decrypt s = .next ((s.failBuf .version).conclude .none) :=
  (if_neg (Nat.not_lt.2 hl)).trans (if_pos hv)

theorem exec_decrypt_of_unset {s : State} (hl : s.len.toNat ≤ s.bufSize.bytes) (hv : signed32 s.version = 0)
    (hr : s.ctrl.legacyRoute = .unset) : exec .decrypt s = .next ((s.failBuf .route).conclude .none) := by
  have legacy : decryptLegacy s = (s.failBuf .route).conclude .none := by
    rw [decryptLegacy, hr]
    rfl
  rw [← legacy]
  exact (if_neg (Nat.not_lt.2 hl)).trans ((if_neg (by omega)).trans (if_neg (by omega)))

/-- Each of the three refusals ends in `failbuf` with route 0. -/
theorem exec_decrypt_refusal {s : State} (h : s.bufSize.bytes < s.len.toNat ∨ signed32 s.version < 0 ∨
    (signed32 s.version = 0 ∧ s.ctrl.legacyRoute = .unset)) :
    ∃ c, exec .decrypt s = .next ((s.failBuf c).conclude .none) := by
  by_cases hlen : s.bufSize.bytes < s.len.toNat
  · exact ⟨.len, exec_decrypt_of_overlong hlen⟩
  have hl : s.len.toNat ≤ s.bufSize.bytes := by omega
  rcases h with h | hv | ⟨hv, hr⟩
  · exact absurd h hlen
  · exact ⟨.version, exec_decrypt_of_negative hl hv⟩
  · exact ⟨.route, exec_decrypt_of_unset hl hv hr⟩

/-! ### The `PATH` a command reports (R216, R232) -/

/-- A sub-procedure's end reports the route of the command that ran it, whether it is done or failed. -/
@[simp] theorem Ending.conclude_path (e : Ending) (p : Path) : (e.conclude p).status.path = p := by
  cases e <;> rfl

/-- A command that touches no buffer reports route 0. -/
theorem RegisterEffect.path {i : Instr} {s t : State} (h : RegisterEffect i s t) : t.status.path = .none := by
  cases h <;> subst t <;> rfl

/-- Every command but the two of the dispatcher reports route 0. -/
theorem exec_path_of_ne {i : Instr} {s t : State} (henc : i ≠ .encrypt) (hdec : i ≠ .decrypt)
    (h : exec i s = .next t) : t.status.path = .none := by
  cases i with
  | encrypt => exact absurd rfl henc
  | decrypt => exact absurd rfl hdec
  | encCur | decCur | encOld | decOld | xorc => cases h; exact Ending.conclude_path _ _
  | _ => exact (exec_registerCommand (by simp [bufferCommands, Instr.mnemonic]) h).path

/-! ### The commands that do not read `VERSION` (R215) -/

section ChangedVersion

variable (s : State) (x : Word) (p : Path)

theorem State.chooseIv_withVersion :
    State.chooseIv { s with version := x } = { s.chooseIv with version := x } := by
  unfold State.chooseIv
  dsimp only
  split <;> rfl

/-- `StreamEnc` does the same whatever `VERSION` holds. -/
theorem streamEnc_conclude_withVersion (padfn : List Byte → List Byte) :
    (streamEnc padfn { s with version := x }).conclude p = { (streamEnc padfn s).conclude p with version := x } := by
  unfold streamEnc
  rw [State.chooseIv_withVersion]
  dsimp only
  split <;> rfl

theorem lateCheck_conclude_withVersion (d : State × List Byte) :
    (lateCheck ({ d.1 with version := x }, d.2)).conclude p = { (lateCheck d).conclude p with version := x } := by
  unfold lateCheck
  cases unpadLen d.2 <;> rfl

/-- `StreamDec` does the same whatever `VERSION` holds. -/
theorem streamDec_conclude_withVersion :
    (streamDec { s with version := x }).conclude p = { (streamDec s).conclude p with version := x } := by
  by_cases hlen : s.bufSize.bytes < s.len.toNat
  · rw [streamDec_of_overlong hlen, streamDec_of_overlong (s := { s with version := x }) hlen]
    rfl
  have hl : s.len.toNat ≤ s.bufSize.bytes := by omega
  by_cases henv : s.len.toNat < 32 ∨ s.len.toNat % 16 ≠ 0
  · rw [streamDec_of_badEnvelope hl henv, streamDec_of_badEnvelope (s := { s with version := x }) hl henv]
    rfl
  · rw [streamDec_eq_lateCheck hl henv, streamDec_eq_lateCheck (s := { s with version := x }) hl henv]
    exact lateCheck_conclude_withVersion x p s.decrypted

/-- `XorRun` does the same whatever `VERSION` holds. -/
theorem xorRun_conclude_withVersion :
    (xorRun { s with version := x }).conclude p = { (xorRun s).conclude p with version := x } := by
  unfold xorRun
  dsimp only
  split_ifs <;> rfl

end ChangedVersion

/-- No command but `DECRYPT` reads `VERSION`: the checks of the block and keystream commands test an operand and the validity
flags, and the sub-procedures of the buffer commands do the same whatever it holds. -/
theorem exec_withVersion {i : Instr} {s t : State} (x : Word) (hi : i ≠ .decrypt) (h : exec i s = .next t) :
    exec i { s with version := x } = .next { t with version := x } := by
  cases i with
  | decrypt => exact absurd rfl hi
  | ark | encblk | decblk | ksnext | ksxor =>
    simp only [exec, execArk, execEncblk, execDecblk, execKsnext, execKsxor] at h ⊢
    split_ifs at h ⊢ <;> cases h <;> rfl
  | encCur => cases h; exact congrArg _ (streamEnc_conclude_withVersion s x .none padCur)
  | encOld => cases h; exact congrArg _ (streamEnc_conclude_withVersion s x .none padOld)
  | encrypt => cases h; exact congrArg _ (streamEnc_conclude_withVersion s x .current padCur)
  | decCur | decOld => cases h; exact congrArg _ (streamDec_conclude_withVersion s x .none)
  | xorc => cases h; exact congrArg _ (xorRun_conclude_withVersion s x .none)
  | _ => cases h; rfl

/-! ### The events that change `VERSION` (R215, R260) -/

theorem State.writeReg_version_of_ne (s : State) {r : Reg} (hr : r ≠ .version) (v : Word) :
    (s.writeReg r v).version = s.version := by
  cases r with
  | version => exact absurd rfl hr
  | _ => rfl

@[simp] theorem State.writeWindow_version (s : State) (w : Window) (k : Nat) (v : Word) :
    (s.writeWindow w k v).version = s.version := by
  cases w <;> rfl

/-- Serving an event keeps `VERSION` unless it is a write to `VERSION` or the release of reset. -/
theorem ServeEffect.version {e : HostEvent} {s t : State} (h : ServeEffect e s t) :
    t.version = s.version ∨ (∃ v, e = .write 0x0010 4 v) ∨ (e = .resetLine false ∧ s.inReset = true) := by
  cases h with
  | released he hr ht => exact .inr (.inr ⟨he, hr⟩)
  | registerWritten r v hr he ht =>
    subst ht
    by_cases hver : r = .version
    · subst hver
      exact .inr (.inl ⟨v, he⟩)
    · exact .inl (s.writeReg_version_of_ne hver v)
  | windowWritten w k v he hk ht => subst ht; exact .inl (s.writeWindow_version w k v)
  | commandRun v i he hd hx => exact .inl (exec_sameHostFields hx).version
  | _ => subst t; exact .inl rfl

end Sys2Proof.Machine

/-! The statements about the dispatcher. -/

namespace Sys2Proof.Machine

/-- Settles O54: `NOP` is `finish(0)` alone. -/
theorem nopClearsTheErrorReport : Obligations.NopClearsTheErrorReport := by
  unfold Obligations.NopClearsTheErrorReport
  intro s
  rw [← State.finish_eq]
  rfl

/-- Settles O55: both refusals end in `failBuf`, before `DECRYPT` runs a sub-procedure. -/
theorem decryptRefusesToGuess : Obligations.DecryptRefusesToGuess := by
  unfold Obligations.DecryptRefusesToGuess
  refine ⟨fun w => ⟨signed32_neg_iff w, signed32_eq_zero_iff w, one_le_signed32_iff w⟩,
    fun s hl => ⟨fun hv => ?_, fun hv hr => ?_⟩⟩
  · rw [exec_decrypt_of_negative hl ((signed32_neg_iff _).2 hv), State.failBuf_conclude]
  · rw [exec_decrypt_of_unset hl ((signed32_eq_zero_iff _).2 hv) hr, State.failBuf_conclude]

/-- Settles O56: `PATH` is the route with which the command concludes its sub-procedure, and 0 where it runs none. -/
theorem pathAfterEachCommand : Obligations.PathAfterEachCommand := by
  unfold Obligations.PathAfterEachCommand
  refine ⟨fun i s t h => ⟨?_, fun henc hdec => exec_path_of_ne henc hdec h, ?_⟩, fun s t v e herr h => ?_⟩
  · rintro rfl
    cases h
    exact Ending.conclude_path _ _
  · rintro rfl
    refine ⟨fun hrefused => ?_, fun p hl hroute => ?_⟩
    · obtain ⟨c, hc⟩ := exec_decrypt_refusal hrefused
      cases hc.symm.trans h
      exact Ending.conclude_path _ _
    · rcases hroute with hr | hr
      · cases (exec_of_runsStreamDec hl hr).symm.trans h
        exact Ending.conclude_path _ _
      · cases (exec_of_runsXorRun hl hr).symm.trans h
        exact Ending.conclude_path _ _
  · rw [writeWord_cmd, runCommand_of_illegal herr] at h
    cases h
    rfl

/-- Settles O60: every command but `DECRYPT` commutes with a change of `VERSION`, which serving any event but the two named
keeps. -/
theorem versionIsTheHosts : Obligations.VersionIsTheHosts := by
  unfold Obligations.VersionIsTheHosts
  exact ⟨fun _ _ _ x => exec_withVersion x, fun _ _ _ _ hp h hne => (step_effect hp h).version.resolve_left hne⟩

end Sys2Proof.Machine

/-! SUPPORT. How a command can fail (R232, R234), and what commands and host writes do to the error report, to `RESULT` and to
`OUTLEN`. -/

namespace Sys2Proof.Machine

/-! ### How a command fails (R234) -/

/-- The ways a command can fail (R234). -/
inductive Failure (i : Instr) (s t : State) : Prop where
  /-- A check of a command that touches no buffer. -/
  | check (c : ErrCode) (hi : i.mnemonic ∉ bufferCommands) (hpad : c ≠ .padding) (h : t = s.raiseError c .none)
  /-- A pre-check of a buffer command. -/
  | preCheck (c : ErrCode) (p : Path) (hi : i.mnemonic ∈ bufferCommands) (hpad : c ≠ .padding)
      (h : t = { s with outlen := 0, status := s.status.fail c p })
  /-- The late check of a decrypt command, after it wrote `OBUF`. -/
  | lateCheck (p : Path) (hi : i.mnemonic ∈ bufferCommands) (h32 : 32 ≤ s.len.toNat) (h16 : s.len.toNat % 16 = 0)
      (h : t = { s.decrypted.1 with outlen := 0, status := s.decrypted.1.status.fail .padding p })

/-- Every state in which a command ends with `ERR` = 1. -/
theorem exec_failure {i : Instr} {s t : State} (h : exec i s = .next t) (herr : t.status.err = true) :
    Failure i s t := by
  by_cases hi : i.mnemonic ∈ bufferCommands
  · cases exec_bufferCommand hi h with
    | early c p hok hpad ht => exact .preCheck c p hi hpad ht
    | encrypted p hm hl ht => subst ht; cases herr
    | decrypted p u b hm hl h32 h16 hu hb hr ht =>
      subst hu
      rcases ht with ht | ⟨m, _, ht⟩
      · exact .lateCheck p hi h32 h16 ht
      · subst ht; cases herr
    | xored p b hl hb ht => subst ht; cases herr
  · cases exec_registerCommand hi h with
    | failed c hok hpad ht => exact .check c hi hpad ht
    | _ => subst t; cases herr

/-! ### The error report (R232) -/

theorem Status.succeed_reports (r : Status) (p : Path) : (r.succeed p).err = true ↔ (r.succeed p).errCode ≠ .ok := by
  simp

theorem Status.fail_reports (r : Status) {c : ErrCode} (hc : c ≠ .ok) (p : Path) :
    (r.fail c p).err = true ↔ (r.fail c p).errCode ≠ .ok := by
  simp [hc]

/-- After every command `ERR` agrees with `ERRCODE`, whatever they were before. -/
theorem exec_errorReportOk {i : Instr} {s t : State} (h : exec i s = .next t) : t.ErrorReportOk := by
  by_cases hi : i.mnemonic ∈ bufferCommands
  · cases exec_bufferCommand hi h with
    | early c p hok hpad ht => subst ht; exact Status.fail_reports _ hok p
    | encrypted p hm hl ht => subst ht; exact Status.succeed_reports _ p
    | decrypted p u b hm hl h32 h16 hu hb hr ht =>
      obtain rfl | ⟨m, _, rfl⟩ := ht
      · exact Status.fail_reports _ (by decide) p
      · exact Status.succeed_reports _ p
    | xored p b hl hb ht => subst ht; exact Status.succeed_reports _ p
  · cases exec_registerCommand hi h with
    | failed c hok hpad ht => subst ht; exact Status.fail_reports _ hok .none
    | _ => subst t; exact Status.succeed_reports _ .none

/-! ### `RESULT` (R30) -/

/-- A command keeps `RESULT` or puts a byte there. -/
theorem exec_resultOk {i : Instr} {s t : State} (h : exec i s = .next t) (hs : s.ResultOk) : t.ResultOk := by
  by_cases hi : i.mnemonic ∈ bufferCommands
  · obtain ⟨hresult, _⟩ := (exec_bufferCommand hi h).frame
    rwa [State.ResultOk, hresult]
  · cases exec_registerCommand hi h with
    | wroteResult v hm ht => subst ht; exact zext32_lt v
    | _ => subst t; exact hs

/-! ### `OUTLEN` (R29, R38) -/

/-- A command keeps `OUTLEN`, clears it, or puts there the number of bytes it wrote to `OBUF` or less. -/
theorem exec_outlenOk {i : Instr} {s t : State} (h : exec i s = .next t) (hs : s.OutlenOk) : t.OutlenOk := by
  obtain ⟨hbuf, _⟩ := exec_ram h
  rw [State.OutlenOk, hbuf]
  by_cases hi : i.mnemonic ∈ bufferCommands
  · cases exec_bufferCommand hi h with
    | early c p hok hpad ht => subst ht; exact Nat.zero_le _
    | encrypted p hm hl ht =>
      have := State.toNat_encrypted_outlen hl p
      rw [State.encrypted, ← ht] at this
      omega
    | decrypted p u b hm hl h32 h16 hu hb hr ht =>
      obtain rfl | ⟨m, hm, rfl⟩ := ht
      · exact Nat.zero_le _
      · have : (BitVec.ofNat 32 m).toNat ≤ m := BitVec.toNat_ofNat m 32 ▸ Nat.mod_le _ _
        dsimp only
        omega
    | xored p b hl hb ht => subst ht; exact Nat.le_add_right_of_le hl
  · obtain ⟨⟨houtlen, _⟩, _⟩ := (exec_registerCommand hi h).frame
    exact houtlen ▸ hs

/-! ### The three together -/

/-- The error report, `RESULT` and `OUTLEN` are in range (R29, R30, R232). -/
def State.ReportsInRange (s : State) : Prop :=
  s.ErrorReportOk ∧ s.ResultOk ∧ s.OutlenOk

theorem State.ReportsInRange.exec {i : Instr} {s t : State} (hs : s.ReportsInRange) (h : exec i s = .next t) :
    t.ReportsInRange := by
  obtain ⟨_, hresult, houtlen⟩ := hs
  exact ⟨exec_errorReportOk h, exec_resultOk h hresult, exec_outlenOk h houtlen⟩

theorem State.ReportsInRange.raiseError {s : State} (hs : s.ReportsInRange) {c : ErrCode} (hc : c ≠ .ok) (p : Path) :
    (s.raiseError c p).ReportsInRange :=
  ⟨Status.fail_reports _ hc p, hs.2⟩

/-- No register a host write stores to is one of the three. -/
theorem State.ReportsInRange.writeReg {s : State} (hs : s.ReportsInRange) (r : Reg) (v : Word) :
    (s.writeReg r v).ReportsInRange := by
  cases r <;> exact hs

/-- A host write of a window keeps the three: in `STATUS` it writes `KEY_VALID` alone. -/
theorem State.ReportsInRange.writeWindow {s : State} (hs : s.ReportsInRange) (w : Window) (k : Nat) (v : Word) :
    (s.writeWindow w k v).ReportsInRange := by
  cases w <;> exact hs

theorem State.ReportsInRange.released (s : State) : s.released.ReportsInRange :=
  ⟨⟨nofun, fun hne => absurd rfl hne⟩, Nat.zero_lt_succ 255, Nat.zero_le _⟩

theorem ServeEffect.keeps_reportsInRange (e : HostEvent) (s t : State) (h : ServeEffect e s t)
    (hs : s.ReportsInRange) : t.ReportsInRange := by
  cases h with
  | released he hr ht => subst ht; exact .released s
  | registerWritten r v hr he ht => subst ht; exact hs.writeReg r v
  | windowWritten w k v he hk ht => subst ht; exact hs.writeWindow w k v
  | illegalWord v he ht => subst ht; exact .raiseError (s := { s with cmd := v }) hs (by decide) .none
  | commandRun v i he hd hx => exact .exec (s := { s with cmd := v }) hs hx
  | _ => subst t; exact hs

/-! ### Running a word that decodes (R231) -/

theorem decodeTableWord_eq_some_iff {nbits w : Nat} {i : Instr} :
    decodeTableWord nbits w = some i ↔ decode (BitVec.ofNat 32 (w % 2 ^ nbits)) = .ok i := by
  unfold decodeTableWord
  split <;> simp [*]

/-- A step that serves a write of a legal word to `CMD` runs its command, with `CMD` holding the word. -/
theorem step_of_command {s : State} {v : Word} {rest : List HostEvent} {i : Instr}
    (hp : s.pending = .write 0x000C 4 v :: rest) (hr : s.inReset = false) (hd : decode v = .ok i) :
    step s = exec i { s with pending := rest, cmd := v } := by
  rw [step_of_legal_write (by decide) (by decide) hr hp, writeWord_cmd, runCommand_of_decode hd]

end Sys2Proof.Machine

/-! The statements about running a command word, about failures, and about the reports. -/

namespace Sys2Proof.Machine

/-- Settles O3: the write is the next event in both clauses, since `withFetchWord` puts it first. -/
theorem stepRunsDecodedCommand : Obligations.StepRunsDecodedCommand := by
  unfold Obligations.StepRunsDecodedCommand
  exact ⟨fun _ _ _ _ hp hr hd _ => step_of_command hp hr hd,
    fun s nbits w _ _ hd => step_of_command (s := s.withFetchWord nbits w) rfl rfl (decodeTableWord_eq_some_iff.1 hd)⟩

/-- Settles O19: serving an event keeps the three in range. -/
theorem stepKeepsReportsInRange : Obligations.StepKeepsReportsInRange := by
  unfold Obligations.StepKeepsReportsInRange
  intro s t herror hresult houtlen h
  exact step_keeps (P := State.ReportsInRange) (fun _ _ hs => hs) ServeEffect.keeps_reportsInRange
    ⟨herror, hresult, houtlen⟩ h

/-- Settles O59, by the three ways a command can fail, and the one way an illegal word does. -/
theorem failuresArePrecise : Obligations.FailuresArePrecise := by
  unfold Obligations.FailuresArePrecise
  refine ⟨fun i s t h herr => ?_, fun s t v e hd h => ?_⟩
  · cases exec_failure h herr with
    | check c hi hpad ht =>
      subst ht
      exact ⟨fun _ => rfl, fun hm => absurd hm hi, fun _ => ⟨rfl, rfl⟩, fun hc => absurd hc hpad⟩
    | preCheck c p hi hpad ht =>
      subst ht
      exact ⟨fun hn => absurd hi hn, fun _ _ => rfl, fun _ => ⟨rfl, rfl⟩, fun hc => absurd hc hpad⟩
    | lateCheck p hi h32 h16 ht =>
      obtain ⟨_, hobuf, htext, hksr, hframe⟩ := State.decrypted_bytes h32 h16
      subst ht
      exact ⟨fun hn => absurd hi hn, fun _ hne => absurd rfl hne, fun hne => absurd rfl hne, fun _ =>
        ⟨rfl, rfl, rfl, ⟨_, rfl, hksr, fun k hk => (hobuf k hk).trans (htext k hk)⟩, hframe⟩⟩
  · rw [writeWord_cmd, runCommand_of_illegal hd] at h
    cases h
    exact ⟨rfl, rfl⟩

end Sys2Proof.Machine

/-! The statements about reset: what the reset input does to accesses, and the state its release gives (R260, R261). -/

namespace Sys2Proof.Machine

/-! ### With no buffer byte written, and no key valid -/

/-- With no byte written since reset, every byte of `PW`, `IBUF` and `OBUF` is a draw of the present epoch (R36, U1). -/
theorem State.byteAt_of_ram_nil {s : State} (h : s.ram = []) (off : Nat) :
    s.byteAt off = Config.powerOnByte s.epoch off := by
  simp only [State.byteAt, h, Memory.get?]

theorem State.ramOk_of_ram_nil {s : State} (h : s.ram = []) : s.RamOk where
  wf := h ▸ .nil
  inside _ hc := absurd (h ▸ hc) List.not_mem_nil

/-- `KEY_VALID` = 0 claims nothing about `EXPKEY` (R39). -/
theorem State.keyValidOk_of_keyValid_false {s : State} (h : s.status.keyValid = false) : s.KeyValidOk :=
  fun ht => absurd (h.symm.trans ht) Bool.false_ne_true

/-! ### Steps of the reset input, and of accesses while it is asserted (R260) -/

theorem step_of_reset_asserted {s : State} {rest : List HostEvent} (hp : s.pending = .resetLine true :: rest) :
    step s = .next { s with pending := rest, inReset := true } :=
  step_of_pending_cons hp

section HeldInReset

variable {s : State} {off : Nat} {rest : List HostEvent} (hr : s.inReset = true)
include hr

theorem step_of_reset_released (hp : s.pending = .resetLine false :: rest) :
    step s = .next { s with pending := rest }.released := by
  rw [step_of_pending_cons hp]
  simp only [serve, hr, if_true]

/-- A legal write while reset is asserted has no effect on the engine. -/
theorem step_of_legal_write_in_reset {v : Word} (hp : s.pending = .write off 4 v :: rest) (ho : off < 0x4000)
    (ha : off % 4 = 0) : step s = .next { s with pending := rest } := by
  rw [step_of_pending_cons hp]
  simp only [serve, (accessFault_eq_none_iff off 4).2 ⟨ho, rfl, ha⟩, hr, if_true]

/-- A legal read while reset is asserted returns unspecified data (U12). -/
theorem step_of_legal_read_in_reset (hp : s.pending = .read off 4 :: rest) (ho : off < 0x4000) (ha : off % 4 = 0) :
    step s = .next
      { s with pending := rest, readData := Config.resetReadData s.readData.length :: s.readData } := by
  rw [step_of_pending_cons hp]
  simp only [serve, (accessFault_eq_none_iff off 4).2 ⟨ho, rfl, ha⟩, State.busRead, hr, if_true]

end HeldInReset

/-- Settles O2: one step lemma for each clause; the release leaves the memory empty, so its bytes are the new epoch's draws. -/
theorem resetInputHoldsAndReleases : Obligations.ResetInputHoldsAndReleases := by
  unfold Obligations.ResetInputHoldsAndReleases
  intro s rest
  exact ⟨step_of_reset_asserted, fun _ _ hp ho ha hr => step_of_legal_write_in_reset hr hp ho ha,
    fun _ hp ho ha hr => ⟨_, step_of_legal_read_in_reset hr hp ho ha⟩,
    fun hp hr => ⟨_, step_of_reset_released hr hp, rfl, State.byteAt_of_ram_nil rfl⟩⟩

/-! ### The state after reset (R261) -/

/-- Settles O1: the map shows each register at its offset, and every byte of a zero window is zero. -/
theorem resetValuesAreTheSpecs : Obligations.ResetValuesAreTheSpecs := by
  unfold Obligations.ResetValuesAreTheSpecs
  have hctrl : State.reset.ctrl.toWord = 0x00000007#32 := by decide
  have hstatus : State.reset.status.toWord = 0x00000000#32 := by decide
  have register := readWord_reg State.reset
  exact ⟨register .id, (register .ctrl).trans hctrl, rfl, (register .status).trans hstatus, rfl, register .cmd,
    register .version, register .len, register .pwlen, register .outlen, register .result,
    fun j _ => Bytes.get_zero 32 j, fun j _ => Bytes.get_zero 16 j, fun j _ => Bytes.get_zero 16 j,
    fun j _ => Bytes.get_zero 16 j, fun j _ => Bytes.get_zero 240 j⟩

/-- Settles O16: nothing is written and no key is valid, and the three reports have the values that any release gives them. -/
theorem resetMeetsTheInvariants : Obligations.ResetMeetsTheInvariants := by
  unfold Obligations.ResetMeetsTheInvariants
  have reports : State.reset.ReportsInRange := .released State.reset
  exact ⟨State.ramOk_of_ram_nil rfl, State.keyValidOk_of_keyValid_false rfl, reports⟩

end Sys2Proof.Machine
